-- ==== Sys2Proof/Word.lean ====
section
/-! DEFINITION. The 32-bit word of PFMM-1 (00_scope.md R8, R11) and the register index (30_encoding.md R81). -/

namespace Sys2Proof

/-- A `u32`: a limb, a storage word, a buffer word, a command word or a window register (00_scope.md R8, R11). -/
abbrev Word := BitVec 32

/-- The index of a field register F0–F15; all 16 values are valid (30_encoding.md R81). -/
abbrev FieldIx := Fin 16

/-- The index of a storage register S0–S15; all 16 values are valid (30_encoding.md R81). -/
abbrev StorIx := Fin 16

end Sys2Proof
end

