-- ==== Sys2Proof/Syntax.lean ====
section
/-! DEFINITION. The 31 commands of the opcode map (30_encoding.md R84), one constructor per row, with the operands of
the row's shape (R81) in the assembler's order (R87). -/

namespace Sys2Proof

/-- A command with its operands. An immediate is the 12-bit field IMM; the ranges of R82 stand in `Instr.wellFormed`. -/
inductive Instr where
  /-- `NORM rd, ra` (R103) -/
  | norm (rd ra : FieldIx)
  /-- `NORMW rd, ra` (R104) -/
  | normw (rd ra : FieldIx)
  /-- `NORMV rd, ra` (R105) -/
  | normv (rd ra : FieldIx)
  /-- `NTZ ra` (R106) -/
  | ntz (ra : FieldIx)
  /-- `NTZV ra` (R107) -/
  | ntzv (ra : FieldIx)
  /-- `SETB32 rd` (R120) -/
  | setb32 (rd : FieldIx)
  /-- `GETB32 ra` (R122) -/
  | getb32 (ra : FieldIx)
  /-- `ADD rd, ra, rb` (R130) -/
  | add (rd ra rb : FieldIx)
  /-- `NEG rd, ra, m` (R131) -/
  | neg (rd ra : FieldIx) (m : BitVec 12)
  /-- `MULINT rd, ra, a` (R132) -/
  | mulint (rd ra : FieldIx) (a : BitVec 12)
  /-- `CMOV rd, ra, flag` (R133) -/
  | cmov (rd ra : FieldIx) (flag : BitVec 12)
  /-- `MOV rd, ra` (R134) -/
  | mov (rd ra : FieldIx)
  /-- `SETINT rd, imm` (R135) -/
  | setint (rd : FieldIx) (imm : BitVec 12)
  /-- `CLEAR rd` (R136) -/
  | clear (rd : FieldIx)
  /-- `MUL rd, ra, rb` (R153) -/
  | mul (rd ra rb : FieldIx)
  /-- `SQR rd, ra` (R154) -/
  | sqr (rd ra : FieldIx)
  /-- `INV rd, ra` (R171) -/
  | inv (rd ra : FieldIx)
  /-- `INVV rd, ra` (R172) -/
  | invv (rd ra : FieldIx)
  /-- `SQRT rd, ra` (R173) -/
  | sqrt (rd ra : FieldIx)
  /-- `ISQV ra` (R174) -/
  | isqv (ra : FieldIx)
  /-- `CMPV ra, rb` (R190) -/
  | cmpv (ra rb : FieldIx)
  /-- `EQ ra, rb` (R191) -/
  | eq (ra rb : FieldIx)
  /-- `EQV ra, rb` (R192) -/
  | eqv (ra rb : FieldIx)
  /-- `TOSTOR sd, fa` (R200) -/
  | tostor (sd : StorIx) (fa : FieldIx)
  /-- `FROMSTOR fd, sa` (R201) -/
  | fromstor (fd : FieldIx) (sa : StorIx)
  /-- `SCMOV sd, sa, flag` (R202) -/
  | scmov (sd sa : StorIx) (flag : BitVec 12)
  /-- `LDSTOR sd` (R203) -/
  | ldstor (sd : StorIx)
  /-- `STSTOR sa` (R204) -/
  | ststor (sa : StorIx)
  /-- `LDRAW fd` (R205) -/
  | ldraw (fd : FieldIx)
  /-- `STRAW fa` (R206) -/
  | straw (fa : FieldIx)
  /-- `VERIFY fa` (R207) -/
  | verify (fa : FieldIx)
  deriving DecidableEq, Repr

/-- The column "CT" of the opcode map (30_encoding.md R84): the commands under the constant-time contract of
70_reset_and_hazards.md R256. -/
def Instr.constantTime : Instr → Bool
  | .norm _ _ => true
  | .normw _ _ => true
  | .normv _ _ => false
  | .ntz _ => true
  | .ntzv _ => false
  | .setb32 _ => true
  | .getb32 _ => true
  | .add _ _ _ => true
  | .neg _ _ _ => true
  | .mulint _ _ _ => true
  | .cmov _ _ _ => true
  | .mov _ _ => true
  | .setint _ _ => true
  | .clear _ => true
  | .mul _ _ _ => true
  | .sqr _ _ => true
  | .inv _ _ => true
  | .invv _ _ => false
  | .sqrt _ _ => true
  | .isqv _ => false
  | .cmpv _ _ => false
  | .eq _ _ => true
  | .eqv _ _ => false
  | .tostor _ _ => true
  | .fromstor _ _ => true
  | .scmov _ _ _ => true
  | .ldstor _ => true
  | .ststor _ => true
  | .ldraw _ => true
  | .straw _ => true
  | .verify _ => true

end Sys2Proof
end

