-- ==== Sys2Proof/WellFormed.lean ====
section
/-! DEFINITION. Which commands an encoding can name: the immediate ranges of 30_encoding.md R82. -/

namespace Sys2Proof

/-- The immediate of the command is within its range (30_encoding.md R82): NEG 0..31, MULINT 0..32, CMOV and SCMOV
0..1, SETINT the whole of 0..4095. The other commands carry no immediate. -/
def Instr.wellFormed : Instr → Bool
  | .norm _ _ => true
  | .normw _ _ => true
  | .normv _ _ => true
  | .ntz _ => true
  | .ntzv _ => true
  | .setb32 _ => true
  | .getb32 _ => true
  | .add _ _ _ => true
  | .neg _ _ m => decide (m.toNat ≤ 31)
  | .mulint _ _ a => decide (a.toNat ≤ 32)
  | .cmov _ _ flag => decide (flag.toNat ≤ 1)
  | .mov _ _ => true
  | .setint _ _ => true
  | .clear _ => true
  | .mul _ _ _ => true
  | .sqr _ _ => true
  | .inv _ _ => true
  | .invv _ _ => true
  | .sqrt _ _ => true
  | .isqv _ => true
  | .cmpv _ _ => true
  | .eq _ _ => true
  | .eqv _ _ => true
  | .tostor _ _ => true
  | .fromstor _ _ => true
  | .scmov _ _ flag => decide (flag.toNat ≤ 1)
  | .ldstor _ => true
  | .ststor _ => true
  | .ldraw _ => true
  | .straw _ => true
  | .verify _ => true

end Sys2Proof
end

