-- ==== Sys2Proof/Decode.lean ====
section
/-! DEFINITION. The decoder of command words, total on every 32-bit word, and the encoder beside it
(30_encoding.md R80–R86). -/

namespace Sys2Proof

/-! ## The fields of a command word (R80) -/

/-- OP, bits 31:24 (R80). -/
def opField (w : Word) : BitVec 8 := w.extractLsb' 24 8

/-- RD, bits 23:20, read as an unsigned index (R80, R81). -/
def rdField (w : Word) : Fin 16 := (w.extractLsb' 20 4).toFin

/-- RA, bits 19:16 (R80, R81). -/
def raField (w : Word) : Fin 16 := (w.extractLsb' 16 4).toFin

/-- RB, bits 15:12 (R80, R81). -/
def rbField (w : Word) : Fin 16 := (w.extractLsb' 12 4).toFin

/-- IMM, bits 11:0 (R80, R82). -/
def immField (w : Word) : BitVec 12 := w.extractLsb' 0 12

/-- The command word with the given fields (R80). -/
def packWord (op : BitVec 8) (rd ra rb : Fin 16) (imm : BitVec 12) : Word :=
  op ++ (BitVec.ofFin rd : BitVec 4) ++ (BitVec.ofFin ra : BitVec 4) ++ (BitVec.ofFin rb : BitVec 4) ++ imm

/-! ## Decoding (R86) -/

/-- What a 32-bit word is (R86): one command with its operand values, or an illegal word of one of two kinds. -/
inductive Decoded where
  | command (i : Instr)
  /-- OP is reserved (R85). -/
  | illegalOp
  /-- OP is known, but an unused field is not zero or IMM is out of range (R82, R83). -/
  | illegalField
  deriving DecidableEq, Repr

/-- Step 2 to 4 of R86: `unusedZero` says that the fields the shape does not use are 0 (R83), `inRange` that IMM is in
the opcode's range (R82). -/
def checkFields (unusedZero inRange : Bool) (i : Instr) : Decoded :=
  if !unusedZero then .illegalField else if !inRange then .illegalField else .command i

/-- Shape D: RD (R81). -/
def decodeD (w : Word) (mk : Fin 16 → Instr) : Decoded :=
  checkFields (raField w == 0 && rbField w == 0 && immField w == 0) true (mk (rdField w))

/-- Shape DI: RD and IMM, IMM at most `max` (R81, R82). -/
def decodeDI (w : Word) (max : Nat) (mk : Fin 16 → BitVec 12 → Instr) : Decoded :=
  checkFields (raField w == 0 && rbField w == 0) (decide ((immField w).toNat ≤ max)) (mk (rdField w) (immField w))

/-- Shape A: RA (R81). -/
def decodeA (w : Word) (mk : Fin 16 → Instr) : Decoded :=
  checkFields (rdField w == 0 && rbField w == 0 && immField w == 0) true (mk (raField w))

/-- Shape DA: RD and RA (R81). -/
def decodeDA (w : Word) (mk : Fin 16 → Fin 16 → Instr) : Decoded :=
  checkFields (rbField w == 0 && immField w == 0) true (mk (rdField w) (raField w))

/-- Shape DAI: RD, RA and IMM, IMM at most `max` (R81, R82). -/
def decodeDAI (w : Word) (max : Nat) (mk : Fin 16 → Fin 16 → BitVec 12 → Instr) : Decoded :=
  checkFields (rbField w == 0) (decide ((immField w).toNat ≤ max)) (mk (rdField w) (raField w) (immField w))

/-- Shape DAB: RD, RA and RB (R81). -/
def decodeDAB (w : Word) (mk : Fin 16 → Fin 16 → Fin 16 → Instr) : Decoded :=
  checkFields (immField w == 0) true (mk (rdField w) (raField w) (rbField w))

/-- Shape AB: RA and RB (R81). -/
def decodeAB (w : Word) (mk : Fin 16 → Fin 16 → Instr) : Decoded :=
  checkFields (rdField w == 0 && immField w == 0) true (mk (raField w) (rbField w))

/-- The decoder (R86): OP is looked up in the opcode map (R84), then the unused fields and the range of IMM are
checked. Every OP the map does not list is reserved (R85). -/
def decode (w : Word) : Decoded :=
  match opField w with
  | 0x10#8 => decodeDA w .norm
  | 0x11#8 => decodeDA w .normw
  | 0x12#8 => decodeDA w .normv
  | 0x13#8 => decodeA w .ntz
  | 0x14#8 => decodeA w .ntzv
  | 0x20#8 => decodeD w .setb32
  | 0x21#8 => decodeA w .getb32
  | 0x30#8 => decodeDAB w .add
  | 0x31#8 => decodeDAI w 31 .neg
  | 0x32#8 => decodeDAI w 32 .mulint
  | 0x33#8 => decodeDAI w 1 .cmov
  | 0x34#8 => decodeDA w .mov
  | 0x35#8 => decodeDI w 4095 .setint
  | 0x36#8 => decodeD w .clear
  | 0x40#8 => decodeDAB w .mul
  | 0x41#8 => decodeDA w .sqr
  | 0x50#8 => decodeDA w .inv
  | 0x51#8 => decodeDA w .invv
  | 0x52#8 => decodeDA w .sqrt
  | 0x53#8 => decodeA w .isqv
  | 0x60#8 => decodeAB w .cmpv
  | 0x61#8 => decodeAB w .eq
  | 0x62#8 => decodeAB w .eqv
  | 0x70#8 => decodeDA w .tostor
  | 0x71#8 => decodeDA w .fromstor
  | 0x72#8 => decodeDAI w 1 .scmov
  | 0x73#8 => decodeD w .ldstor
  | 0x74#8 => decodeA w .ststor
  | 0x80#8 => decodeD w .ldraw
  | 0x81#8 => decodeA w .straw
  | 0x82#8 => decodeA w .verify
  | _ => .illegalOp

/-! ## Encoding -/

/-- The command word of a well-formed command: its OP (R84) and its operands in the fields of its shape (R81), every
unused field 0 (R83). -/
def encode : Instr → Word
  | .norm rd ra => packWord 0x10 rd ra 0 0
  | .normw rd ra => packWord 0x11 rd ra 0 0
  | .normv rd ra => packWord 0x12 rd ra 0 0
  | .ntz ra => packWord 0x13 0 ra 0 0
  | .ntzv ra => packWord 0x14 0 ra 0 0
  | .setb32 rd => packWord 0x20 rd 0 0 0
  | .getb32 ra => packWord 0x21 0 ra 0 0
  | .add rd ra rb => packWord 0x30 rd ra rb 0
  | .neg rd ra m => packWord 0x31 rd ra 0 m
  | .mulint rd ra a => packWord 0x32 rd ra 0 a
  | .cmov rd ra flag => packWord 0x33 rd ra 0 flag
  | .mov rd ra => packWord 0x34 rd ra 0 0
  | .setint rd imm => packWord 0x35 rd 0 0 imm
  | .clear rd => packWord 0x36 rd 0 0 0
  | .mul rd ra rb => packWord 0x40 rd ra rb 0
  | .sqr rd ra => packWord 0x41 rd ra 0 0
  | .inv rd ra => packWord 0x50 rd ra 0 0
  | .invv rd ra => packWord 0x51 rd ra 0 0
  | .sqrt rd ra => packWord 0x52 rd ra 0 0
  | .isqv ra => packWord 0x53 0 ra 0 0
  | .cmpv ra rb => packWord 0x60 0 ra rb 0
  | .eq ra rb => packWord 0x61 0 ra rb 0
  | .eqv ra rb => packWord 0x62 0 ra rb 0
  | .tostor sd fa => packWord 0x70 sd fa 0 0
  | .fromstor fd sa => packWord 0x71 fd sa 0 0
  | .scmov sd sa flag => packWord 0x72 sd sa 0 flag
  | .ldstor sd => packWord 0x73 sd 0 0 0
  | .ststor sa => packWord 0x74 0 sa 0 0
  | .ldraw fd => packWord 0x80 fd 0 0 0
  | .straw fa => packWord 0x81 0 fa 0 0
  | .verify fa => packWord 0x82 0 fa 0 0

/-- The 32-bit word whose low `nbits` bits are those of `w` and whose other bits are 0: the opcode table numbers a
command's bits as R80 does, bit 0 the least significant. -/
def tableWord (nbits w : Nat) : Word := BitVec.ofNat 32 (w % 2 ^ nbits)

/-- The command the decoder reads from a table row's bits; none where the word is illegal. -/
def decodeTableWord (nbits w : Nat) : Option Instr :=
  match decode (tableWord nbits w) with
  | .command i => some i
  | .illegalOp => none
  | .illegalField => none

end Sys2Proof
end

