-- ==== Sys2Proof/Machine/State.lean ====
section
/-! DEFINITION. The state of the unit, the faults it records, the host's accesses to it, and the state after reset
(10_state.md R31–R52, 60_exceptions.md R220–R222, 70_reset_and_hazards.md R250). -/

namespace Sys2Proof.Machine

/-- The seven causes of a recorded fault (60_exceptions.md R222). Recording one is an effect on STATUS, not a stop. -/
inductive FaultCode where
  /-- OP is reserved. -/
  | illegalOp
  /-- An unused field is not zero, or IMM is out of range. -/
  | illegalField
  /-- A source register has w = 0. -/
  | unwritten
  /-- A source field register, the record of LDRAW or the value of FROMSTOR breaks the representation invariant. -/
  | invariant
  /-- A magnitude precondition fails. -/
  | magnitude
  /-- An operand that must be normalized is not. -/
  | notNormalized
  /-- A host write to CMD, BUFW, LIMB or META while BUSY = 1. -/
  | overrun
  deriving DecidableEq, Repr

/-- A field element record (10_state.md R31, R32): limbs, magnitude, normalized flag. Limb 0 is least significant (R13). -/
structure FieldRec where
  n : Vector Word 10
  mag : Nat
  norm : Bool
  deriving DecidableEq, Repr

/-- A field register: a record and the written bit (10_state.md R31). With `w` false the record is a placeholder that no
command reads as a source (R36; 93_implementation_defined.md S4). -/
structure FieldReg extends FieldRec where
  w : Bool
  deriving DecidableEq, Repr

/-- A storage register: eight words, word 0 least significant (R40), and the written bit (10_state.md R38). -/
structure StorReg where
  sw : Vector Word 8
  w : Bool
  deriving DecidableEq, Repr

/-- What the outside does to the unit in one cycle: at most one bus access (20_memory.md R61, R62, R68) or the reset
event (70_reset_and_hazards.md R250). DESIGN CHOICE, log 2. An access carries its byte offset in the window and its
width in bytes. -/
inductive HostEvent where
  /-- No access in this cycle. -/
  | idle
  /-- A read of `width` bytes at offset `off`. -/
  | read (off width : Nat)
  /-- A write of `width` bytes at offset `off`; `v` is the word of a 32-bit write. -/
  | write (off width : Nat) (v : Word)
  /-- `host.wait` (30_encoding.md R88): reads STATUS, and again in the next cycle until BUSY reads 0. -/
  | wait
  /-- The reset event. -/
  | reset
  /-- An access that begins below BASE and reaches into the window (20_memory.md R62). No offset stands for its first
  byte (log 17). -/
  | accessFromBelow
  /-- A host access while reset is asserted (70_reset_and_hazards.md R250; 93_implementation_defined.md S3). -/
  | accessInReset
  deriving DecidableEq, Repr

/-- Why the machine stops with a fault. -/
inductive Fault where
  /-- Raised by the bus (`access`): an access at an offset outside the 256 bytes of the window, an address the unit
  does not have (20_memory.md R60). Safe: the model stops where nothing is specified. -/
  | outsideWindow
  deriving DecidableEq, Repr

/-- Why the machine refuses to go on. -/
inductive Refusal where
  /-- Raised by `exec` for an instruction that has no meaning yet. Safe: the model stops. -/
  | notModelled (mnemonic : String)
  /-- Raised by the bus for an access to the window that is not an aligned 32-bit one, which the spec gives no step
  (20_memory.md R62); one that reaches into the window from below BASE is such an access. Safe: the model stops. -/
  | accessOutsideContract
  /-- Raised by the bus for a host access while reset is asserted, which is outside the interface contract
  (70_reset_and_hazards.md R250). Safe: the model stops. -/
  | accessDuringReset
  deriving DecidableEq, Repr

/-- The state of the unit, and what the model holds of its surroundings (`host`, `rdata`, `draws`). -/
structure State where
  /-- F0–F15 (10_state.md R31). -/
  freg : Vector FieldReg 16
  /-- S0–S15 (10_state.md R38). -/
  sreg : Vector StorReg 16
  /-- BUFW[0..7] (10_state.md R41). -/
  bufw : Vector Word 8
  /-- LIMB[0..9] (10_state.md R43). -/
  limb : Vector Word 10
  /-- META (10_state.md R44). -/
  metaw : Word
  /-- RESULT (10_state.md R45). -/
  result : Word
  /-- STATUS.FAULT (10_state.md R46). -/
  fault : Bool
  /-- STATUS.FCODE (10_state.md R46, 60_exceptions.md R222). -/
  fcode : BitVec 4
  /-- FAULTCMD (10_state.md R47). -/
  faultcmd : Word
  /-- The in-flight command latch CUR (10_state.md R51, 60_exceptions.md R220). STATUS.BUSY is 1 exactly when it is
  not empty. -/
  cur : Option Word
  /-- The cycle counter (60_exceptions.md R220): the cycles that must still pass before the command in `cur`
  completes. -/
  left : Nat
  /-- The model's own: the host's accesses that have not reached the unit yet, oldest first (log 2). -/
  host : List HostEvent
  /-- The model's own: the word the last bus read returned (log 6). -/
  rdata : Word
  /-- The model's own: how many unspecified reads have been drawn (log 5). -/
  draws : Nat
  deriving DecidableEq, Repr

/-- An unwritten field register (10_state.md R52). Its record is a placeholder: DESIGN CHOICE, log 1. -/
def FieldReg.unwritten : FieldReg :=
  { n := Vector.replicate 10 0, mag := 0, norm := false, w := false }

/-- An unwritten storage register (10_state.md R52). Its words are placeholders: DESIGN CHOICE, log 1. -/
def StorReg.unwritten : StorReg :=
  { sw := Vector.replicate 8 0, w := false }

/-- The machine right after reset (10_state.md R52, 70_reset_and_hazards.md R250). The model's own fields are empty or
0: DESIGN CHOICE, log 2, 3, 5, 6. -/
def State.reset : State where
  freg := Vector.replicate 16 FieldReg.unwritten
  sreg := Vector.replicate 16 StorReg.unwritten
  bufw := Vector.replicate 8 0
  limb := Vector.replicate 10 0
  metaw := 0
  result := 0
  fault := false
  fcode := 0
  faultcmd := 0
  cur := none
  left := 0
  host := []
  rdata := 0
  draws := 0

end Sys2Proof.Machine
end

