-- ==== Sys2Proof/Config.lean ====
section
/-! DEFINITION. What an implementation of PFMM-1 fixes and the spec leaves open: constants with no body, so that no
proof can see their values (00_scope.md R8, 93_implementation_defined.md part 2). -/

namespace Sys2Proof

open Machine (State FieldRec)

/-- The window base divided by 256: BASE is a multiple of 256 that the platform sets (20_memory.md R60). Log 8. -/
opaque Config.baseBlock : Nat

/-- BASE (20_memory.md R60). -/
def Config.base : Nat := 256 * Config.baseBlock

/-- The cycles beyond the first that a constant-time command takes: a function of OP alone (70_reset_and_hazards.md
R256). Log 4. -/
opaque Config.latencyCT : BitVec 8 → Nat

/-- The cycles beyond the first that a variable-time command takes: a function of OP and of the operand values
(70_reset_and_hazards.md R256). Log 4. -/
opaque Config.latencyVar : BitVec 8 → List FieldRec → Nat

/-- The cycles beyond the first that a command word takes which faults: unconstrained (70_reset_and_hazards.md R256).
Log 4. -/
opaque Config.latencyFault : Word → State → Nat

/-- What a host read of an offset returns that 20_memory.md R65 leaves unspecified, for each draw in turn. A free
value, log 5. -/
opaque Config.busyRead : Nat → Nat → Word

end Sys2Proof
end

