-- ==== Sys2Proof/Machine/Limbs.lean ====
section
/-! DEFINITION. The field prime, limb vectors as lists of naturals with limb 0 first, and the exact arithmetic on them
that several command families share (00_scope.md R8–R13, 10_state.md R35, R40, R42). -/

namespace Sys2Proof.Machine

/-- The field prime p = 2^256 − 2^32 − 977 (00_scope.md R8). -/
def prime : Nat := 2 ^ 256 - 2 ^ 32 - 977

/-- 2^26 − 1 (00_scope.md R11). -/
def M26 : Nat := 0x3FFFFFF

/-- 2^22 − 1 (00_scope.md R11). -/
def M22 : Nat := 0x3FFFFF

/-- Limb i of a limb vector. -/
def lim (n : List Nat) (i : Nat) : Nat := n.getD i 0

/-- `val(n)`, the integer Σ n[i]·2^(26·i) (00_scope.md R12), in Horner's form. -/
def val : List Nat → Nat
  | [] => 0
  | x :: xs => x + 2 ^ 26 * val xs

/-- `fv(n)`, the field value (00_scope.md R12). -/
def fv (n : List Nat) : Nat := val n % prime

/-- The limb-wise representation of p (00_scope.md R10). -/
def pLimb : List Nat :=
  [0x3FFFC2F, 0x3FFFFBF, 0x3FFFFFF, 0x3FFFFFF, 0x3FFFFFF, 0x3FFFFFF, 0x3FFFFFF, 0x3FFFFFF, 0x3FFFFFF, 0x3FFFFF]

/-- The AND of limbs 2 to 8: the accumulator `m` of 40_normalize.md R101 and the middle term of 10_state.md R35. -/
def andMid (n : List Nat) : Nat :=
  lim n 2 &&& lim n 3 &&& lim n 4 &&& lim n 5 &&& lim n 6 &&& lim n 7 &&& lim n 8

/-- `Ge_p_limbs(n)` (10_state.md R35): the top limbs are all ones and adding 2^256 − p to the low two carries out. -/
def geP (n : List Nat) : Bool :=
  lim n 9 == M22 && andMid n == M26 && decide (lim n 1 + 0x40 + ((lim n 0 + 0x3D1) >>> 26) > M26)

/-- The ten limbs of a 256-bit integer (41_serialization.md R120, 46_storage_raw.md R201). -/
def slice26 (v : Nat) : List Nat :=
  [v &&& M26, (v >>> 26) &&& M26, (v >>> 52) &&& M26, (v >>> 78) &&& M26, (v >>> 104) &&& M26, (v >>> 130) &&& M26,
    (v >>> 156) &&& M26, (v >>> 182) &&& M26, (v >>> 208) &&& M26, v >>> 234]

/-- The limbs as the ten `u32` words of a register (10_state.md R31). -/
def toLimbs (n : List Nat) : Vector Word 10 :=
  #v[BitVec.ofNat 32 (lim n 0), BitVec.ofNat 32 (lim n 1), BitVec.ofNat 32 (lim n 2), BitVec.ofNat 32 (lim n 3),
    BitVec.ofNat 32 (lim n 4), BitVec.ofNat 32 (lim n 5), BitVec.ofNat 32 (lim n 6), BitVec.ofNat 32 (lim n 7),
    BitVec.ofNat 32 (lim n 8), BitVec.ofNat 32 (lim n 9)]

/-- The words of a vector as naturals, word 0 first. -/
def nats {k : Nat} (v : Vector Word k) : List Nat := v.toList.map BitVec.toNat

/-- `sval(sw)`, little-word-first (10_state.md R40). -/
def sval (sw : Vector Word 8) : Nat := (nats sw).foldr (fun x acc => x + 2 ^ 32 * acc) 0

/-- `bval(BUF)`, word 0 most significant (10_state.md R42). -/
def bval (b : Vector Word 8) : Nat := (nats b).foldl (fun acc x => acc * 2 ^ 32 + x) 0

/-- Word j of the little-word-first packing of a 256-bit integer (46_storage_raw.md R200). -/
def storWord (v j : Nat) : Word := BitVec.ofNat 32 ((v >>> (32 * j)) &&& 0xFFFFFFFF)

/-- The eight words of a storage register that hold the integer `v` (46_storage_raw.md R200). -/
def toStor (v : Nat) : Vector Word 8 :=
  #v[storWord v 0, storWord v 1, storWord v 2, storWord v 3, storWord v 4, storWord v 5, storWord v 6, storWord v 7]

/-- Byte b[k] of the big-endian 32-byte encoding of `v` (41_serialization.md R122). -/
def wireByte (v k : Nat) : Nat := (v >>> (8 * (31 - k))) &&& 0xFF

/-- BUFW[j], which holds bytes b[4j] to b[4j + 3], the first most significant (10_state.md R42). -/
def wireWord (v j : Nat) : Word :=
  BitVec.ofNat 32 (wireByte v (4 * j) * 2 ^ 24 + wireByte v (4 * j + 1) * 2 ^ 16 + wireByte v (4 * j + 2) * 2 ^ 8
    + wireByte v (4 * j + 3))

/-- The buffer that holds the 32-byte big-endian encoding of `v` (41_serialization.md R122). -/
def toWire (v : Nat) : Vector Word 8 :=
  #v[wireWord v 0, wireWord v 1, wireWord v 2, wireWord v 3, wireWord v 4, wireWord v 5, wireWord v 6, wireWord v 7]

end Sys2Proof.Machine
end

