-- ==== Sys2Proof/Machine/Flags.lean ====
section
/-! DEFINITION. The only flags of the unit: the words RESULT takes (10_state.md R45, R50) and the STATUS word with its
fault codes (R46, 60_exceptions.md R222). -/

namespace Sys2Proof.Machine

/-- A Boolean result, 0 or 1 (10_state.md R45). -/
def boolWord (b : Bool) : Word := if b then 1 else 0

/-- The result of CMPV (10_state.md R45, 45_compare.md R190): −1 as a 32-bit two's-complement word, 0 or 1. -/
def orderWord : Ordering → Word
  | .lt => 0xFFFFFFFF
  | .eq => 0
  | .gt => 1

/-- The FCODE of a fault (60_exceptions.md R222). -/
def FaultCode.code : FaultCode → BitVec 4
  | .illegalOp => 1
  | .illegalField => 2
  | .unwritten => 3
  | .invariant => 4
  | .magnitude => 5
  | .notNormalized => 6
  | .overrun => 7

/-- STATUS.BUSY (10_state.md R46, 60_exceptions.md R220). -/
def State.busy (s : State) : Bool := s.cur.isSome

/-- The STATUS word: BUSY bit 0, FAULT bit 1, FCODE bits 11:8, the rest 0 (10_state.md R46). -/
def State.statusWord (s : State) : Word :=
  (0 : BitVec 20) ++ s.fcode ++ (0 : BitVec 6) ++ BitVec.ofBool s.fault ++ BitVec.ofBool s.busy

end Sys2Proof.Machine
end

