-- ==== Sys2Proof/Machine/Ops.lean ====
section
/-! DEFINITION. The named operations on the state: register and buffer writes (10_state.md R37, R39, R41–R45), fault
entry and fault return (60_exceptions.md R221, R225), and how a command's rule becomes one step. -/

namespace Sys2Proof.Machine

/-! ## Writes -/

/-- The record with the given limbs and bookkeeping. -/
def FieldRec.ofLimbs (n : List Nat) (mag : Nat) (norm : Bool) : FieldRec :=
  { n := toLimbs n, mag := mag, norm := norm }

/-- `F[i] <- r`: the record is written and w is set (10_state.md R37). -/
def State.writeF (s : State) (i : FieldIx) (r : FieldRec) : State :=
  { s with freg := s.freg.set i { r with w := true } }

/-- The limbs-only write of a rejected SETB32: mag, norm and w stay (10_state.md R37, 41_serialization.md R120). -/
def State.writeLimbs (s : State) (i : FieldIx) (n : Vector Word 10) : State :=
  { s with freg := s.freg.set i { s.freg[i] with n := n } }

/-- `S[j] <- sw`: the words are written and w is set (10_state.md R39). -/
def State.writeS (s : State) (j : StorIx) (sw : Vector Word 8) : State :=
  { s with sreg := s.sreg.set j { sw := sw, w := true } }

/-- `RESULT <- v` (10_state.md R45). -/
def State.writeResult (s : State) (v : Word) : State := { s with result := v }

/-- All of BUF is written (41_serialization.md R122). -/
def State.writeBuf (s : State) (b : Vector Word 8) : State := { s with bufw := b }

/-- All of LIMB is written (46_storage_raw.md R206). -/
def State.writeLimbBuf (s : State) (l : Vector Word 10) : State := { s with limb := l }

/-- LIMB[0..7] are written; LIMB[8] and LIMB[9] stay (46_storage_raw.md R204). -/
def State.writeLimbLow (s : State) (sw : Vector Word 8) : State :=
  { s with limb := #v[sw[0], sw[1], sw[2], sw[3], sw[4], sw[5], sw[6], sw[7], s.limb[8], s.limb[9]] }

/-- A write of META: only MAG [5:0] and NORM [8] are held, the other bits ignore writes and read as 0 (10_state.md
R44). -/
def State.writeMeta (s : State) (v : Word) : State := { s with metaw := v &&& 0x13F }

/-- META.MAG, bits 5:0 (10_state.md R44). -/
def State.metaMag (s : State) : Nat := (s.metaw.extractLsb' 0 6).toNat

/-- META.NORM, bit 8 (10_state.md R44). -/
def State.metaNorm (s : State) : Bool := s.metaw.getLsbD 8

/-! ## Fault entry and fault return -/

/-- Taking a fault (60_exceptions.md R221, R226): the first one is recorded in FAULT, FCODE and FAULTCMD; while FAULT = 1
another leaves them as they are. Nothing else changes. FAULTCMD takes the word in the latch CUR: the command that faults
is the one in flight, and for OVERRUN it is "the in-flight word" (R222, R227). With an empty latch, which no fault meets,
the word is 0 (log 12). -/
def takeFault (c : FaultCode) (s : State) : State :=
  if s.fault then s else { s with fault := true, fcode := c.code, faultcmd := s.cur.getD 0 }

/-- The return from a fault (60_exceptions.md R225): a write of CTRL with FCLR = 1. -/
def clearFault (s : State) : State := { s with fault := false, fcode := 0, faultcmd := 0 }

/-! ## A command's rule as one step -/

/-- The effect of a command whose rule, run on the state `s`, gives the state `c` or raises a fault (60_exceptions.md
R220, R221): a fault replaces all of the rule's writes. -/
def runCommand (s : State) (c : Except FaultCode State) : Host.Outcome State Fault Refusal :=
  match c with
  | .ok t => .next t
  | .error e => .next (takeFault e s)

end Sys2Proof.Machine
end

