-- ==== Sys2Proof/Machine/Bus.lean ====
section
/-! DEFINITION. The host register window: its map, its reads, and where it stands in the host's address space
(20_memory.md R60–R65). -/

namespace Sys2Proof.Machine

/-- What stands at an offset of the window (20_memory.md R61). -/
inductive BusReg where
  | cmd
  | status
  | faultcmd
  | ctrl
  | result
  | bufw (j : Fin 8)
  | limb (i : Fin 10)
  | metaw
  | reserved
  deriving DecidableEq, Repr

/-- The register map (20_memory.md R61), for offsets that are multiples of 4 below 256. -/
def busReg (off : Nat) : BusReg :=
  if off = 0x000 then .cmd
  else if off = 0x004 then .status
  else if off = 0x008 then .faultcmd
  else if off = 0x00C then .ctrl
  else if off = 0x010 then .result
  else if h : 0x040 ≤ off ∧ off < 0x060 then .bufw ⟨(off - 0x040) / 4, by omega⟩
  else if h : 0x060 ≤ off ∧ off < 0x088 then .limb ⟨(off - 0x060) / 4, by omega⟩
  else if off = 0x088 then .metaw
  else .reserved

/-- The word a register reads as once the unit is not busy; write-only registers and reserved offsets read 0
(20_memory.md R61, R63). -/
def readReg (s : State) : BusReg → Word
  | .cmd => 0
  | .status => s.statusWord
  | .faultcmd => s.faultcmd
  | .ctrl => 0
  | .result => s.result
  | .bufw j => s.bufw[j]
  | .limb i => s.limb[i]
  | .metaw => s.metaw
  | .reserved => 0

/-- Whose value is unspecified while BUSY = 1 (20_memory.md R65). -/
def BusReg.hiddenWhileBusy : BusReg → Bool
  | .cmd => false
  | .status => false
  | .faultcmd => true
  | .ctrl => false
  | .result => true
  | .bufw _ => true
  | .limb _ => true
  | .metaw => true
  | .reserved => false

/-- Whose writes are dropped, with OVERRUN, while BUSY = 1 (20_memory.md R64, 60_exceptions.md R227). -/
def BusReg.lockedWhileBusy : BusReg → Bool
  | .cmd => true
  | .status => false
  | .faultcmd => false
  | .ctrl => false
  | .result => false
  | .bufw _ => true
  | .limb _ => true
  | .metaw => true
  | .reserved => false

/-- `BusRead(off)` (20_memory.md R63–R65): the host gets a word, and the unit does not change. While BUSY = 1 the value
of a hidden register is a free value, drawn anew at each such read (log 5). -/
def busRead (off : Nat) (s : State) : State :=
  if s.busy && (busReg off).hiddenWhileBusy then
    { s with rdata := Config.busyRead off s.draws, draws := s.draws + 1 }
  else { s with rdata := readReg s (busReg off) }

/-- The outcome of a bus access whose effect is `t`: a 32-bit access at an offset of the window that is a multiple of 4.
The spec gives no step to any other (20_memory.md R60, R62; log 8, 9). -/
def access (off width : Nat) (t : State) : Host.Outcome State Fault Refusal :=
  if 256 ≤ off then .fault .outsideWindow
  else if width = 4 ∧ off % 4 = 0 then .next t
  else .refused .accessOutsideContract

/-- The offset of a byte address in the window at `base`, if it lies in the window (20_memory.md R60). -/
def windowOffset (base addr : Nat) : Option Nat :=
  if base ≤ addr ∧ addr < base + 256 then some (addr - base) else none

/-- What a unit with its window at `base` sees of a host access to the `width` bytes at `addr`. One that begins in the
window is the access `mk` at its offset, with its width. One that begins below it and reaches into it is wider than 32
bits or misaligned, since `base` is a multiple of 256, and so is outside the contract (20_memory.md R62; log 17). One
that touches no byte of the window is an idle cycle (R60; log 8). -/
def windowEvent (base addr width : Nat) (mk : Nat → Nat → HostEvent) : HostEvent :=
  match windowOffset base addr with
  | some off => mk off width
  | none => if addr < base ∧ base < addr + width then .accessFromBelow else .idle

/-- What the unit sees of a host access to the `width` bytes at a byte address of the host's address space. -/
def eventAt (addr width : Nat) (mk : Nat → Nat → HostEvent) : HostEvent := windowEvent Config.base addr width mk

end Sys2Proof.Machine
end

