-- ==== Sys2Proof/Machine/Operands.lean ====
section
/-! DEFINITION. Reading operands, with the checks the spec runs on every read (10_state.md R34, R36, R39), and the checks
of immediates and magnitudes that commands share (30_encoding.md R82, 60_exceptions.md R222, R223). -/

namespace Sys2Proof.Machine

/-- The limbs of a record as naturals, limb 0 first (00_scope.md R13). -/
def FieldRec.limbs (r : FieldRec) : List Nat := nats r.n

/-- `val` of a record's limbs (00_scope.md R12). -/
def FieldRec.val (r : FieldRec) : Nat := Machine.val r.limbs

/-- `fv` of a record's limbs (00_scope.md R12). -/
def FieldRec.fv (r : FieldRec) : Nat := Machine.fv r.limbs

/-- The `k` of 10_state.md R34, mag · (1 if norm else 2), which bounds the limbs. -/
def FieldRec.bound (r : FieldRec) : Nat := r.mag * (if r.norm then 1 else 2)

/-- `Verify(r)`, the representation invariant (10_state.md R34). -/
def verify (r : FieldRec) : Bool :=
  (r.limbs.take 9).all (fun x => decide (x ≤ M26 * r.bound))
    && decide (lim r.limbs 9 ≤ M22 * r.bound)
    && decide (r.mag ≤ 32)
    && (!r.norm || (decide (r.mag ≤ 1) && decide (r.val < prime)))

/-- `raise Fault(c)` unless `b` holds (60_exceptions.md R221). -/
def require (b : Bool) (c : FaultCode) : Except FaultCode Unit := if b then .ok () else .error c

/-- The range check of an immediate (30_encoding.md R82, 60_exceptions.md R223 item 3). The decoder has made it for
every word that reaches a command; the meaning makes it too, so that it says what R82 says of every operand (log 11). -/
def requireImm (imm : BitVec 12) (max : Nat) : Except FaultCode Unit :=
  require (decide (imm.toNat ≤ max)) .illegalField

/-- Reading F[i] with the UNWRITTEN check alone (46_storage_raw.md R206, R207). -/
def readFRaw (s : State) (i : FieldIx) : Except FaultCode FieldRec := do
  require s.freg[i].w .unwritten
  return s.freg[i].toFieldRec

/-- `F[i]` as a source operand: UNWRITTEN, then INVARIANT (10_state.md R36). -/
def readF (s : State) (i : FieldIx) : Except FaultCode FieldRec := do
  let r ← readFRaw s i
  require (verify r) .invariant
  return r

/-- `S[j]` as a source operand: UNWRITTEN (10_state.md R39). -/
def readS (s : State) (j : StorIx) : Except FaultCode (Vector Word 8) := do
  require s.sreg[j].w .unwritten
  return s.sreg[j].sw

/-- F[i] as the operand of a command that needs it normalized (41_serialization.md R122, 46_storage_raw.md R200). -/
def readNormalized (s : State) (i : FieldIx) : Except FaultCode FieldRec := do
  let r ← readF s i
  require r.norm .notNormalized
  return r

/-- F[i] as the operand of a multiplication, a squaring or a chain: magnitude at most 8 (43_multiply.md R154,
44_chains.md R171–R174). -/
def readFactor (s : State) (i : FieldIx) : Except FaultCode FieldRec := do
  let r ← readF s i
  require (decide (r.mag ≤ 8)) .magnitude
  return r

end Sys2Proof.Machine
end

