-- ==== Sys2Proof/Machine/Multiply.lean ====
section
/-! DEFINITION. Modular multiply and square: MUL, SQR (43_multiply.md). -/

namespace Sys2Proof.Machine

/-- R0 (R150). -/
def foldR0 : Nat := 0x3D10

/-- R1 (R150). -/
def foldR1 : Nat := 0x400

/-- The column sum px of the schoolbook product (R151). -/
def column (a b : List Nat) (x : Nat) : Nat :=
  if x ≤ 9 then ((List.range' 0 (x + 1)).map fun i => lim a i * lim b (x - i)).sum
  else ((List.range' (x - 9) (19 - x)).map fun i => lim a i * lim b (x - i)).sum

/-- The accumulators c and d of R152 and the limbs t0, t1, … produced so far, the latest first. -/
structure MulAcc where
  c : Nat
  d : Nat
  ts : List Nat
  deriving DecidableEq, Repr

/-- Step k of R152: columns k and k + 10 enter, uk leaves d and is folded by R0 and R1, limb tk leaves c. `trunc` is
applied to every value c and d take. -/
def mulStep (trunc : Nat → Nat) (a b : List Nat) (s : MulAcc) (k : Nat) : MulAcc :=
  let c := trunc (s.c + column a b k)
  let d := trunc (s.d + column a b (k + 10))
  let u := d &&& M26
  let d := trunc (d >>> 26)
  let c := trunc (c + u * foldR0)
  let t := c &&& M26
  let c := trunc (c >>> 26)
  let c := trunc (c + u * foldR1)
  { c := c, d := d, ts := t :: s.ts }

/-- The accumulators after steps 0 to 7 of R152. Step 0 enters with c = 0, which is "c := p0". -/
def mulLoop (trunc : Nat → Nat) (a b : List Nat) : MulAcc :=
  [0, 1, 2, 3, 4, 5, 6, 7].foldl (mulStep trunc a b)
    { c := 0, d := trunc (trunc (column a b 9) >>> 26), ts := [] }

/-- The rest of R152 after step 7: column 8 and 18, the top fold at limb 9, and the last fold into limbs 0, 1, 2. `t9` is
the limb taken from p9. -/
def mulTail (trunc : Nat → Nat) (p8 p18 t9 : Nat) (s : MulAcc) : List Nat :=
  let c := trunc (s.c + p8)
  let d := trunc (s.d + p18)
  let u8 := d &&& M26
  let d := trunc (d >>> 26)
  let c := trunc (c + u8 * foldR0)
  let r8 := c &&& M26
  let c := trunc (c >>> 26)
  let c := trunc (c + u8 * foldR1)
  let c := trunc (c + d * foldR0 + t9)
  let r9 := c &&& (M26 >>> 4)
  let c := trunc (c >>> 22)
  let c := trunc (c + d * (foldR1 <<< 4))
  let d := trunc (c * (foldR0 >>> 4) + lim s.ts 7)
  let r0 := d &&& M26
  let d := trunc (d >>> 26)
  let d := trunc (d + c * (foldR1 >>> 4) + lim s.ts 6)
  let r1 := d &&& M26
  let d := trunc (d >>> 26)
  let d := trunc (d + lim s.ts 5)
  [r0, r1, d, lim s.ts 4, lim s.ts 3, lim s.ts 2, lim s.ts 1, lim s.ts 0, r8, r9]

/-- `MulCore` (R152) with accumulators of the width `trunc` gives them. -/
def mulCoreWith (trunc : Nat → Nat) (a b : List Nat) : List Nat :=
  mulTail trunc (column a b 8) (column a b 18) (trunc (column a b 9) &&& M26) (mulLoop trunc a b)

/-- `MulCore`, exact (R152, R155; log 13). -/
def mulCore (a b : List Nat) : List Nat := mulCoreWith (fun v => v) a b

/-- `MulCore` on a datapath with 64-bit accumulators (R155). No command uses it; R155 says it equals `mulCore` on
operands of magnitude at most 8. -/
def mulCore64 (a b : List Nat) : List Nat := mulCoreWith (fun v => v % 2 ^ 64) a b

/-- `MUL rd, ra, rb` (R153): both operands are read before the magnitudes are checked. -/
def execMul (rd ra rb : FieldIx) (s : State) : Host.Outcome State Fault Refusal :=
  runCommand s do
    let a ← readF s ra
    let b ← readF s rb
    require (decide (a.mag ≤ 8) && decide (b.mag ≤ 8)) .magnitude
    return s.writeF rd (.ofLimbs (mulCore a.limbs b.limbs) 1 false)

/-- `SQR rd, ra` (R154). -/
def execSqr (rd ra : FieldIx) (s : State) : Host.Outcome State Fault Refusal :=
  runCommand s do
    let a ← readFactor s ra
    return s.writeF rd (.ofLimbs (mulCore a.limbs a.limbs) 1 false)

end Sys2Proof.Machine
end

