-- ==== Sys2Proof/Machine/Chains.lean ====
section
/-! DEFINITION. The fixed-exponent chains: INV, INVV, SQRT, ISQV (44_chains.md). -/

namespace Sys2Proof.Machine

/-- `SqrN(x, k)`: k squarings (R170). -/
def sqrN (x : List Nat) : Nat → List Nat
  | 0 => x
  | k + 1 => sqrN (mulCore x x) k

/-- One link of a chain: k squarings of `x`, then a multiplication by `y`. -/
def link (x : List Nat) (k : Nat) (y : List Nat) : List Nat := mulCore (sqrN x k) y

/-- The powers `ChainHead` returns (R170); xk is a^(2^k − 1). -/
structure ChainPowers where
  x2 : List Nat
  x3 : List Nat
  x22 : List Nat
  x223 : List Nat
  deriving DecidableEq, Repr

/-- `ChainHead` (R170). -/
def chainHead (a : List Nat) : ChainPowers :=
  let x2 := link a 1 a
  let x3 := link x2 1 a
  let x6 := link x3 3 x3
  let x9 := link x6 3 x3
  let x11 := link x9 2 x2
  let x22 := link x11 11 x11
  let x44 := link x22 22 x22
  let x88 := link x44 44 x44
  let x176 := link x88 88 x88
  let x220 := link x176 44 x44
  let x223 := link x220 3 x3
  { x2 := x2, x3 := x3, x22 := x22, x223 := x223 }

/-- The limbs INV writes: the chain of exponent p − 2 (R171). -/
def invLimbs (a : List Nat) : List Nat :=
  let h := chainHead a
  link (link (link (link h.x223 23 h.x22) 5 a) 3 h.x2) 2 a

/-- The limbs SQRT writes: the chain of exponent (p + 1)/4 (R173). -/
def sqrtLimbs (a : List Nat) : List Nat :=
  let h := chainHead a
  sqrN (link (link h.x223 23 h.x22) 6 h.x2) 2

/-- The flag `ok` of R173: the square of the root has the operand's field value. -/
def sqrtOk (a : List Nat) : Bool :=
  let r := sqrtLimbs a
  fv (mulCore r r) == fv a

/-- `INV rd, ra` (R171). -/
def execInv (rd ra : FieldIx) (s : State) : Host.Outcome State Fault Refusal :=
  runCommand s do
    let a ← readFactor s ra
    return s.writeF rd (.ofLimbs (invLimbs a.limbs) 1 false)

/-- `INVV rd, ra` (R172): INV's record, limbs included. -/
def execInvv (rd ra : FieldIx) (s : State) : Host.Outcome State Fault Refusal :=
  runCommand s do
    let a ← readFactor s ra
    return s.writeF rd (.ofLimbs (invLimbs a.limbs) 1 false)

/-- `SQRT rd, ra` (R173). -/
def execSqrt (rd ra : FieldIx) (s : State) : Host.Outcome State Fault Refusal :=
  runCommand s do
    let a ← readFactor s ra
    return (s.writeF rd (.ofLimbs (sqrtLimbs a.limbs) 1 false)).writeResult (boolWord (sqrtOk a.limbs))

/-- `ISQV ra` (R174). -/
def execIsqv (ra : FieldIx) (s : State) : Host.Outcome State Fault Refusal :=
  runCommand s do
    let a ← readFactor s ra
    return s.writeResult (boolWord (sqrtOk a.limbs))

end Sys2Proof.Machine
end

