-- ==== Sys2Proof/Machine/Compare.lean ====
section
/-! DEFINITION. Comparison and equality: CMPV, EQ, EQV (45_compare.md). -/

namespace Sys2Proof.Machine

/-- The first differing pair decides, from the head of the list (R190's loop). -/
def compareFirst : List (Nat × Nat) → Ordering
  | [] => .eq
  | (x, y) :: rest => if x > y then .gt else if x < y then .lt else compareFirst rest

/-- The limb-wise order, most significant limb first (R190). -/
def compareLimbs (a b : List Nat) : Ordering := compareFirst (List.zip a b).reverse

/-- Equality of field values (R191). -/
def sameValue (a b : List Nat) : Bool := fv a == fv b

/-- `CMPV ra, rb` (R190): both operands are read before the normalized flags are checked. -/
def execCmpv (ra rb : FieldIx) (s : State) : Host.Outcome State Fault Refusal :=
  runCommand s do
    let a ← readF s ra
    let b ← readF s rb
    require (a.norm && b.norm) .notNormalized
    return s.writeResult (orderWord (compareLimbs a.limbs b.limbs))

/-- `EQ ra, rb` (R191). -/
def execEq (ra rb : FieldIx) (s : State) : Host.Outcome State Fault Refusal :=
  runCommand s do
    let a ← readF s ra
    let b ← readF s rb
    return s.writeResult (boolWord (sameValue a.limbs b.limbs))

/-- `EQV ra, rb` (R192). -/
def execEqv (ra rb : FieldIx) (s : State) : Host.Outcome State Fault Refusal :=
  runCommand s do
    let a ← readF s ra
    let b ← readF s rb
    return s.writeResult (boolWord (sameValue a.limbs b.limbs))

end Sys2Proof.Machine
end

