-- ==== Sys2Proof/Machine/Linear.lean ====
section
/-! DEFINITION. Linear operators and constructors: ADD, NEG, MULINT, CMOV, MOV, SETINT, CLEAR (42_linear.md). -/

namespace Sys2Proof.Machine

/-- Limb-wise addition with no carry between limbs (R130). -/
def addLimbs (a b : List Nat) : List Nat := List.zipWith (· + ·) a b

/-- The limbs 2(m + 1)·p_limb[i] − a[i] (R131). -/
def negLimbs (m : Nat) (a : List Nat) : List Nat := List.zipWith (fun pl x => 2 * (m + 1) * pl - x) pLimb a

/-- Every limb multiplied by k (R132). -/
def scaleLimbs (k : Nat) (x : List Nat) : List Nat := x.map (· * k)

/-- `ADD rd, ra, rb` (R130). -/
def execAdd (rd ra rb : FieldIx) (s : State) : Host.Outcome State Fault Refusal :=
  runCommand s do
    let a ← readF s ra
    let b ← readF s rb
    require (decide (a.mag + b.mag ≤ 32)) .magnitude
    return s.writeF rd (.ofLimbs (addLimbs a.limbs b.limbs) (a.mag + b.mag) false)

/-- `NEG rd, ra, m` (R131). -/
def execNeg (rd ra : FieldIx) (m : BitVec 12) (s : State) : Host.Outcome State Fault Refusal :=
  runCommand s do
    requireImm m 31
    let a ← readF s ra
    require (decide (a.mag ≤ m.toNat)) .magnitude
    return s.writeF rd (.ofLimbs (negLimbs m.toNat a.limbs) (m.toNat + 1) false)

/-- `MULINT rd, ra, a` (R132). -/
def execMulint (rd ra : FieldIx) (a : BitVec 12) (s : State) : Host.Outcome State Fault Refusal :=
  runCommand s do
    requireImm a 32
    let x ← readF s ra
    require (decide (a.toNat * x.mag ≤ 32)) .magnitude
    return s.writeF rd (.ofLimbs (scaleLimbs a.toNat x.limbs) (x.mag * a.toNat) false)

/-- `CMOV rd, ra, flag` (R133): both registers are read, rd first, whatever the flag. -/
def execCmov (rd ra : FieldIx) (flag : BitVec 12) (s : State) : Host.Outcome State Fault Refusal :=
  runCommand s do
    requireImm flag 1
    let d ← readF s rd
    let a ← readF s ra
    return s.writeF rd (if flag = 1 then a else d)

/-- `MOV rd, ra` (R134): F[rd] is not read. -/
def execMov (rd ra : FieldIx) (s : State) : Host.Outcome State Fault Refusal :=
  runCommand s do
    let a ← readF s ra
    return s.writeF rd a

/-- `SETINT rd, imm` (R135). -/
def execSetint (rd : FieldIx) (imm : BitVec 12) (s : State) : Host.Outcome State Fault Refusal :=
  runCommand s (return s.writeF rd (.ofLimbs [imm.toNat, 0, 0, 0, 0, 0, 0, 0, 0, 0] 1 true))

/-- `CLEAR rd` (R136). -/
def execClear (rd : FieldIx) (s : State) : Host.Outcome State Fault Refusal :=
  runCommand s (return s.writeF rd (.ofLimbs [0, 0, 0, 0, 0, 0, 0, 0, 0, 0] 0 true))

end Sys2Proof.Machine
end

