-- ==== Sys2Proof/Machine/Normalize.lean ====
section
/-! DEFINITION. The normalization carry chain: NORM, NORMW, NORMV, NTZ, NTZV (40_normalize.md). The arithmetic is exact
on naturals (R100). -/

namespace Sys2Proof.Machine

/-- The carry pass "for i = 0 .. 8" of R101, entered with the carry `c`: each limb but the last keeps its low 26 bits
and hands the rest to the next limb. -/
def carryFrom (c : Nat) : List Nat → List Nat
  | [] => []
  | [t] => [t + c]
  | t :: u :: ts => ((t + c) &&& M26) :: carryFrom ((t + c) >>> 26) (u :: ts)

/-- Adding x·0x1000003D1 to limbs 0 and 1 (R101, R103): x·0x3D1 at position 0 and x·2^6 at position 1. -/
def addFold (x : Nat) (n : List Nat) : List Nat :=
  [lim n 0 + x * 0x3D1, lim n 1 + (x <<< 6), lim n 2, lim n 3, lim n 4, lim n 5, lim n 6, lim n 7, lim n 8, lim n 9]

/-- Masking limb 9 to 22 bits (R101, R103). -/
def maskTop (n : List Nat) : List Nat :=
  [lim n 0, lim n 1, lim n 2, lim n 3, lim n 4, lim n 5, lim n 6, lim n 7, lim n 8, lim n 9 &&& M22]

/-- The bits of limb 9 at and above 2^256 folded into limbs 0 and 1: the first four lines of R101. -/
def foldTop (n : List Nat) : List Nat := addFold (lim n 9 >>> 22) (maskTop n)

/-- `WeakFold` without its second result, which is `andMid` of the first (R101). -/
def weakFold (n : List Nat) : List Nat := carryFrom 0 (foldTop n)

/-- `GePFinal`, the final-subtraction decision (R102). -/
def gePFinal (t : List Nat) : Nat :=
  (lim t 9 >>> 22) |||
    (if lim t 9 = M22 ∧ andMid t = M26 ∧ lim t 1 + 0x40 + ((lim t 0 + 0x3D1) >>> 26) > M26 then 1 else 0)

/-- The conditional subtraction of p and the second carry pass (R103), applied for x = 0 as well. -/
def finalPass (x : Nat) (t : List Nat) : List Nat := maskTop (carryFrom 0 (addFold x t))

/-- The limbs NORM writes (R103). -/
def normLimbs (n : List Nat) : List Nat := finalPass (gePFinal (weakFold n)) (weakFold n)

/-- The limbs NORMV writes (R105): the second pass only when x = 1. -/
def normvLimbs (n : List Nat) : List Nat :=
  if gePFinal (weakFold n) = 1 then finalPass 1 (weakFold n) else weakFold n

/-- The test of NTZ (R106): the folded limbs are all zero, or each equals the limb of p. The folded limbs are those of
`weakFold`: R106 interleaves the same fold and carries with the accumulation of z0 and z1. -/
def ntzLimbs (n : List Nat) : Bool :=
  let t := weakFold n
  let z0 := lim t 0 ||| lim t 1 ||| lim t 2 ||| lim t 3 ||| lim t 4 ||| lim t 5 ||| lim t 6 ||| lim t 7 ||| lim t 8
    ||| lim t 9
  let z1 := (lim t 0 ^^^ 0x3D0) &&& (lim t 1 ^^^ 0x40) &&& andMid t &&& (lim t 9 ^^^ 0x3C00000)
  z0 == 0 || z1 == M26

/-- The test of NTZV (R107): an early exit on folded limb 0, otherwise that of NTZ. -/
def ntzvLimbs (n : List Nat) : Bool :=
  let z0 := (lim n 0 + (lim n 9 >>> 22) * 0x3D1) &&& M26
  let z1 := z0 ^^^ 0x3D0
  if z0 ≠ 0 ∧ z1 ≠ M26 then false else ntzLimbs n

/-- `NORM rd, ra` (R103). -/
def execNorm (rd ra : FieldIx) (s : State) : Host.Outcome State Fault Refusal :=
  runCommand s do
    let a ← readF s ra
    return s.writeF rd (.ofLimbs (normLimbs a.limbs) 1 true)

/-- `NORMW rd, ra` (R104): the normalized flag is copied. -/
def execNormw (rd ra : FieldIx) (s : State) : Host.Outcome State Fault Refusal :=
  runCommand s do
    let a ← readF s ra
    return s.writeF rd (.ofLimbs (weakFold a.limbs) 1 a.norm)

/-- `NORMV rd, ra` (R105). -/
def execNormv (rd ra : FieldIx) (s : State) : Host.Outcome State Fault Refusal :=
  runCommand s do
    let a ← readF s ra
    return s.writeF rd (.ofLimbs (normvLimbs a.limbs) 1 true)

/-- `NTZ ra` (R106). -/
def execNtz (ra : FieldIx) (s : State) : Host.Outcome State Fault Refusal :=
  runCommand s do
    let a ← readF s ra
    return s.writeResult (boolWord (ntzLimbs a.limbs))

/-- `NTZV ra` (R107). -/
def execNtzv (ra : FieldIx) (s : State) : Host.Outcome State Fault Refusal :=
  runCommand s do
    let a ← readF s ra
    return s.writeResult (boolWord (ntzvLimbs a.limbs))

end Sys2Proof.Machine
end

