-- ==== Sys2Proof/Machine/Serialize.lean ====
section
/-! DEFINITION. Serialization: SETB32, GETB32 (41_serialization.md). -/

namespace Sys2Proof.Machine

/-- `SETB32 rd` (R120). BUF is read, F[rd] is not; on rejection only the limbs of F[rd] are written. -/
def execSetb32 (rd : FieldIx) (s : State) : Host.Outcome State Fault Refusal :=
  runCommand s
    (let n := slice26 (bval s.bufw)
    let ok := !geP n
    if ok then return (s.writeF rd (.ofLimbs n 1 true)).writeResult (boolWord ok)
    else return (s.writeLimbs rd (toLimbs n)).writeResult (boolWord ok))

/-- `GETB32 ra` (R122). -/
def execGetb32 (ra : FieldIx) (s : State) : Host.Outcome State Fault Refusal :=
  runCommand s do
    let a ← readNormalized s ra
    return s.writeBuf (toWire a.val)

end Sys2Proof.Machine
end

