-- ==== Sys2Proof/Machine/Storage.lean ====
section
/-! DEFINITION. FieldStorage packing, raw access and the invariant check: TOSTOR, FROMSTOR, SCMOV, LDSTOR, STSTOR, LDRAW,
STRAW, VERIFY (46_storage_raw.md). -/

namespace Sys2Proof.Machine

/-- `TOSTOR sd, fa` (R200). -/
def execTostor (sd : StorIx) (fa : FieldIx) (s : State) : Host.Outcome State Fault Refusal :=
  runCommand s do
    let a ← readNormalized s fa
    return s.writeS sd (toStor a.val)

/-- `FROMSTOR fd, sa` (R201): a value that is not canonical faults INVARIANT. -/
def execFromstor (fd : FieldIx) (sa : StorIx) (s : State) : Host.Outcome State Fault Refusal :=
  runCommand s do
    let sw ← readS s sa
    require (decide (sval sw < prime)) .invariant
    return s.writeF fd (.ofLimbs (slice26 (sval sw)) 1 true)

/-- `SCMOV sd, sa, flag` (R202): both registers are read, sd first, whatever the flag. -/
def execScmov (sd sa : StorIx) (flag : BitVec 12) (s : State) : Host.Outcome State Fault Refusal :=
  runCommand s do
    requireImm flag 1
    let d ← readS s sd
    let a ← readS s sa
    return s.writeS sd (if flag = 1 then a else d)

/-- LIMB[0..7] as the words of a storage register (10_state.md R43, 46_storage_raw.md R203). -/
def State.limbLow (s : State) : Vector Word 8 :=
  #v[s.limb[0], s.limb[1], s.limb[2], s.limb[3], s.limb[4], s.limb[5], s.limb[6], s.limb[7]]

/-- `LDSTOR sd` (R203): no check. -/
def execLdstor (sd : StorIx) (s : State) : Host.Outcome State Fault Refusal :=
  runCommand s (return s.writeS sd s.limbLow)

/-- `STSTOR sa` (R204). -/
def execStstor (sa : StorIx) (s : State) : Host.Outcome State Fault Refusal :=
  runCommand s do
    let sw ← readS s sa
    return s.writeLimbLow sw

/-- The record LIMB and META hold (R205). -/
def State.rawRecord (s : State) : FieldRec := { n := s.limb, mag := s.metaMag, norm := s.metaNorm }

/-- `LDRAW fd` (R205). -/
def execLdraw (fd : FieldIx) (s : State) : Host.Outcome State Fault Refusal :=
  runCommand s do
    require (verify s.rawRecord) .invariant
    return s.writeF fd s.rawRecord

/-- The word META takes for a record: mag | (norm << 8) (R206). -/
def FieldRec.metaWord (r : FieldRec) : Word := BitVec.ofNat 32 (r.mag ||| (if r.norm then 1 <<< 8 else 0))

/-- `STRAW fa` (R206): the INVARIANT check is skipped. -/
def execStraw (fa : FieldIx) (s : State) : Host.Outcome State Fault Refusal :=
  runCommand s do
    let a ← readFRaw s fa
    return (s.writeLimbBuf a.n).writeMeta a.metaWord

/-- `VERIFY fa` (R207): the INVARIANT check is skipped. -/
def execVerify (fa : FieldIx) (s : State) : Host.Outcome State Fault Refusal :=
  runCommand s do
    let a ← readFRaw s fa
    return s.writeResult (boolWord (verify a))

end Sys2Proof.Machine
end

