-- ==== Sys2Proof/Machine/Dispatch.lean ====
section
/-! DEFINITION. What each command of the opcode map (30_encoding.md R84) does: one arm per constructor. -/

namespace Sys2Proof.Machine

def exec (i : Instr) (s : State) : Host.Outcome State Fault Refusal :=
  match i with
  | .norm rd ra => Sys2Proof.Machine.execNorm rd ra s
  | .normw rd ra => Sys2Proof.Machine.execNormw rd ra s
  | .normv rd ra => Sys2Proof.Machine.execNormv rd ra s
  | .ntz ra => Sys2Proof.Machine.execNtz ra s
  | .ntzv ra => Sys2Proof.Machine.execNtzv ra s
  | .setb32 rd => Sys2Proof.Machine.execSetb32 rd s
  | .getb32 ra => Sys2Proof.Machine.execGetb32 ra s
  | .add rd ra rb => Sys2Proof.Machine.execAdd rd ra rb s
  | .neg rd ra m => Sys2Proof.Machine.execNeg rd ra m s
  | .mulint rd ra a => Sys2Proof.Machine.execMulint rd ra a s
  | .cmov rd ra flag => Sys2Proof.Machine.execCmov rd ra flag s
  | .mov rd ra => Sys2Proof.Machine.execMov rd ra s
  | .setint rd imm => Sys2Proof.Machine.execSetint rd imm s
  | .clear rd => Sys2Proof.Machine.execClear rd s
  | .mul rd ra rb => Sys2Proof.Machine.execMul rd ra rb s
  | .sqr rd ra => Sys2Proof.Machine.execSqr rd ra s
  | .inv rd ra => Sys2Proof.Machine.execInv rd ra s
  | .invv rd ra => Sys2Proof.Machine.execInvv rd ra s
  | .sqrt rd ra => Sys2Proof.Machine.execSqrt rd ra s
  | .isqv ra => Sys2Proof.Machine.execIsqv ra s
  | .cmpv ra rb => Sys2Proof.Machine.execCmpv ra rb s
  | .eq ra rb => Sys2Proof.Machine.execEq ra rb s
  | .eqv ra rb => Sys2Proof.Machine.execEqv ra rb s
  | .tostor sd fa => Sys2Proof.Machine.execTostor sd fa s
  | .fromstor fd sa => Sys2Proof.Machine.execFromstor fd sa s
  | .scmov sd sa flag => Sys2Proof.Machine.execScmov sd sa flag s
  | .ldstor sd => Sys2Proof.Machine.execLdstor sd s
  | .ststor sa => Sys2Proof.Machine.execStstor sa s
  | .ldraw fd => Sys2Proof.Machine.execLdraw fd s
  | .straw fa => Sys2Proof.Machine.execStraw fa s
  | .verify fa => Sys2Proof.Machine.execVerify fa s

end Sys2Proof.Machine
end

