-- ==== Sys2Proof/Machine/Cycle.lean ====
section
/-! DEFINITION. The command cycle: execution and completion, latency, acceptance of a command word, host writes and the
other events of a cycle (60_exceptions.md R220–R227, 70_reset_and_hazards.md R250, R256). -/

namespace Sys2Proof.Machine

/-! ## Execution -/

/-- `Execute(w)` (60_exceptions.md R220): decode, then the command's rule; an illegal word faults (30_encoding.md R85,
R86). -/
def execute (w : Word) (s : State) : Host.Outcome State Fault Refusal :=
  match decode w with
  | .command i => exec i s
  | .illegalOp => .next (takeFault .illegalOp s)
  | .illegalField => .next (takeFault .illegalField s)

/-- Completion (60_exceptions.md R220): the latch becomes empty, so BUSY becomes 0. -/
def complete (s : State) : State := { s with cur := none, left := 0 }

/-- Execution and completion at one instant (60_exceptions.md R220). -/
def executeAndComplete (w : Word) (s : State) : Host.Outcome State Fault Refusal :=
  match execute w s with
  | .next t => .next (complete t)
  | .fault r => .fault r
  | .refused r => .refused r

/-! ## Latency -/

/-- The command would raise a fault on this state (70_reset_and_hazards.md R256: "a faulting command"). -/
def commandFaults (i : Instr) (s : State) : Bool :=
  match exec i (clearFault s) with
  | .next t => t.fault
  | .fault _ => false
  | .refused _ => false

/-- The operand values on which the latency of a variable-time command may depend (70_reset_and_hazards.md R256). -/
def variableOperands (i : Instr) (s : State) : List FieldRec :=
  match i with
  | .norm _ _ => []
  | .normw _ _ => []
  | .normv _ ra => [s.freg[ra].toFieldRec]
  | .ntz _ => []
  | .ntzv ra => [s.freg[ra].toFieldRec]
  | .setb32 _ => []
  | .getb32 _ => []
  | .add _ _ _ => []
  | .neg _ _ _ => []
  | .mulint _ _ _ => []
  | .cmov _ _ _ => []
  | .mov _ _ => []
  | .setint _ _ => []
  | .clear _ => []
  | .mul _ _ _ => []
  | .sqr _ _ => []
  | .inv _ _ => []
  | .invv _ ra => [s.freg[ra].toFieldRec]
  | .sqrt _ _ => []
  | .isqv ra => [s.freg[ra].toFieldRec]
  | .cmpv ra rb => [s.freg[ra].toFieldRec, s.freg[rb].toFieldRec]
  | .eq _ _ => []
  | .eqv ra rb => [s.freg[ra].toFieldRec, s.freg[rb].toFieldRec]
  | .tostor _ _ => []
  | .fromstor _ _ => []
  | .scmov _ _ _ => []
  | .ldstor _ => []
  | .ststor _ => []
  | .ldraw _ => []
  | .straw _ => []
  | .verify _ => []

/-- `LAT(w, state)`, at least 1 (70_reset_and_hazards.md R256). -/
def latency (w : Word) (s : State) : Nat :=
  1 + match decode w with
    | .command i =>
      if commandFaults i s then Config.latencyFault w s
      else if i.constantTime then Config.latencyCT (opField w)
      else Config.latencyVar (opField w) (variableOperands i s)
    | .illegalOp => Config.latencyFault w s
    | .illegalField => Config.latencyFault w s

/-- A command word is latched, and its `LAT` cycles begin (60_exceptions.md R220). -/
def accept (w : Word) (s : State) : State := { s with cur := some w, left := latency w s - 1 }

/-! ## Host accesses -/

/-- A host write that is not an overrun: CMD issues a command, or is discarded while FAULT = 1 (60_exceptions.md R220,
R224); CTRL.FCLR clears the fault (R225); the buffers take the word; read-only registers and reserved offsets ignore it
(20_memory.md R63, R64). -/
def writeReg (r : BusReg) (v : Word) (s : State) : State :=
  match r with
  | .cmd => if s.fault then s else accept v s
  | .status => s
  | .faultcmd => s
  | .ctrl => if v.getLsbD 0 then clearFault s else s
  | .result => s
  | .bufw j => { s with bufw := s.bufw.set j v }
  | .limb i => { s with limb := s.limb.set i v }
  | .metaw => s.writeMeta v
  | .reserved => s

/-- `BusWrite(off, v)`: an overrun (60_exceptions.md R227) is dropped and recorded, any other write has its effect. -/
def busWrite (off : Nat) (v : Word) (s : State) : State :=
  if s.busy && (busReg off).lockedWhileBusy then takeFault .overrun s else writeReg (busReg off) v s

/-- The reset event (70_reset_and_hazards.md R250): every piece of the unit's state takes its reset value; a command in
flight is abandoned. What the model holds of the surroundings stays (log 15). -/
def resetEvent (s : State) : State :=
  { State.reset with host := s.host, rdata := s.rdata, draws := s.draws }

/-- What one event of the outside does. `s.host` holds the events after it. -/
def hostEvent (e : HostEvent) (s : State) : Host.Outcome State Fault Refusal :=
  match e with
  | .idle => .next s
  | .read off width => access off width (busRead off s)
  | .write off width v => access off width (busWrite off v s)
  | .wait =>
    let t := busRead 0x004 s
    .next (if s.busy then { t with host := .wait :: t.host } else t)
  | .reset => .next (resetEvent s)
  | .accessFromBelow => .refused .accessOutsideContract
  | .accessInReset => .refused .accessDuringReset

/-- A cycle in which no command completes: at most one event of the outside (log 2, 3). -/
def hostCycle (s : State) : Host.Outcome State Fault Refusal :=
  match s.host with
  | [] => .next s
  | e :: rest => hostEvent e { s with host := rest }

/-- One cycle of the unit (60_exceptions.md R220): the command in the latch completes when its `LAT` cycles have passed;
until then, and while the latch is empty, the cycle is the host's (log 3). -/
def cycle (s : State) : Host.Outcome State Fault Refusal :=
  match s.cur, s.left with
  | some w, 0 => executeAndComplete w s
  | some _, k + 1 => hostCycle { s with left := k }
  | none, _ => hostCycle s

end Sys2Proof.Machine
end

