-- ==== Sys2Proof/Machine/Step.lean ====
section
/-! DEFINITION. One step of the machine, and the placing of a command word where the next step takes it from. -/

namespace Sys2Proof.Machine

/-- One step: one cycle of the unit (60_exceptions.md R220). -/
def step (s : State) : Host.Outcome State Fault Refusal := cycle s

/-- The state with a command word in the latch CUR and no cycle left to wait: the very next step executes it. It stands
for the host's write of CMD and the cycles of its `LAT` (60_exceptions.md R220; log 10). -/
def State.withFetchWord (s : State) (nbits w : Nat) : State := { s with cur := some (tableWord nbits w), left := 0 }

end Sys2Proof.Machine
end

