-- ==== Sys2Proof/Safety.lean ====
section
/-! DEFINITION. The terms in which claims speak of good states: readable operands, the invariants of the architecture,
what commands read and write, what the bus does, and what no host can observe. -/

namespace Sys2Proof.Machine

/-- F[i] can be a source operand: it is written and its record satisfies `Verify` (10_state.md R36). -/
abbrev State.readable (s : State) (i : FieldIx) : Prop :=
  s.freg[i].w = true ∧ verify s.freg[i].toFieldRec = true

/-- F[i] can be a factor: it is readable and its magnitude is at most 8 (43_multiply.md R153, R154, 44_chains.md). -/
abbrev State.factor (s : State) (i : FieldIx) : Prop := s.readable i ∧ s.freg[i].mag ≤ 8

/-- A record whose limbs are the canonical representative, magnitude 1 and normalized: what the spec calls the result of
a full reduction (10_state.md R32, 40_normalize.md R103). -/
abbrev FieldRec.canonical (r : FieldRec) : Prop :=
  (∀ i < 9, lim r.limbs i ≤ M26) ∧ lim r.limbs 9 ≤ M22 ∧ r.val < prime ∧ r.mag = 1 ∧ r.norm = true

/-- The state `s` after `F[i] <- r` and nothing else. -/
abbrev State.afterF (s : State) (i : FieldIx) (r : FieldRec) : State :=
  { s with freg := s.freg.set i { toFieldRec := r, w := true } }

/-- The state `s` after `S[j] <- sw` and nothing else. -/
abbrev State.afterS (s : State) (j : StorIx) (sw : Vector Word 8) : State :=
  { s with sreg := s.sreg.set j { sw := sw, w := true } }

/-- The state `s` after a fault of code `k` was recorded and nothing else (60_exceptions.md R221, R226). FAULTCMD takes
the word in the latch; that it takes 0 from an empty one is the model's choice (log 12). -/
abbrev State.afterFault (s : State) (k : BitVec 4) : State :=
  if s.fault then s else { s with fault := true, fcode := k, faultcmd := s.cur.getD 0 }

/-- FCODE and FAULTCMD are 0 while FAULT = 0, and a recorded code is one of 1 to 7 (10_state.md R46, R47,
60_exceptions.md R222). -/
abbrev State.statusOk (s : State) : Prop :=
  (s.fault = false → s.fcode = 0 ∧ s.faultcmd = 0) ∧ (s.fault = true → 1 ≤ s.fcode.toNat ∧ s.fcode.toNat ≤ 7)

/-- The bits of META but MAG and NORM read as 0 (10_state.md R44). -/
abbrev State.metaOk (s : State) : Prop := s.metaw &&& 0x13F = s.metaw

/-- Every register's magnitude is at most 32, and at most 1 when the normalized flag is set (10_state.md R34,
46_storage_raw.md R206). -/
abbrev State.magnitudesOk (s : State) : Prop :=
  ∀ i : FieldIx, s.freg[i].mag ≤ 32 ∧ (s.freg[i].norm = true → s.freg[i].mag ≤ 1)

/-- With an empty latch no cycles are being counted (60_exceptions.md R220). -/
abbrev State.latchOk (s : State) : Prop := s.cur = none → s.left = 0

/-- The invariant of the architecture. -/
abbrev State.inv (s : State) : Prop := s.statusOk ∧ s.metaOk ∧ s.magnitudesOk ∧ s.latchOk

/-- Every written field register satisfies `Verify` (10_state.md R53). -/
abbrev State.registersVerified (s : State) : Prop :=
  ∀ i : FieldIx, s.freg[i].w = true → verify s.freg[i].toFieldRec = true

/-- Two states that differ at most in what unwritten registers hold (10_state.md R31, R38; 93_implementation_defined.md
S4). -/
abbrev State.sameWritten (s t : State) : Prop :=
  (∀ i : FieldIx, s.freg[i].w = t.freg[i].w ∧ (s.freg[i].w = true → s.freg[i] = t.freg[i])) ∧
  (∀ j : StorIx, s.sreg[j].w = t.sreg[j].w ∧ (s.sreg[j].w = true → s.sreg[j] = t.sreg[j])) ∧
  t = { s with freg := t.freg, sreg := t.sreg }

/-! ## What a command reads and writes (30_encoding.md R84 and the family files) -/

/-- The field registers the command reads with the UNWRITTEN and the INVARIANT check, in the order of its pseudocode
(10_state.md R36, 60_exceptions.md R223). -/
def fieldSources : Instr → List FieldIx
  | .norm _ ra | .normw _ ra | .normv _ ra | .ntz ra | .ntzv ra => [ra]
  | .setb32 _ => []
  | .getb32 ra => [ra]
  | .add _ ra rb => [ra, rb]
  | .neg _ ra _ | .mulint _ ra _ => [ra]
  | .cmov rd ra _ => [rd, ra]
  | .mov _ ra => [ra]
  | .setint _ _ | .clear _ => []
  | .mul _ ra rb => [ra, rb]
  | .sqr _ ra | .inv _ ra | .invv _ ra | .sqrt _ ra | .isqv ra => [ra]
  | .cmpv ra rb | .eq ra rb | .eqv ra rb => [ra, rb]
  | .tostor _ fa => [fa]
  | .fromstor _ _ | .scmov _ _ _ | .ldstor _ | .ststor _ | .ldraw _ | .straw _ | .verify _ => []

/-- The field register the command reads with the UNWRITTEN check alone (46_storage_raw.md R206, R207). -/
def rawSource : Instr → Option FieldIx
  | .straw fa | .verify fa => some fa
  | .norm _ _ | .normw _ _ | .normv _ _ | .ntz _ | .ntzv _ | .setb32 _ | .getb32 _ | .add _ _ _ | .neg _ _ _
  | .mulint _ _ _ | .cmov _ _ _ | .mov _ _ | .setint _ _ | .clear _ | .mul _ _ _ | .sqr _ _ | .inv _ _ | .invv _ _
  | .sqrt _ _ | .isqv _ | .cmpv _ _ | .eq _ _ | .eqv _ _ | .tostor _ _ | .fromstor _ _ | .scmov _ _ _ | .ldstor _
  | .ststor _ | .ldraw _ => none

/-- The storage registers the command reads, in the order of its pseudocode (10_state.md R39, 60_exceptions.md R223). -/
def storSources : Instr → List StorIx
  | .fromstor _ sa | .ststor sa => [sa]
  | .scmov sd sa _ => [sd, sa]
  | .norm _ _ | .normw _ _ | .normv _ _ | .ntz _ | .ntzv _ | .setb32 _ | .getb32 _ | .add _ _ _ | .neg _ _ _
  | .mulint _ _ _ | .cmov _ _ _ | .mov _ _ | .setint _ _ | .clear _ | .mul _ _ _ | .sqr _ _ | .inv _ _ | .invv _ _
  | .sqrt _ _ | .isqv _ | .cmpv _ _ | .eq _ _ | .eqv _ _ | .tostor _ _ | .ldstor _ | .ldraw _ | .straw _
  | .verify _ => []

/-- The field register the command may write. -/
def fieldDest : Instr → Option FieldIx
  | .norm rd _ | .normw rd _ | .normv rd _ | .setb32 rd | .add rd _ _ | .neg rd _ _ | .mulint rd _ _ | .cmov rd _ _
  | .mov rd _ | .setint rd _ | .clear rd | .mul rd _ _ | .sqr rd _ | .inv rd _ | .invv rd _ | .sqrt rd _
  | .fromstor rd _ | .ldraw rd => some rd
  | .ntz _ | .ntzv _ | .getb32 _ | .isqv _ | .cmpv _ _ | .eq _ _ | .eqv _ _ | .tostor _ _ | .scmov _ _ _ | .ldstor _
  | .ststor _ | .straw _ | .verify _ => none

/-- The storage register the command may write. -/
def storDest : Instr → Option StorIx
  | .tostor sd _ | .scmov sd _ _ | .ldstor sd => some sd
  | .norm _ _ | .normw _ _ | .normv _ _ | .ntz _ | .ntzv _ | .setb32 _ | .getb32 _ | .add _ _ _ | .neg _ _ _
  | .mulint _ _ _ | .cmov _ _ _ | .mov _ _ | .setint _ _ | .clear _ | .mul _ _ _ | .sqr _ _ | .inv _ _ | .invv _ _
  | .sqrt _ _ | .isqv _ | .cmpv _ _ | .eq _ _ | .eqv _ _ | .fromstor _ _ | .ststor _ | .ldraw _ | .straw _
  | .verify _ => none

/-- The commands that write RESULT (10_state.md R45). -/
def writesResult : Instr → Bool
  | .ntz _ | .ntzv _ | .setb32 _ | .sqrt _ _ | .isqv _ | .cmpv _ _ | .eq _ _ | .eqv _ _ | .verify _ => true
  | .norm _ _ | .normw _ _ | .normv _ _ | .getb32 _ | .add _ _ _ | .neg _ _ _ | .mulint _ _ _ | .cmov _ _ _ | .mov _ _
  | .setint _ _ | .clear _ | .mul _ _ _ | .sqr _ _ | .inv _ _ | .invv _ _ | .tostor _ _ | .fromstor _ _ | .scmov _ _ _
  | .ldstor _ | .ststor _ | .ldraw _ | .straw _ => false

/-! ## Cycles and the bus -/

/-- In its next cycle the unit takes an event of the outside: no command completes in it (log 3). -/
abbrev State.takesEvent (s : State) : Prop := s.cur = none ∨ 0 < s.left

/-- The state when the event at the head of `host` has been taken and has not yet acted: `rest` is left, and the cycle
counts for a command in flight. -/
abbrev State.afterEvent (s : State) (rest : List HostEvent) : State :=
  { s with host := rest, left := if s.cur = none then s.left else s.left - 1 }

/-- An offset of the window at which a host access is specified (20_memory.md R60, R62). -/
abbrev legalOffset (off : Nat) : Prop := off < 256 ∧ off % 4 = 0

/-- The reserved offsets of the window (20_memory.md R61). -/
abbrev reservedOffset (off : Nat) : Prop := legalOffset off ∧ (0x014 ≤ off ∧ off ≤ 0x03C ∨ 0x08C ≤ off)

/-- The offsets of CMD, BUFW, LIMB and META, whose writes overrun while BUSY = 1 (20_memory.md R61, R64). -/
abbrev lockedOffset (off : Nat) : Prop := legalOffset off ∧ (off = 0x000 ∨ 0x040 ≤ off ∧ off ≤ 0x088)

/-- Byte b[k] of a buffer, b[0] most significant (10_state.md R42). -/
def bufByte (b : Vector Word 8) (k : Fin 32) : Nat :=
  (b[k.val / 4]'(by omega)).toNat / 2 ^ (24 - 8 * (k.val % 4)) % 256

/-- The bits [hi:lo] of a number (00_scope.md R11). -/
def bits (v hi lo : Nat) : Nat := v / 2 ^ lo % 2 ^ (hi - lo + 1)

/-- The table of 41_serialization.md R121, formula and bit ranges of every row: the limbs `n` that SETB32 makes of the
wire bytes `b`. -/
def setbTable (b : Fin 32 → Nat) (n : List Nat) : Prop :=
  lim n 0 = b 31 + (b 30 <<< 8) + (b 29 <<< 16) + ((b 28 &&& 0x3) <<< 24) ∧ bits (lim n 0) 7 0 = bits (b 31) 7 0 ∧
  bits (lim n 0) 15 8 = bits (b 30) 7 0 ∧ bits (lim n 0) 23 16 = bits (b 29) 7 0 ∧
  bits (lim n 0) 25 24 = bits (b 28) 1 0 ∧
  lim n 1 = ((b 28 >>> 2) &&& 0x3F) + (b 27 <<< 6) + (b 26 <<< 14) + ((b 25 &&& 0xF) <<< 22) ∧
  bits (lim n 1) 5 0 = bits (b 28) 7 2 ∧ bits (lim n 1) 13 6 = bits (b 27) 7 0 ∧
  bits (lim n 1) 21 14 = bits (b 26) 7 0 ∧ bits (lim n 1) 25 22 = bits (b 25) 3 0 ∧
  lim n 2 = ((b 25 >>> 4) &&& 0xF) + (b 24 <<< 4) + (b 23 <<< 12) + ((b 22 &&& 0x3F) <<< 20) ∧
  bits (lim n 2) 3 0 = bits (b 25) 7 4 ∧ bits (lim n 2) 11 4 = bits (b 24) 7 0 ∧
  bits (lim n 2) 19 12 = bits (b 23) 7 0 ∧ bits (lim n 2) 25 20 = bits (b 22) 5 0 ∧
  lim n 3 = ((b 22 >>> 6) &&& 0x3) + (b 21 <<< 2) + (b 20 <<< 10) + (b 19 <<< 18) ∧
  bits (lim n 3) 1 0 = bits (b 22) 7 6 ∧ bits (lim n 3) 9 2 = bits (b 21) 7 0 ∧
  bits (lim n 3) 17 10 = bits (b 20) 7 0 ∧ bits (lim n 3) 25 18 = bits (b 19) 7 0 ∧
  lim n 4 = b 18 + (b 17 <<< 8) + (b 16 <<< 16) + ((b 15 &&& 0x3) <<< 24) ∧ bits (lim n 4) 7 0 = bits (b 18) 7 0 ∧
  bits (lim n 4) 15 8 = bits (b 17) 7 0 ∧ bits (lim n 4) 23 16 = bits (b 16) 7 0 ∧
  bits (lim n 4) 25 24 = bits (b 15) 1 0 ∧
  lim n 5 = ((b 15 >>> 2) &&& 0x3F) + (b 14 <<< 6) + (b 13 <<< 14) + ((b 12 &&& 0xF) <<< 22) ∧
  bits (lim n 5) 5 0 = bits (b 15) 7 2 ∧ bits (lim n 5) 13 6 = bits (b 14) 7 0 ∧
  bits (lim n 5) 21 14 = bits (b 13) 7 0 ∧ bits (lim n 5) 25 22 = bits (b 12) 3 0 ∧
  lim n 6 = ((b 12 >>> 4) &&& 0xF) + (b 11 <<< 4) + (b 10 <<< 12) + ((b 9 &&& 0x3F) <<< 20) ∧
  bits (lim n 6) 3 0 = bits (b 12) 7 4 ∧ bits (lim n 6) 11 4 = bits (b 11) 7 0 ∧
  bits (lim n 6) 19 12 = bits (b 10) 7 0 ∧ bits (lim n 6) 25 20 = bits (b 9) 5 0 ∧
  lim n 7 = ((b 9 >>> 6) &&& 0x3) + (b 8 <<< 2) + (b 7 <<< 10) + (b 6 <<< 18) ∧
  bits (lim n 7) 1 0 = bits (b 9) 7 6 ∧ bits (lim n 7) 9 2 = bits (b 8) 7 0 ∧
  bits (lim n 7) 17 10 = bits (b 7) 7 0 ∧ bits (lim n 7) 25 18 = bits (b 6) 7 0 ∧
  lim n 8 = b 5 + (b 4 <<< 8) + (b 3 <<< 16) + ((b 2 &&& 0x3) <<< 24) ∧ bits (lim n 8) 7 0 = bits (b 5) 7 0 ∧
  bits (lim n 8) 15 8 = bits (b 4) 7 0 ∧ bits (lim n 8) 23 16 = bits (b 3) 7 0 ∧
  bits (lim n 8) 25 24 = bits (b 2) 1 0 ∧ lim n 9 = ((b 2 >>> 2) &&& 0x3F) + (b 1 <<< 6) + (b 0 <<< 14) ∧
  bits (lim n 9) 5 0 = bits (b 2) 7 2 ∧ bits (lim n 9) 13 6 = bits (b 1) 7 0 ∧
  bits (lim n 9) 21 14 = bits (b 0) 7 0

/-- The table of 41_serialization.md R123: the wire bytes `b` that GETB32 makes of the limbs `n`. -/
def getbTable (n : List Nat) (b : Fin 32 → Nat) : Prop :=
  bits (b 0) 7 0 = bits (lim n 9) 21 14 ∧ bits (b 1) 7 0 = bits (lim n 9) 13 6 ∧
  bits (b 2) 7 2 = bits (lim n 9) 5 0 ∧ bits (b 2) 1 0 = bits (lim n 8) 25 24 ∧
  bits (b 3) 7 0 = bits (lim n 8) 23 16 ∧ bits (b 4) 7 0 = bits (lim n 8) 15 8 ∧
  bits (b 5) 7 0 = bits (lim n 8) 7 0 ∧ bits (b 6) 7 0 = bits (lim n 7) 25 18 ∧
  bits (b 7) 7 0 = bits (lim n 7) 17 10 ∧ bits (b 8) 7 0 = bits (lim n 7) 9 2 ∧
  bits (b 9) 7 6 = bits (lim n 7) 1 0 ∧ bits (b 9) 5 0 = bits (lim n 6) 25 20 ∧
  bits (b 10) 7 0 = bits (lim n 6) 19 12 ∧ bits (b 11) 7 0 = bits (lim n 6) 11 4 ∧
  bits (b 12) 7 4 = bits (lim n 6) 3 0 ∧ bits (b 12) 3 0 = bits (lim n 5) 25 22 ∧
  bits (b 13) 7 0 = bits (lim n 5) 21 14 ∧ bits (b 14) 7 0 = bits (lim n 5) 13 6 ∧
  bits (b 15) 7 2 = bits (lim n 5) 5 0 ∧ bits (b 15) 1 0 = bits (lim n 4) 25 24 ∧
  bits (b 16) 7 0 = bits (lim n 4) 23 16 ∧ bits (b 17) 7 0 = bits (lim n 4) 15 8 ∧
  bits (b 18) 7 0 = bits (lim n 4) 7 0 ∧ bits (b 19) 7 0 = bits (lim n 3) 25 18 ∧
  bits (b 20) 7 0 = bits (lim n 3) 17 10 ∧ bits (b 21) 7 0 = bits (lim n 3) 9 2 ∧
  bits (b 22) 7 6 = bits (lim n 3) 1 0 ∧ bits (b 22) 5 0 = bits (lim n 2) 25 20 ∧
  bits (b 23) 7 0 = bits (lim n 2) 19 12 ∧ bits (b 24) 7 0 = bits (lim n 2) 11 4 ∧
  bits (b 25) 7 4 = bits (lim n 2) 3 0 ∧ bits (b 25) 3 0 = bits (lim n 1) 25 22 ∧
  bits (b 26) 7 0 = bits (lim n 1) 21 14 ∧ bits (b 27) 7 0 = bits (lim n 1) 13 6 ∧
  bits (b 28) 7 2 = bits (lim n 1) 5 0 ∧ bits (b 28) 1 0 = bits (lim n 0) 25 24 ∧
  bits (b 29) 7 0 = bits (lim n 0) 23 16 ∧ bits (b 30) 7 0 = bits (lim n 0) 15 8 ∧
  bits (b 31) 7 0 = bits (lim n 0) 7 0

/-- A read at offset `off`, with `rest` to come after it, takes the state `s` to `t`. -/
abbrev State.readGives (s : State) (off : Nat) (rest : List HostEvent) (t : State) : Prop :=
  step { s with host := .read off 4 :: rest } = .next t

/-- A write of `v` at offset `off`, with `rest` to come after it, takes the state `s` to `t`. -/
abbrev State.writeGives (s : State) (off : Nat) (v : Word) (rest : List HostEvent) (t : State) : Prop :=
  step { s with host := .write off 4 v :: rest } = .next t

end Sys2Proof.Machine
end

