-- ==== Sys2Proof/Certificates/Slice0/Obligations.lean ====
section
/-! DEFINITION. The statements for the provers: what the commands and the unit do, from the numbered rules of spec/.
Notes common to them. `s.afterF rd r`, `s.afterS sd sw` and `s.afterFault k` are `s` with that one effect and nothing
else, so that a statement with one of them (or with a record update of `s`) as its conclusion is the whole frame too.
The fields `host`, `rdata`, `draws` and the counting of `left` are the model's own (logs 2, 3, 5, 6). -/

open Sys2Proof Sys2Proof.Machine

/-! ## Encoding (30_encoding.md) -/

/-- Every well-formed command is read back from its encoding (R80–R84, R86). -/
def Obligations.DecodeOfEncode : Prop :=
  ∀ i : Instr, i.wellFormed = true → decode (encode i) = .command i

/-- A word that decodes to a command is that command's encoding, and the command is well-formed (R83, R86). -/
def Obligations.DecodedWordIsEncoding : Prop :=
  ∀ (w : Word) (i : Instr), decode w = .command i → encode i = w ∧ i.wellFormed = true

/-- A word is ILLEGAL_OP exactly when no command has its OP, and ILLEGAL_FIELD exactly when some command has its OP but
no well-formed command is encoded by it (R85, R86). -/
def Obligations.IllegalWordsClassified : Prop :=
  ∀ w : Word,
    (decode w = .illegalOp ↔ ∀ i : Instr, opField (encode i) ≠ opField w) ∧
    (decode w = .illegalField ↔
      (∃ i : Instr, opField (encode i) = opField w) ∧ ∀ i : Instr, i.wellFormed = true → encode i ≠ w)

/-- The examples of R87 decode to what R87 says; 225 of the 256 OP values are reserved, 0x00 and 0xFF among them (R85);
a nonzero unused field and an immediate out of range are illegal (R82, R83). -/
def Obligations.SampleWordsDecode : Prop :=
  decode 0x40201000 = .command (.mul 2 0 1) ∧ decode 0x31310001 = .command (.neg 3 1 1) ∧
  decode 0x35000005 = .command (.setint 0 5) ∧ decode 0x61012000 = .command (.eq 1 2) ∧
  decode 0x13040000 = .command (.ntz 4) ∧ decode 0x20700000 = .command (.setb32 7) ∧
  decode 0x00000000 = .illegalOp ∧ decode 0xFF000000 = .illegalOp ∧
  ((List.range 256).filter fun op => decode (BitVec.ofNat 32 (op * 2 ^ 24)) = .illegalOp).length = 225 ∧
  decode 0x41101000 = .illegalField ∧ decode 0x31310020 = .illegalField ∧ decode 0x33120002 = .illegalField

/-! ## The step (60_exceptions.md R220) -/

/-- A command word in the latch whose cycles have passed is executed and the latch is emptied; `withFetchWord` puts a
word there. That the completion is a step of its own is the model's choice (log 3). -/
def Obligations.StepRunsDecodedCommand : Prop :=
  (∀ (s : State) (w : Word) (i : Instr), s.cur = some w → s.left = 0 → decode w = .command i →
    ∃ t, exec i s = .next t ∧ step s = .next { t with cur := none, left := 0 }) ∧
  (∀ (s : State) (nbits w : Nat) (i : Instr), decodeTableWord nbits w = some i →
    ∃ t, exec i (s.withFetchWord nbits w) = .next t ∧
      step (s.withFetchWord nbits w) = .next { t with cur := none, left := 0 })

/-- An illegal word in the latch writes nothing and leaves the latch; with no fault recorded it faults with its code, and
with one recorded (an OVERRUN while it was in flight) it leaves STATUS.FAULT, FCODE and FAULTCMD as they are
(30_encoding.md R85, R221, R222, R226). -/
def Obligations.IllegalWordsFault : Prop :=
  ∀ (s : State) (w : Word), s.cur = some w → s.left = 0 →
    (decode w = .illegalOp →
      step s = .next (if s.fault then { s with cur := none, left := 0 }
        else { s with fault := true, fcode := 1, faultcmd := w, cur := none, left := 0 })) ∧
    (decode w = .illegalField →
      step s = .next (if s.fault then { s with cur := none, left := 0 }
        else { s with fault := true, fcode := 2, faultcmd := w, cur := none, left := 0 }))

/-! ## Invariants -/

/-- Every step keeps the invariant of the architecture: FCODE and FAULTCMD are 0 without a fault and FCODE is 1 to 7 with
one (10_state.md R46, R47, 60_exceptions.md R222), the unused bits of META read 0 (R44), every magnitude is at most 32 and
at most 1 under the normalized flag (R34, 46_storage_raw.md R206), an empty latch counts no cycles (log 3). -/
def Obligations.StepKeepsInvariant : Prop :=
  ∀ s t : State, s.inv → step s = .next t → t.inv

/-- The state after reset meets both invariants. The clauses on FCODE, FAULTCMD and META follow from the values the spec
gives for reset (10_state.md R52). No register is written then, so `registersVerified` asks nothing of one, and the
clause on magnitudes speaks of the placeholders alone that the model put into unwritten registers (log 1); the clause on
the latch speaks of the model's counter (log 3). -/
def Obligations.ResetMeetsInvariants : Prop := State.reset.inv ∧ State.reset.registersVerified

/-- Every step keeps every written field register within `Verify`, but for the completion of a SETB32 that rejects its
value (10_state.md R53). -/
def Obligations.StepKeepsRegistersVerified : Prop :=
  ∀ s t : State, s.registersVerified →
    ¬(s.left = 0 ∧ prime ≤ bval s.bufw ∧ ∃ rd : FieldIx, s.cur = some (encode (.setb32 rd))) →
    step s = .next t → t.registersVerified

/-- The value of every piece of state after reset (10_state.md R52): no register is written, and reading one faults
UNWRITTEN; the buffers, RESULT, STATUS and FAULTCMD are 0; the latch is empty. -/
def Obligations.ResetState : Prop :=
  (∀ i : FieldIx, State.reset.freg[i].w = false ∧ readF State.reset i = .error .unwritten ∧
    readFRaw State.reset i = .error .unwritten) ∧
  (∀ j : StorIx, State.reset.sreg[j].w = false ∧ readS State.reset j = .error .unwritten) ∧
  (∀ j : Fin 8, State.reset.bufw[j] = 0) ∧ (∀ i : Fin 10, State.reset.limb[i] = 0) ∧ State.reset.metaw = 0 ∧
  State.reset.result = 0 ∧ State.reset.statusWord = 0 ∧ State.reset.busy = false ∧ State.reset.fault = false ∧
  State.reset.fcode = 0 ∧ State.reset.faultcmd = 0 ∧ State.reset.cur = none

/-- The reset event puts every piece of the unit's state at its reset value, a command in flight is abandoned
(70_reset_and_hazards.md R250). R250 and 10_state.md R52 leave what the unwritten registers hold unspecified: that the
equation puts 0 there is the model's choice (log 1). So is that the event lands in a cycle of its own, that the counter is
0, and that `rdata` and `draws` stay (logs 3, 15). -/
def Obligations.ResetEventAbandonsCommand : Prop :=
  ∀ (s : State) (rest : List HostEvent), s.takesEvent →
    step { s with host := .reset :: rest } =
      .next { State.reset with host := rest, rdata := s.rdata, draws := s.draws }

/-! ## Normalization (40_normalize.md) -/

/-- NORM gives the canonical record of the operand's field value (R103). -/
def Obligations.NormGivesCanonical : Prop :=
  ∀ (rd ra : FieldIx) (s : State), s.readable ra →
    ∃ r : FieldRec, exec (.norm rd ra) s = .next (s.afterF rd r) ∧ r.canonical ∧ r.val = s.freg[ra].fv

/-- NORMV gives what NORM gives, in every state, faults included (R105); on a readable operand that is the canonical
record. -/
def Obligations.NormvAgreesWithNorm : Prop :=
  ∀ (rd ra : FieldIx) (s : State), exec (.normv rd ra) s = exec (.norm rd ra) s ∧
    (s.readable ra →
      ∃ r : FieldRec, exec (.normv rd ra) s = .next (s.afterF rd r) ∧ r.canonical ∧ r.val = s.freg[ra].fv)

/-- NORMW writes the folded and carried limbs with magnitude 1 and the operand's normalized flag; the field value is
kept, the value is below 2^256 + 2^241, `Verify` holds, and a normalized operand keeps its limbs (R104). -/
def Obligations.NormwFoldsWeakly : Prop :=
  ∀ (rd ra : FieldIx) (s : State), s.readable ra →
    ∃ r : FieldRec, exec (.normw rd ra) s = .next (s.afterF rd r) ∧ r.limbs = weakFold s.freg[ra].limbs ∧
      r.mag = 1 ∧ r.norm = s.freg[ra].norm ∧ r.fv = s.freg[ra].fv ∧ r.val < 2 ^ 256 + 2 ^ 241 ∧ verify r = true ∧
      (s.freg[ra].norm = true → r.n = s.freg[ra].n)

/-- NTZ and NTZV write RESULT = 1 exactly when the operand's field value is 0 (R106, R107). -/
def Obligations.ZeroTestsAgreeWithValue : Prop :=
  ∀ (ra : FieldIx) (s : State), s.readable ra →
    exec (.ntz ra) s = .next { s with result := if s.freg[ra].fv = 0 then 1 else 0 } ∧
    exec (.ntzv ra) s = .next { s with result := if s.freg[ra].fv = 0 then 1 else 0 }

/-! ## Serialization (41_serialization.md) -/

/-- SETB32 loads a value below p as its canonical record with RESULT = 1; a value of at least p changes only the limbs,
to those of the value, with RESULT = 0 (R120). -/
def Obligations.SetbLoadsOrRejects : Prop :=
  ∀ (rd : FieldIx) (s : State),
    (bval s.bufw < prime →
      ∃ r : FieldRec, exec (.setb32 rd) s = .next { s.afterF rd r with result := 1 } ∧ r.canonical ∧
        r.val = bval s.bufw) ∧
    (prime ≤ bval s.bufw →
      ∃ n : Vector Word 10,
        exec (.setb32 rd) s = .next { s with freg := s.freg.set rd { s.freg[rd] with n := n }, result := 0 } ∧
        (∀ i < 9, lim (nats n) i ≤ M26) ∧ lim (nats n) 9 ≤ M22 ∧ Machine.val (nats n) = bval s.bufw)

/-- The bit provenance of the limbs SETB32 writes, accepted or rejected: every row of the table of R121. -/
def Obligations.SetbBitProvenance : Prop :=
  ∀ (rd : FieldIx) (s : State), ∃ t, exec (.setb32 rd) s = .next t ∧
    setbTable (bufByte s.bufw) t.freg[rd].limbs

/-- GETB32 writes BUF with the 32-byte big-endian encoding of a normalized operand's value (R122). -/
def Obligations.GetbWritesEncoding : Prop :=
  ∀ (ra : FieldIx) (s : State), s.readable ra → s.freg[ra].norm = true →
    ∃ b : Vector Word 8, exec (.getb32 ra) s = .next { s with bufw := b } ∧ bval b = s.freg[ra].val ∧
      ∀ k : Fin 32, bufByte b k = s.freg[ra].val / 2 ^ (8 * (31 - k.val)) % 256

/-- The byte provenance of GETB32: every row of the table of R123. -/
def Obligations.GetbByteProvenance : Prop :=
  ∀ (ra : FieldIx) (s : State), s.readable ra → s.freg[ra].norm = true →
    ∃ t, exec (.getb32 ra) s = .next t ∧ getbTable s.freg[ra].limbs (bufByte t.bufw)

/-- SETB32 of a value below p and then GETB32 of the same register gives RESULT = 1 and the bytes BUF held (R124). -/
def Obligations.WireRoundTrip : Prop :=
  ∀ (rd : FieldIx) (s : State), bval s.bufw < prime →
    ∃ t u, exec (.setb32 rd) s = .next t ∧ t.result = 1 ∧ exec (.getb32 rd) t = .next u ∧ u.result = 1 ∧
      u.bufw = s.bufw

/-! ## Linear operators (42_linear.md) -/

/-- ADD adds limb by limb with no carry and no overflow, and the magnitudes (R130). -/
def Obligations.AddAddsLimbs : Prop :=
  ∀ (rd ra rb : FieldIx) (s : State), s.readable ra → s.readable rb → s.freg[ra].mag + s.freg[rb].mag ≤ 32 →
    ∃ r : FieldRec, exec (.add rd ra rb) s = .next (s.afterF rd r) ∧
      (∀ i < 10, lim r.limbs i = lim s.freg[ra].limbs i + lim s.freg[rb].limbs i) ∧
      r.mag = s.freg[ra].mag + s.freg[rb].mag ∧ r.norm = false ∧ r.val = s.freg[ra].val + s.freg[rb].val ∧
      verify r = true

/-- NEG subtracts limb by limb from 2(m + 1)·p with no underflow (R131). -/
def Obligations.NegSubtractsFromMultipleOfPrime : Prop :=
  ∀ (rd ra : FieldIx) (m : BitVec 12) (s : State), m.toNat ≤ 31 → s.readable ra → s.freg[ra].mag ≤ m.toNat →
    ∃ r : FieldRec, exec (.neg rd ra m) s = .next (s.afterF rd r) ∧
      (∀ i < 10, lim r.limbs i + lim s.freg[ra].limbs i = 2 * (m.toNat + 1) * lim pLimb i) ∧
      r.mag = m.toNat + 1 ∧ r.norm = false ∧ r.val + s.freg[ra].val = 2 * (m.toNat + 1) * prime ∧ verify r = true

/-- MULINT multiplies every limb and the magnitude (R132). -/
def Obligations.MulintScalesLimbs : Prop :=
  ∀ (rd ra : FieldIx) (a : BitVec 12) (s : State), a.toNat ≤ 32 → s.readable ra → a.toNat * s.freg[ra].mag ≤ 32 →
    ∃ r : FieldRec, exec (.mulint rd ra a) s = .next (s.afterF rd r) ∧
      (∀ i < 10, lim r.limbs i = lim s.freg[ra].limbs i * a.toNat) ∧ r.mag = s.freg[ra].mag * a.toNat ∧
      r.norm = false ∧ r.val = s.freg[ra].val * a.toNat ∧ verify r = true

/-- CMOV copies the whole record when the flag is 1 and changes nothing when it is 0 (R133); MOV copies it always, also
into an unwritten register (R134). -/
def Obligations.CopiesMoveWholeRecord : Prop :=
  ∀ (rd ra : FieldIx) (s : State), s.readable ra →
    exec (.mov rd ra) s = .next (s.afterF rd s.freg[ra].toFieldRec) ∧
    (s.readable rd → exec (.cmov rd ra 1) s = .next (s.afterF rd s.freg[ra].toFieldRec) ∧
      exec (.cmov rd ra 0) s = .next s)

/-- SETINT writes the integer as a normalized record of magnitude 1 (R135); CLEAR writes the zero record of magnitude 0,
normalized (R136). Neither reads a register. -/
def Obligations.ConstructorsWriteConstants : Prop :=
  ∀ (rd : FieldIx) (imm : BitVec 12) (s : State),
    (∃ r : FieldRec, exec (.setint rd imm) s = .next (s.afterF rd r) ∧
      r.limbs = [imm.toNat, 0, 0, 0, 0, 0, 0, 0, 0, 0] ∧ r.mag = 1 ∧ r.norm = true) ∧
    exec (.clear rd) s = .next (s.afterF rd { n := Vector.replicate 10 0, mag := 0, norm := true })

/-- The pseudo-instruction SUB, NEG and then ADD, gives the difference of the field values (30_encoding.md R89). -/
def Obligations.SubExpansionSubtracts : Prop :=
  ∀ (fd fa fb : FieldIx) (m : BitVec 12) (s : State), m.toNat ≤ 31 → fd ≠ fa → s.readable fa → s.readable fb →
    s.freg[fb].mag ≤ m.toNat → s.freg[fa].mag + m.toNat + 1 ≤ 32 →
    ∃ (t : State) (r : FieldRec), exec (.neg fd fb m) s = .next t ∧ exec (.add fd fa fd) t = .next (s.afterF fd r) ∧
      (r.fv + s.freg[fb].fv) % prime = s.freg[fa].fv ∧ r.mag = s.freg[fa].mag + m.toNat + 1 ∧ verify r = true

/-! ## Multiplication and the chains (43_multiply.md, 44_chains.md) -/

/-- MUL writes the limbs of `MulCore`, none truncated: the product of the field values, magnitude 1, not normalized,
within `Verify` (R152, R153). -/
def Obligations.MulMultipliesFieldValues : Prop :=
  ∀ (rd ra rb : FieldIx) (s : State), s.factor ra → s.factor rb →
    ∃ r : FieldRec, exec (.mul rd ra rb) s = .next (s.afterF rd r) ∧
      r.limbs = mulCore s.freg[ra].limbs s.freg[rb].limbs ∧ r.fv = s.freg[ra].fv * s.freg[rb].fv % prime ∧
      r.mag = 1 ∧ r.norm = false ∧ verify r = true

/-- SQR does what MUL with the operand twice does, in every state (R154): the square of the field value. -/
def Obligations.SqrIsMulByItself : Prop :=
  ∀ (rd ra : FieldIx) (s : State), exec (.sqr rd ra) s = exec (.mul rd ra ra) s ∧
    (s.factor ra →
      ∃ r : FieldRec, exec (.sqr rd ra) s = .next (s.afterF rd r) ∧
        r.limbs = mulCore s.freg[ra].limbs s.freg[ra].limbs ∧ r.fv = s.freg[ra].fv * s.freg[ra].fv % prime ∧
        r.mag = 1 ∧ r.norm = false ∧ verify r = true)

/-- With 64-bit accumulators `MulCore` gives the same limbs on operands of magnitude at most 8 (R155). -/
def Obligations.MulCoreFitsIn64Bits : Prop :=
  ∀ a b : FieldRec, verify a = true → verify b = true → a.mag ≤ 8 → b.mag ≤ 8 →
    mulCore64 a.limbs b.limbs = mulCore a.limbs b.limbs

/-- The bounds of `MulCore`'s output on operands of magnitude at most 8; the record made of it is within `Verify` and of
magnitude 1, so it can be a factor again; the all-maximal input reaches the bound of limb 2 (R156). -/
def Obligations.MulCoreOutputBounds : Prop :=
  (∀ a b : FieldRec, verify a = true → verify b = true → a.mag ≤ 8 → b.mag ≤ 8 →
    (∀ i < 9, i ≠ 2 → lim (mulCore a.limbs b.limbs) i ≤ M26) ∧ lim (mulCore a.limbs b.limbs) 9 ≤ M22 ∧
    lim (mulCore a.limbs b.limbs) 2 ≤ 0x4100000 ∧ 0x4100000 < 2 * M26 ∧
    verify (.ofLimbs (mulCore a.limbs b.limbs) 1 false) = true ∧
    (FieldRec.ofLimbs (mulCore a.limbs b.limbs) 1 false).mag ≤ 8) ∧
  lim (mulCore (List.replicate 9 (16 * M26) ++ [16 * M22]) (List.replicate 9 (16 * M26) ++ [16 * M22])) 2 = 0x4100000

/-- `MulCore` is commutative bit for bit, on operands of any size (44_chains.md R170). -/
def Obligations.MulCoreCommutes : Prop :=
  ∀ a b : List Nat, mulCore a b = mulCore b a

/-- INV and INVV write the same record: the operand's field value to the power p − 2, magnitude 1, not normalized, within
`Verify` (R171, R172). -/
def Obligations.InversesRaiseToPrimeMinusTwo : Prop :=
  ∀ (rd ra : FieldIx) (s : State), s.factor ra →
    ∃ r : FieldRec, exec (.inv rd ra) s = .next (s.afterF rd r) ∧ exec (.invv rd ra) s = .next (s.afterF rd r) ∧
      r.fv = s.freg[ra].fv ^ (prime - 2) % prime ∧ r.mag = 1 ∧ r.norm = false ∧ verify r = true

/-- SQRT writes the operand's field value to the power (p + 1)/4, whether or not it is a root, and RESULT says whether
its square is the operand (R173); ISQV writes that RESULT alone (R174). -/
def Obligations.RootsRaiseToQuarterPower : Prop :=
  ∀ (rd ra : FieldIx) (s : State), s.factor ra →
    ∃ r : FieldRec,
      exec (.sqrt rd ra) s =
        .next { s.afterF rd r with result := if r.fv * r.fv % prime = s.freg[ra].fv then 1 else 0 } ∧
      exec (.isqv ra) s = .next { s with result := if r.fv * r.fv % prime = s.freg[ra].fv then 1 else 0 } ∧
      r.fv = s.freg[ra].fv ^ ((prime + 1) / 4) % prime ∧ r.mag = 1 ∧ r.norm = false ∧ verify r = true

/-! ## Comparison (45_compare.md) -/

/-- CMPV writes −1, 0 or 1 as the integers of two normalized operands compare (R190). -/
def Obligations.CmpvOrdersIntegers : Prop :=
  ∀ (ra rb : FieldIx) (s : State), s.readable ra → s.readable rb → s.freg[ra].norm = true → s.freg[rb].norm = true →
    exec (.cmpv ra rb) s = .next { s with
      result := if s.freg[ra].val < s.freg[rb].val then 0xFFFFFFFF
        else if s.freg[ra].val = s.freg[rb].val then 0 else 1 }

/-- EQ and EQV write RESULT = 1 exactly when the field values are equal, for all magnitudes (R191, R192). -/
def Obligations.EqualityComparesFieldValues : Prop :=
  ∀ (ra rb : FieldIx) (s : State), s.readable ra → s.readable rb →
    exec (.eq ra rb) s = .next { s with result := if s.freg[ra].fv = s.freg[rb].fv then 1 else 0 } ∧
    exec (.eqv ra rb) s = .next { s with result := if s.freg[ra].fv = s.freg[rb].fv then 1 else 0 }

/-- Where the magnitudes leave room, the source's method (NEG, ADD, NTZ, in a register rt) gives EQ's RESULT (R191). -/
def Obligations.EqAgreesWithNegAddNtz : Prop :=
  ∀ (rt ra rb : FieldIx) (m : BitVec 12) (s : State), rt ≠ ra → s.readable ra → s.readable rb →
    m.toNat = s.freg[rb].mag → s.freg[ra].mag + s.freg[rb].mag + 1 ≤ 32 →
    ∃ t u v w : State, exec (.neg rt rb m) s = .next t ∧ exec (.add rt ra rt) t = .next u ∧
      exec (.ntz rt) u = .next v ∧ exec (.eq ra rb) s = .next w ∧ v.result = w.result

/-! ## Storage, raw access and the invariant check (46_storage_raw.md) -/

/-- TOSTOR packs a normalized operand's value little-word-first (R200); FROMSTOR unpacks a value below p into its
canonical record and faults INVARIANT on any other (R201). With an empty latch, where no command runs, that fault's
FAULTCMD of 0 is the model's choice (log 12). -/
def Obligations.StoragePacksValues : Prop :=
  (∀ (sd : StorIx) (fa : FieldIx) (s : State), s.readable fa → s.freg[fa].norm = true →
    ∃ sw : Vector Word 8, exec (.tostor sd fa) s = .next (s.afterS sd sw) ∧ sval sw = s.freg[fa].val) ∧
  (∀ (fd : FieldIx) (sa : StorIx) (s : State), s.sreg[sa].w = true →
    (sval s.sreg[sa].sw < prime →
      ∃ r : FieldRec, exec (.fromstor fd sa) s = .next (s.afterF fd r) ∧ r.canonical ∧ r.val = sval s.sreg[sa].sw) ∧
    (prime ≤ sval s.sreg[sa].sw → exec (.fromstor fd sa) s = .next (s.afterFault 4)))

/-- TOSTOR and then FROMSTOR restores the limbs of a normalized register, with magnitude 1 and normalized (R201). -/
def Obligations.StorageRoundTrip : Prop :=
  ∀ (fd fa : FieldIx) (sd : StorIx) (s : State), s.readable fa → s.freg[fa].norm = true →
    ∃ t, exec (.tostor sd fa) s = .next t ∧
      exec (.fromstor fd sd) t = .next (t.afterF fd { n := s.freg[fa].n, mag := 1, norm := true })

/-- SCMOV copies the words when the flag is 1 and changes nothing when it is 0 (R202); LDSTOR takes LIMB[0..7] without a
check (R203); STSTOR writes LIMB[0..7] and leaves LIMB[8] and LIMB[9] (R204). -/
def Obligations.StorageMovesWords : Prop :=
  (∀ (sd sa : StorIx) (s : State), s.sreg[sd].w = true → s.sreg[sa].w = true →
    exec (.scmov sd sa 1) s = .next (s.afterS sd s.sreg[sa].sw) ∧ exec (.scmov sd sa 0) s = .next s) ∧
  (∀ (sd : StorIx) (s : State), ∃ sw : Vector Word 8, exec (.ldstor sd) s = .next (s.afterS sd sw) ∧
    ∀ j : Fin 8, sw[j] = s.limb[j.val]) ∧
  (∀ (sa : StorIx) (s : State), s.sreg[sa].w = true →
    ∃ l : Vector Word 10, exec (.ststor sa) s = .next { s with limb := l } ∧
      (∀ j : Fin 8, l[j.val] = s.sreg[sa].sw[j]) ∧ l[8] = s.limb[8] ∧ l[9] = s.limb[9])

/-- LDRAW loads LIMB, META.MAG and META.NORM as a record when it satisfies `Verify`, and faults INVARIANT otherwise
(R205). With an empty latch, where no command runs, that fault's FAULTCMD of 0 is the model's choice (log 12). -/
def Obligations.LdrawLoadsVerifiedRecord : Prop :=
  ∀ (fd : FieldIx) (s : State),
    ∃ r : FieldRec, r.n = s.limb ∧ r.mag = s.metaw.toNat % 2 ^ 6 ∧ r.norm = s.metaw.getLsbD 8 ∧
      (verify r = true → exec (.ldraw fd) s = .next (s.afterF fd r)) ∧
      (verify r = false → exec (.ldraw fd) s = .next (s.afterFault 4))

/-- STRAW writes the limbs to LIMB, and the magnitude and the normalized flag to META, of any written register, one that
fails `Verify` among them (R206). That the magnitude is at most 32 is `StepKeepsInvariant`. -/
def Obligations.StrawReadsOutRecord : Prop :=
  ∀ (fa : FieldIx) (s : State), s.freg[fa].w = true → s.freg[fa].mag ≤ 32 →
    ∃ m : Word, exec (.straw fa) s = .next { s with limb := s.freg[fa].n, metaw := m } ∧
      m.toNat = s.freg[fa].mag + if s.freg[fa].norm then 2 ^ 8 else 0

/-- VERIFY writes RESULT = 1 exactly when the written register's record meets the representation invariant, with the
limbs' own readout spelled out (R207, 10_state.md R34). -/
def Obligations.VerifyReportsInvariant : Prop :=
  ∀ (fa : FieldIx) (s : State), s.freg[fa].w = true →
    ∃ (k : Nat) (x : Word), k = s.freg[fa].mag * (if s.freg[fa].norm then 1 else 2) ∧
      exec (.verify fa) s = .next { s with result := x } ∧ (x = 0 ∨ x = 1) ∧
      (x = 1 ↔ (∀ i : Fin 9, s.freg[fa].n[i.val].toNat ≤ M26 * k) ∧ s.freg[fa].n[9].toNat ≤ M22 * k ∧
        s.freg[fa].mag ≤ 32 ∧ (s.freg[fa].norm = true → s.freg[fa].mag ≤ 1 ∧ s.freg[fa].val < prime))

/-! ## Faults (60_exceptions.md) -/

/-- The checks on source registers run in the order of the pseudocode, UNWRITTEN before INVARIANT on each: a command whose
sources before F[r] are readable faults UNWRITTEN (3) when F[r] is not written, and INVARIANT (4) when it is written and
fails `Verify`; STRAW and VERIFY make the first check alone, storage registers have the first check alone (R222, R223,
10_state.md R36, R39). With an empty latch, where no command runs, the fault's FAULTCMD of 0 is the model's choice (log
12). -/
def Obligations.SourcesCheckedInOrder : Prop :=
  (∀ (i : Instr) (s : State) (before after : List FieldIx) (r : FieldIx), i.wellFormed = true →
    fieldSources i = before ++ r :: after → (∀ q ∈ before, s.readable q) →
    (s.freg[r].w = false → exec i s = .next (s.afterFault 3)) ∧
    (s.freg[r].w = true → verify s.freg[r].toFieldRec = false → exec i s = .next (s.afterFault 4))) ∧
  (∀ (i : Instr) (s : State) (r : FieldIx), rawSource i = some r → s.freg[r].w = false →
    exec i s = .next (s.afterFault 3)) ∧
  (∀ (i : Instr) (s : State) (before after : List StorIx) (r : StorIx), i.wellFormed = true →
    storSources i = before ++ r :: after → (∀ q ∈ before, s.sreg[q].w = true) → s.sreg[r].w = false →
    exec i s = .next (s.afterFault 3))

/-- With readable sources, a failed magnitude precondition faults MAGNITUDE (5) and an operand that must be normalized and
is not faults NOT_NORMALIZED (6) (R222, R223). An immediate out of range faults ILLEGAL_FIELD (2) before any source is
read: the spec has the decoder raise that fault, and that the meaning raises it too is the model's deduction (log 11).
With an empty latch, where no command runs, a fault's FAULTCMD of 0 is the model's choice (log 12). -/
def Obligations.PreconditionFaults : Prop :=
  ∀ (s : State) (rd ra rb : FieldIx) (sd : StorIx) (k : BitVec 12),
    (s.readable ra → s.readable rb → 32 < s.freg[ra].mag + s.freg[rb].mag →
      exec (.add rd ra rb) s = .next (s.afterFault 5)) ∧
    (s.readable ra → k.toNat ≤ 31 → k.toNat < s.freg[ra].mag → exec (.neg rd ra k) s = .next (s.afterFault 5)) ∧
    (s.readable ra → k.toNat ≤ 32 → 32 < k.toNat * s.freg[ra].mag →
      exec (.mulint rd ra k) s = .next (s.afterFault 5)) ∧
    (s.readable ra → s.readable rb → 8 < s.freg[ra].mag ∨ 8 < s.freg[rb].mag →
      exec (.mul rd ra rb) s = .next (s.afterFault 5)) ∧
    (s.readable ra → 8 < s.freg[ra].mag →
      ∀ i ∈ [Instr.sqr rd ra, .inv rd ra, .invv rd ra, .sqrt rd ra, .isqv ra],
        exec i s = .next (s.afterFault 5)) ∧
    (s.readable ra → s.freg[ra].norm = false →
      ∀ i ∈ [Instr.getb32 ra, .tostor sd ra], exec i s = .next (s.afterFault 6)) ∧
    (s.readable ra → s.readable rb → s.freg[ra].norm = false ∨ s.freg[rb].norm = false →
      exec (.cmpv ra rb) s = .next (s.afterFault 6)) ∧
    (∀ i : Instr, i.wellFormed = false → exec i s = .next (s.afterFault 2))

/-- No command stops the machine. -/
def Obligations.EveryCommandAnswers : Prop :=
  ∀ (i : Instr) (s : State), ∃ t, exec i s = .next t

/-- Faults are precise: a command either enters a fault of code 2 to 6 with none of its writes, recorded only when no
fault was, or leaves STATUS and FAULTCMD as they were (R221, R226). FAULTCMD takes the word in the latch; with an empty
latch, where no command runs, that it takes 0 is the model's choice (log 12). -/
def Obligations.FaultsArePrecise : Prop :=
  ∀ (i : Instr) (s t : State), exec i s = .next t →
    (∃ k : BitVec 4, 2 ≤ k.toNat ∧ k.toNat ≤ 6 ∧ t = s.afterFault k) ∨
    (t.fault = s.fault ∧ t.fcode = s.fcode ∧ t.faultcmd = s.faultcmd)

/-- What a command may write: one destination register, RESULT only where 10_state.md R45 says so, BUF only by GETB32,
LIMB only by STSTOR and STRAW, META only by STRAW; never the latch, its cycles, or what the model holds of the host. -/
def Obligations.OnlyNamedStateIsWritten : Prop :=
  ∀ (i : Instr) (s t : State), exec i s = .next t →
    (∀ j : FieldIx, fieldDest i ≠ some j → t.freg[j] = s.freg[j]) ∧
    (∀ j : StorIx, storDest i ≠ some j → t.sreg[j] = s.sreg[j]) ∧
    (writesResult i = false → t.result = s.result) ∧
    ((∀ ra, i ≠ .getb32 ra) → t.bufw = s.bufw) ∧
    ((∀ sa, i ≠ .ststor sa) → (∀ fa, i ≠ .straw fa) → t.limb = s.limb) ∧
    ((∀ fa, i ≠ .straw fa) → t.metaw = s.metaw) ∧
    t.cur = s.cur ∧ t.left = s.left ∧ t.host = s.host ∧ t.rdata = s.rdata ∧ t.draws = s.draws

/-! ## The host register window (20_memory.md) -/

/-- What a read of each register returns while no command is in flight, and that it changes nothing of the unit (R61,
R64, 10_state.md R46). That the word stands in `rdata` is the model's choice (log 6). -/
def Obligations.ReadsReturnRegisters : Prop :=
  ∀ (s : State) (rest : List HostEvent), s.cur = none →
    s.readGives 0x000 rest { s with host := rest, rdata := 0 } ∧
    (∃ v : Word, s.readGives 0x004 rest { s with host := rest, rdata := v } ∧
      v.toNat = (if s.fault then 2 else 0) + 2 ^ 8 * s.fcode.toNat) ∧
    s.readGives 0x008 rest { s with host := rest, rdata := s.faultcmd } ∧
    s.readGives 0x00C rest { s with host := rest, rdata := 0 } ∧
    s.readGives 0x010 rest { s with host := rest, rdata := s.result } ∧
    (∀ j : Fin 8, s.readGives (0x040 + 4 * j.val) rest { s with host := rest, rdata := s.bufw[j] }) ∧
    (∀ i : Fin 10, s.readGives (0x060 + 4 * i.val) rest { s with host := rest, rdata := s.limb[i] }) ∧
    s.readGives 0x088 rest { s with host := rest, rdata := s.metaw }

/-- While a command is in flight a read of STATUS is true, a read of CMD or CTRL is 0, and a read of FAULTCMD, RESULT, a
buffer or META is a free value, drawn anew (R65). The free value and its counter are the model's (log 5). -/
def Obligations.BusyReads : Prop :=
  ∀ (s : State) (w : Word) (k off : Nat) (rest : List HostEvent), s.cur = some w → s.left = k + 1 → legalOffset off →
    (off = 0x004 → ∃ v : Word, s.readGives off rest { s with host := rest, left := k, rdata := v } ∧
      v.toNat = 1 + (if s.fault then 2 else 0) + 2 ^ 8 * s.fcode.toNat) ∧
    (off = 0x000 ∨ off = 0x00C → s.readGives off rest { s with host := rest, left := k, rdata := 0 }) ∧
    (off = 0x008 ∨ off = 0x010 ∨ 0x040 ≤ off ∧ off ≤ 0x088 →
      s.readGives off rest
        { s with host := rest, left := k, rdata := Config.busyRead off s.draws, draws := s.draws + 1 })

/-- A reserved offset reads 0 and ignores writes, a read-only register ignores writes, a write-only register reads 0;
none has any other effect (R63). `afterEvent` is the state with that event taken and nothing else. -/
def Obligations.ReservedAndWrongDirection : Prop :=
  ∀ (s : State) (off : Nat) (v : Word) (rest : List HostEvent), s.takesEvent →
    (reservedOffset off ∨ off = 0x000 ∨ off = 0x00C →
      s.readGives off rest { s.afterEvent rest with rdata := 0 }) ∧
    (reservedOffset off ∨ off = 0x004 ∨ off = 0x008 ∨ off = 0x010 →
      s.writeGives off v rest (s.afterEvent rest))

/-- An idle unit without a fault latches a word written to CMD, and its `LAT` cycles, at least 1, begin (60_exceptions.md
R220); it stores a word written to BUFW, LIMB or META, of META only MAG and NORM (R64, 10_state.md R44). The counting of
the cycles is the model's (log 3). -/
def Obligations.IdleWrites : Prop :=
  ∀ (s : State) (v : Word) (rest : List HostEvent), s.cur = none →
    (s.fault = false →
      ∃ lat, 1 ≤ lat ∧ lat = latency v { s with host := rest } ∧
        s.writeGives 0x000 v rest { s with host := rest, cur := some v, left := lat - 1 }) ∧
    (∀ j : Fin 8, s.writeGives (0x040 + 4 * j.val) v rest { s with host := rest, bufw := s.bufw.set j v }) ∧
    (∀ i : Fin 10, s.writeGives (0x060 + 4 * i.val) v rest { s with host := rest, limb := s.limb.set i v }) ∧
    ∃ m : Word, s.writeGives 0x088 v rest { s with host := rest, metaw := m } ∧
      ∀ i : Fin 32, m.getLsbD i = (v.getLsbD i && decide (i.val < 6 ∨ i.val = 8))

/-- While FAULT = 1 and BUSY = 0 a write to CMD is discarded, writes to BUFW, LIMB and META are stored, and reads return
the registers (60_exceptions.md R224). -/
def Obligations.DiscardWhileFaulted : Prop :=
  ∀ (s : State) (v : Word) (rest : List HostEvent), s.cur = none → s.fault = true →
    s.writeGives 0x000 v rest { s with host := rest } ∧
    (∀ j : Fin 8, s.writeGives (0x040 + 4 * j.val) v rest { s with host := rest, bufw := s.bufw.set j v }) ∧
    (∀ i : Fin 10, s.writeGives (0x060 + 4 * i.val) v rest { s with host := rest, limb := s.limb.set i v }) ∧
    s.writeGives 0x088 v rest { s with host := rest, metaw := v &&& 0x13F } ∧
    (∀ off, legalOffset off → s.readGives off rest { s with host := rest, rdata := readReg s (busReg off) })

/-- A write of CTRL with bit 0 = 1 clears FAULT, FCODE and FAULTCMD and changes nothing else, in flight or not; only it
and reset take FAULT from 1 to 0; only a write of CMD with FAULT = 0 puts a command in flight (60_exceptions.md R225). A
write of CTRL with bit 0 = 0 changes nothing, whatever its other bits (10_state.md R48). -/
def Obligations.FaultReturn : Prop :=
  (∀ (s : State) (v : Word) (rest : List HostEvent), s.takesEvent → v.getLsbD 0 = true →
    s.writeGives 0x00C v rest { s.afterEvent rest with fault := false, fcode := 0, faultcmd := 0 }) ∧
  (∀ (s : State) (v : Word) (rest : List HostEvent), s.takesEvent → v.getLsbD 0 = false →
    s.writeGives 0x00C v rest (s.afterEvent rest)) ∧
  (∀ s t : State, step s = .next t → s.fault = true → t.fault = false →
    ∃ rest, s.host = .reset :: rest ∨ ∃ v : Word, v.getLsbD 0 = true ∧ s.host = .write 0x00C 4 v :: rest) ∧
  (∀ (s t : State) (w : Word), step s = .next t → s.cur = none → t.cur = some w →
    s.fault = false ∧ ∃ rest, s.host = .write 0x000 4 w :: rest)

/-- A write to CMD, BUFW, LIMB or META while a command is in flight is dropped; with no fault recorded, OVERRUN is, with
the word in flight; the command in flight is not affected (60_exceptions.md R227). -/
def Obligations.OverrunIsDropped : Prop :=
  ∀ (s : State) (w v : Word) (k off : Nat) (rest : List HostEvent), s.cur = some w → s.left = k + 1 →
    lockedOffset off →
    s.writeGives off v rest
      (if s.fault then { s with host := rest, left := k }
        else { s with host := rest, left := k, fault := true, fcode := 7, faultcmd := w })

/-- The window is 256 bytes at a multiple of 256 (R60). Of an access the unit sees its offset and width when it begins in
the window, nothing when it touches no byte of the window, and an access outside the contract when it begins below the
window and reaches into it. An access outside the contract, which is not an aligned 32-bit one, gets no step (R62), nor
does one during reset (70_reset_and_hazards.md R250). The events that stand for accesses, and that an offset beyond the
window is a fault, are the model's choice (logs 2, 8, 9, 17). -/
def Obligations.WindowContract : Prop :=
  Config.base % 256 = 0 ∧
  (∀ base addr off : Nat, windowOffset base addr = some off ↔ addr = base + off ∧ off < 256) ∧
  (∀ (addr width : Nat) (mk : Nat → Nat → HostEvent), eventAt addr width mk = windowEvent Config.base addr width mk) ∧
  (∀ (base addr width : Nat) (mk : Nat → Nat → HostEvent),
    (∀ off < 256, addr = base + off → windowEvent base addr width mk = mk off width) ∧
    (addr < base → base < addr + width → windowEvent base addr width mk = .accessFromBelow) ∧
    (addr + width ≤ base ∧ addr < base ∨ base + 256 ≤ addr → windowEvent base addr width mk = .idle)) ∧
  (∀ (s : State) (off width : Nat) (v : Word) (rest : List HostEvent), s.takesEvent →
    (off < 256 → width ≠ 4 ∨ off % 4 ≠ 0 →
      step { s with host := .read off width :: rest } = .refused .accessOutsideContract ∧
      step { s with host := .write off width v :: rest } = .refused .accessOutsideContract) ∧
    (256 ≤ off → step { s with host := .read off width :: rest } = .fault .outsideWindow ∧
      step { s with host := .write off width v :: rest } = .fault .outsideWindow) ∧
    step { s with host := .accessFromBelow :: rest } = .refused .accessOutsideContract ∧
    step { s with host := .accessInReset :: rest } = .refused .accessDuringReset)

/-! ## Timing and observation (70_reset_and_hazards.md R256, 93_implementation_defined.md S4) -/

/-- The latency of a constant-time command that does not fault is a function of its OP alone; that of a variable-time
command that does not fault, of its OP and its operand values; every latency is at least 1 (R256). -/
def Obligations.LatencyContract : Prop :=
  (∀ (w : Word) (s : State), 1 ≤ latency w s) ∧
  (∀ (w w' : Word) (s s' : State) (i i' : Instr), decode w = .command i → decode w' = .command i' →
    opField w = opField w' → commandFaults i s = false → commandFaults i' s' = false →
    (i.constantTime = true → latency w s = latency w' s') ∧
    ((fieldSources i).map (fun r => s.freg[r].toFieldRec) = (fieldSources i').map (fun r => s'.freg[r].toFieldRec) →
      latency w s = latency w' s'))

/-- A word written to CMD of an idle unit without a fault stands in the latch for its `LAT` cycles, with no other change,
and in the cycle after them it is executed and the latch emptied (60_exceptions.md R220; the cycles' count, log 3). -/
def Obligations.CommandRunsItsLatency : Prop :=
  ∀ (s : State) (w : Word), s.cur = none → s.fault = false → s.host = [.write 0x000 4 w] →
    (∀ k < latency w { s with host := [] }, Sys2Proof.core.run (k + 1) s =
      .next { s with host := [], cur := some w, left := latency w { s with host := [] } - 1 - k }) ∧
    Sys2Proof.core.run (latency w { s with host := [] } + 1) s =
      executeAndComplete w { s with host := [], cur := some w, left := 0 }

/-- A command line of a program (a write to CMD, then the polling wait, 30_encoding.md R88) comes to its end with BUSY = 0
after `LAT` + 2 cycles, and the wait's last read of STATUS shows it (70_reset_and_hazards.md R253, R258; the cycles'
count, logs 3, 7). -/
def Obligations.CommandLineRunsToItsEnd : Prop :=
  ∀ (s : State) (w : Word), s.cur = none → s.fault = false → s.host = [.write 0x000 4 w, .wait] →
    ∃ t : State, Sys2Proof.core.run (latency w { s with host := [.wait] } + 2) s = .next t ∧ t.host = [] ∧
      t.cur = none ∧ t.rdata = t.statusWord ∧ t.rdata.getLsbD 0 = false

/-- What unwritten registers hold shows in no command: two states that differ only there give, by any command, two states
that differ only there (10_state.md R31, R38, S4). -/
def Obligations.UnwrittenContentsUnobservable : Prop :=
  ∀ (i : Instr) (s t s' : State), s.sameWritten t → exec i s = .next s' →
    ∃ t', exec i t = .next t' ∧ s'.sameWritten t'
end

