-- ==== Sys2Proof/Laws/State.lean ====
section
/-! SUPPORT. What each named update of the state does to each field, one lemma per field per update. -/

namespace Sys2Proof.Machine

/-! ### writeF -/

@[simp] theorem State.writeF_freg (s : State) (i : FieldIx) (r : FieldRec) : (s.writeF i r).freg = s.freg.set i { toFieldRec := r, w := true } := rfl
@[simp] theorem State.writeF_sreg (s : State) (i : FieldIx) (r : FieldRec) : (s.writeF i r).sreg = s.sreg := rfl
@[simp] theorem State.writeF_bufw (s : State) (i : FieldIx) (r : FieldRec) : (s.writeF i r).bufw = s.bufw := rfl
@[simp] theorem State.writeF_limb (s : State) (i : FieldIx) (r : FieldRec) : (s.writeF i r).limb = s.limb := rfl
@[simp] theorem State.writeF_metaw (s : State) (i : FieldIx) (r : FieldRec) : (s.writeF i r).metaw = s.metaw := rfl
@[simp] theorem State.writeF_result (s : State) (i : FieldIx) (r : FieldRec) : (s.writeF i r).result = s.result := rfl
@[simp] theorem State.writeF_fault (s : State) (i : FieldIx) (r : FieldRec) : (s.writeF i r).fault = s.fault := rfl
@[simp] theorem State.writeF_fcode (s : State) (i : FieldIx) (r : FieldRec) : (s.writeF i r).fcode = s.fcode := rfl
@[simp] theorem State.writeF_faultcmd (s : State) (i : FieldIx) (r : FieldRec) : (s.writeF i r).faultcmd = s.faultcmd := rfl
@[simp] theorem State.writeF_cur (s : State) (i : FieldIx) (r : FieldRec) : (s.writeF i r).cur = s.cur := rfl
@[simp] theorem State.writeF_left (s : State) (i : FieldIx) (r : FieldRec) : (s.writeF i r).left = s.left := rfl
@[simp] theorem State.writeF_host (s : State) (i : FieldIx) (r : FieldRec) : (s.writeF i r).host = s.host := rfl
@[simp] theorem State.writeF_rdata (s : State) (i : FieldIx) (r : FieldRec) : (s.writeF i r).rdata = s.rdata := rfl
@[simp] theorem State.writeF_draws (s : State) (i : FieldIx) (r : FieldRec) : (s.writeF i r).draws = s.draws := rfl

/-! ### writeLimbs -/

@[simp] theorem State.writeLimbs_freg (s : State) (i : FieldIx) (n : Vector Word 10) : (s.writeLimbs i n).freg = s.freg.set i { s.freg[i] with n := n } := rfl
@[simp] theorem State.writeLimbs_sreg (s : State) (i : FieldIx) (n : Vector Word 10) : (s.writeLimbs i n).sreg = s.sreg := rfl
@[simp] theorem State.writeLimbs_bufw (s : State) (i : FieldIx) (n : Vector Word 10) : (s.writeLimbs i n).bufw = s.bufw := rfl
@[simp] theorem State.writeLimbs_limb (s : State) (i : FieldIx) (n : Vector Word 10) : (s.writeLimbs i n).limb = s.limb := rfl
@[simp] theorem State.writeLimbs_metaw (s : State) (i : FieldIx) (n : Vector Word 10) : (s.writeLimbs i n).metaw = s.metaw := rfl
@[simp] theorem State.writeLimbs_result (s : State) (i : FieldIx) (n : Vector Word 10) : (s.writeLimbs i n).result = s.result := rfl
@[simp] theorem State.writeLimbs_fault (s : State) (i : FieldIx) (n : Vector Word 10) : (s.writeLimbs i n).fault = s.fault := rfl
@[simp] theorem State.writeLimbs_fcode (s : State) (i : FieldIx) (n : Vector Word 10) : (s.writeLimbs i n).fcode = s.fcode := rfl
@[simp] theorem State.writeLimbs_faultcmd (s : State) (i : FieldIx) (n : Vector Word 10) : (s.writeLimbs i n).faultcmd = s.faultcmd := rfl
@[simp] theorem State.writeLimbs_cur (s : State) (i : FieldIx) (n : Vector Word 10) : (s.writeLimbs i n).cur = s.cur := rfl
@[simp] theorem State.writeLimbs_left (s : State) (i : FieldIx) (n : Vector Word 10) : (s.writeLimbs i n).left = s.left := rfl
@[simp] theorem State.writeLimbs_host (s : State) (i : FieldIx) (n : Vector Word 10) : (s.writeLimbs i n).host = s.host := rfl
@[simp] theorem State.writeLimbs_rdata (s : State) (i : FieldIx) (n : Vector Word 10) : (s.writeLimbs i n).rdata = s.rdata := rfl
@[simp] theorem State.writeLimbs_draws (s : State) (i : FieldIx) (n : Vector Word 10) : (s.writeLimbs i n).draws = s.draws := rfl

/-! ### writeS -/

@[simp] theorem State.writeS_freg (s : State) (j : StorIx) (sw : Vector Word 8) : (s.writeS j sw).freg = s.freg := rfl
@[simp] theorem State.writeS_sreg (s : State) (j : StorIx) (sw : Vector Word 8) : (s.writeS j sw).sreg = s.sreg.set j { sw := sw, w := true } := rfl
@[simp] theorem State.writeS_bufw (s : State) (j : StorIx) (sw : Vector Word 8) : (s.writeS j sw).bufw = s.bufw := rfl
@[simp] theorem State.writeS_limb (s : State) (j : StorIx) (sw : Vector Word 8) : (s.writeS j sw).limb = s.limb := rfl
@[simp] theorem State.writeS_metaw (s : State) (j : StorIx) (sw : Vector Word 8) : (s.writeS j sw).metaw = s.metaw := rfl
@[simp] theorem State.writeS_result (s : State) (j : StorIx) (sw : Vector Word 8) : (s.writeS j sw).result = s.result := rfl
@[simp] theorem State.writeS_fault (s : State) (j : StorIx) (sw : Vector Word 8) : (s.writeS j sw).fault = s.fault := rfl
@[simp] theorem State.writeS_fcode (s : State) (j : StorIx) (sw : Vector Word 8) : (s.writeS j sw).fcode = s.fcode := rfl
@[simp] theorem State.writeS_faultcmd (s : State) (j : StorIx) (sw : Vector Word 8) : (s.writeS j sw).faultcmd = s.faultcmd := rfl
@[simp] theorem State.writeS_cur (s : State) (j : StorIx) (sw : Vector Word 8) : (s.writeS j sw).cur = s.cur := rfl
@[simp] theorem State.writeS_left (s : State) (j : StorIx) (sw : Vector Word 8) : (s.writeS j sw).left = s.left := rfl
@[simp] theorem State.writeS_host (s : State) (j : StorIx) (sw : Vector Word 8) : (s.writeS j sw).host = s.host := rfl
@[simp] theorem State.writeS_rdata (s : State) (j : StorIx) (sw : Vector Word 8) : (s.writeS j sw).rdata = s.rdata := rfl
@[simp] theorem State.writeS_draws (s : State) (j : StorIx) (sw : Vector Word 8) : (s.writeS j sw).draws = s.draws := rfl

/-! ### writeResult -/

@[simp] theorem State.writeResult_freg (s : State) (v : Word) : (s.writeResult v).freg = s.freg := rfl
@[simp] theorem State.writeResult_sreg (s : State) (v : Word) : (s.writeResult v).sreg = s.sreg := rfl
@[simp] theorem State.writeResult_bufw (s : State) (v : Word) : (s.writeResult v).bufw = s.bufw := rfl
@[simp] theorem State.writeResult_limb (s : State) (v : Word) : (s.writeResult v).limb = s.limb := rfl
@[simp] theorem State.writeResult_metaw (s : State) (v : Word) : (s.writeResult v).metaw = s.metaw := rfl
@[simp] theorem State.writeResult_result (s : State) (v : Word) : (s.writeResult v).result = v := rfl
@[simp] theorem State.writeResult_fault (s : State) (v : Word) : (s.writeResult v).fault = s.fault := rfl
@[simp] theorem State.writeResult_fcode (s : State) (v : Word) : (s.writeResult v).fcode = s.fcode := rfl
@[simp] theorem State.writeResult_faultcmd (s : State) (v : Word) : (s.writeResult v).faultcmd = s.faultcmd := rfl
@[simp] theorem State.writeResult_cur (s : State) (v : Word) : (s.writeResult v).cur = s.cur := rfl
@[simp] theorem State.writeResult_left (s : State) (v : Word) : (s.writeResult v).left = s.left := rfl
@[simp] theorem State.writeResult_host (s : State) (v : Word) : (s.writeResult v).host = s.host := rfl
@[simp] theorem State.writeResult_rdata (s : State) (v : Word) : (s.writeResult v).rdata = s.rdata := rfl
@[simp] theorem State.writeResult_draws (s : State) (v : Word) : (s.writeResult v).draws = s.draws := rfl

/-! ### writeBuf -/

@[simp] theorem State.writeBuf_freg (s : State) (b : Vector Word 8) : (s.writeBuf b).freg = s.freg := rfl
@[simp] theorem State.writeBuf_sreg (s : State) (b : Vector Word 8) : (s.writeBuf b).sreg = s.sreg := rfl
@[simp] theorem State.writeBuf_bufw (s : State) (b : Vector Word 8) : (s.writeBuf b).bufw = b := rfl
@[simp] theorem State.writeBuf_limb (s : State) (b : Vector Word 8) : (s.writeBuf b).limb = s.limb := rfl
@[simp] theorem State.writeBuf_metaw (s : State) (b : Vector Word 8) : (s.writeBuf b).metaw = s.metaw := rfl
@[simp] theorem State.writeBuf_result (s : State) (b : Vector Word 8) : (s.writeBuf b).result = s.result := rfl
@[simp] theorem State.writeBuf_fault (s : State) (b : Vector Word 8) : (s.writeBuf b).fault = s.fault := rfl
@[simp] theorem State.writeBuf_fcode (s : State) (b : Vector Word 8) : (s.writeBuf b).fcode = s.fcode := rfl
@[simp] theorem State.writeBuf_faultcmd (s : State) (b : Vector Word 8) : (s.writeBuf b).faultcmd = s.faultcmd := rfl
@[simp] theorem State.writeBuf_cur (s : State) (b : Vector Word 8) : (s.writeBuf b).cur = s.cur := rfl
@[simp] theorem State.writeBuf_left (s : State) (b : Vector Word 8) : (s.writeBuf b).left = s.left := rfl
@[simp] theorem State.writeBuf_host (s : State) (b : Vector Word 8) : (s.writeBuf b).host = s.host := rfl
@[simp] theorem State.writeBuf_rdata (s : State) (b : Vector Word 8) : (s.writeBuf b).rdata = s.rdata := rfl
@[simp] theorem State.writeBuf_draws (s : State) (b : Vector Word 8) : (s.writeBuf b).draws = s.draws := rfl

/-! ### writeLimbBuf -/

@[simp] theorem State.writeLimbBuf_freg (s : State) (l : Vector Word 10) : (s.writeLimbBuf l).freg = s.freg := rfl
@[simp] theorem State.writeLimbBuf_sreg (s : State) (l : Vector Word 10) : (s.writeLimbBuf l).sreg = s.sreg := rfl
@[simp] theorem State.writeLimbBuf_bufw (s : State) (l : Vector Word 10) : (s.writeLimbBuf l).bufw = s.bufw := rfl
@[simp] theorem State.writeLimbBuf_limb (s : State) (l : Vector Word 10) : (s.writeLimbBuf l).limb = l := rfl
@[simp] theorem State.writeLimbBuf_metaw (s : State) (l : Vector Word 10) : (s.writeLimbBuf l).metaw = s.metaw := rfl
@[simp] theorem State.writeLimbBuf_result (s : State) (l : Vector Word 10) : (s.writeLimbBuf l).result = s.result := rfl
@[simp] theorem State.writeLimbBuf_fault (s : State) (l : Vector Word 10) : (s.writeLimbBuf l).fault = s.fault := rfl
@[simp] theorem State.writeLimbBuf_fcode (s : State) (l : Vector Word 10) : (s.writeLimbBuf l).fcode = s.fcode := rfl
@[simp] theorem State.writeLimbBuf_faultcmd (s : State) (l : Vector Word 10) : (s.writeLimbBuf l).faultcmd = s.faultcmd := rfl
@[simp] theorem State.writeLimbBuf_cur (s : State) (l : Vector Word 10) : (s.writeLimbBuf l).cur = s.cur := rfl
@[simp] theorem State.writeLimbBuf_left (s : State) (l : Vector Word 10) : (s.writeLimbBuf l).left = s.left := rfl
@[simp] theorem State.writeLimbBuf_host (s : State) (l : Vector Word 10) : (s.writeLimbBuf l).host = s.host := rfl
@[simp] theorem State.writeLimbBuf_rdata (s : State) (l : Vector Word 10) : (s.writeLimbBuf l).rdata = s.rdata := rfl
@[simp] theorem State.writeLimbBuf_draws (s : State) (l : Vector Word 10) : (s.writeLimbBuf l).draws = s.draws := rfl

/-! ### writeLimbLow -/

@[simp] theorem State.writeLimbLow_freg (s : State) (sw : Vector Word 8) : (s.writeLimbLow sw).freg = s.freg := rfl
@[simp] theorem State.writeLimbLow_sreg (s : State) (sw : Vector Word 8) : (s.writeLimbLow sw).sreg = s.sreg := rfl
@[simp] theorem State.writeLimbLow_bufw (s : State) (sw : Vector Word 8) : (s.writeLimbLow sw).bufw = s.bufw := rfl
@[simp] theorem State.writeLimbLow_limb (s : State) (sw : Vector Word 8) : (s.writeLimbLow sw).limb = #v[sw[0], sw[1], sw[2], sw[3], sw[4], sw[5], sw[6], sw[7], s.limb[8], s.limb[9]] := rfl
@[simp] theorem State.writeLimbLow_metaw (s : State) (sw : Vector Word 8) : (s.writeLimbLow sw).metaw = s.metaw := rfl
@[simp] theorem State.writeLimbLow_result (s : State) (sw : Vector Word 8) : (s.writeLimbLow sw).result = s.result := rfl
@[simp] theorem State.writeLimbLow_fault (s : State) (sw : Vector Word 8) : (s.writeLimbLow sw).fault = s.fault := rfl
@[simp] theorem State.writeLimbLow_fcode (s : State) (sw : Vector Word 8) : (s.writeLimbLow sw).fcode = s.fcode := rfl
@[simp] theorem State.writeLimbLow_faultcmd (s : State) (sw : Vector Word 8) : (s.writeLimbLow sw).faultcmd = s.faultcmd := rfl
@[simp] theorem State.writeLimbLow_cur (s : State) (sw : Vector Word 8) : (s.writeLimbLow sw).cur = s.cur := rfl
@[simp] theorem State.writeLimbLow_left (s : State) (sw : Vector Word 8) : (s.writeLimbLow sw).left = s.left := rfl
@[simp] theorem State.writeLimbLow_host (s : State) (sw : Vector Word 8) : (s.writeLimbLow sw).host = s.host := rfl
@[simp] theorem State.writeLimbLow_rdata (s : State) (sw : Vector Word 8) : (s.writeLimbLow sw).rdata = s.rdata := rfl
@[simp] theorem State.writeLimbLow_draws (s : State) (sw : Vector Word 8) : (s.writeLimbLow sw).draws = s.draws := rfl

/-! ### writeMeta -/

@[simp] theorem State.writeMeta_freg (s : State) (v : Word) : (s.writeMeta v).freg = s.freg := rfl
@[simp] theorem State.writeMeta_sreg (s : State) (v : Word) : (s.writeMeta v).sreg = s.sreg := rfl
@[simp] theorem State.writeMeta_bufw (s : State) (v : Word) : (s.writeMeta v).bufw = s.bufw := rfl
@[simp] theorem State.writeMeta_limb (s : State) (v : Word) : (s.writeMeta v).limb = s.limb := rfl
@[simp] theorem State.writeMeta_metaw (s : State) (v : Word) : (s.writeMeta v).metaw = v &&& 0x13F := rfl
@[simp] theorem State.writeMeta_result (s : State) (v : Word) : (s.writeMeta v).result = s.result := rfl
@[simp] theorem State.writeMeta_fault (s : State) (v : Word) : (s.writeMeta v).fault = s.fault := rfl
@[simp] theorem State.writeMeta_fcode (s : State) (v : Word) : (s.writeMeta v).fcode = s.fcode := rfl
@[simp] theorem State.writeMeta_faultcmd (s : State) (v : Word) : (s.writeMeta v).faultcmd = s.faultcmd := rfl
@[simp] theorem State.writeMeta_cur (s : State) (v : Word) : (s.writeMeta v).cur = s.cur := rfl
@[simp] theorem State.writeMeta_left (s : State) (v : Word) : (s.writeMeta v).left = s.left := rfl
@[simp] theorem State.writeMeta_host (s : State) (v : Word) : (s.writeMeta v).host = s.host := rfl
@[simp] theorem State.writeMeta_rdata (s : State) (v : Word) : (s.writeMeta v).rdata = s.rdata := rfl
@[simp] theorem State.writeMeta_draws (s : State) (v : Word) : (s.writeMeta v).draws = s.draws := rfl

/-! ### clearFault -/

@[simp] theorem clearFault_freg (s : State) : (clearFault s).freg = s.freg := rfl
@[simp] theorem clearFault_sreg (s : State) : (clearFault s).sreg = s.sreg := rfl
@[simp] theorem clearFault_bufw (s : State) : (clearFault s).bufw = s.bufw := rfl
@[simp] theorem clearFault_limb (s : State) : (clearFault s).limb = s.limb := rfl
@[simp] theorem clearFault_metaw (s : State) : (clearFault s).metaw = s.metaw := rfl
@[simp] theorem clearFault_result (s : State) : (clearFault s).result = s.result := rfl
@[simp] theorem clearFault_fault (s : State) : (clearFault s).fault = false := rfl
@[simp] theorem clearFault_fcode (s : State) : (clearFault s).fcode = 0 := rfl
@[simp] theorem clearFault_faultcmd (s : State) : (clearFault s).faultcmd = 0 := rfl
@[simp] theorem clearFault_cur (s : State) : (clearFault s).cur = s.cur := rfl
@[simp] theorem clearFault_left (s : State) : (clearFault s).left = s.left := rfl
@[simp] theorem clearFault_host (s : State) : (clearFault s).host = s.host := rfl
@[simp] theorem clearFault_rdata (s : State) : (clearFault s).rdata = s.rdata := rfl
@[simp] theorem clearFault_draws (s : State) : (clearFault s).draws = s.draws := rfl

/-! ### complete -/

@[simp] theorem complete_freg (s : State) : (complete s).freg = s.freg := rfl
@[simp] theorem complete_sreg (s : State) : (complete s).sreg = s.sreg := rfl
@[simp] theorem complete_bufw (s : State) : (complete s).bufw = s.bufw := rfl
@[simp] theorem complete_limb (s : State) : (complete s).limb = s.limb := rfl
@[simp] theorem complete_metaw (s : State) : (complete s).metaw = s.metaw := rfl
@[simp] theorem complete_result (s : State) : (complete s).result = s.result := rfl
@[simp] theorem complete_fault (s : State) : (complete s).fault = s.fault := rfl
@[simp] theorem complete_fcode (s : State) : (complete s).fcode = s.fcode := rfl
@[simp] theorem complete_faultcmd (s : State) : (complete s).faultcmd = s.faultcmd := rfl
@[simp] theorem complete_cur (s : State) : (complete s).cur = none := rfl
@[simp] theorem complete_left (s : State) : (complete s).left = 0 := rfl
@[simp] theorem complete_host (s : State) : (complete s).host = s.host := rfl
@[simp] theorem complete_rdata (s : State) : (complete s).rdata = s.rdata := rfl
@[simp] theorem complete_draws (s : State) : (complete s).draws = s.draws := rfl

/-! ### accept -/

@[simp] theorem accept_freg (w : Word) (s : State) : (accept w s).freg = s.freg := rfl
@[simp] theorem accept_sreg (w : Word) (s : State) : (accept w s).sreg = s.sreg := rfl
@[simp] theorem accept_bufw (w : Word) (s : State) : (accept w s).bufw = s.bufw := rfl
@[simp] theorem accept_limb (w : Word) (s : State) : (accept w s).limb = s.limb := rfl
@[simp] theorem accept_metaw (w : Word) (s : State) : (accept w s).metaw = s.metaw := rfl
@[simp] theorem accept_result (w : Word) (s : State) : (accept w s).result = s.result := rfl
@[simp] theorem accept_fault (w : Word) (s : State) : (accept w s).fault = s.fault := rfl
@[simp] theorem accept_fcode (w : Word) (s : State) : (accept w s).fcode = s.fcode := rfl
@[simp] theorem accept_faultcmd (w : Word) (s : State) : (accept w s).faultcmd = s.faultcmd := rfl
@[simp] theorem accept_cur (w : Word) (s : State) : (accept w s).cur = some w := rfl
@[simp] theorem accept_left (w : Word) (s : State) : (accept w s).left = latency w s - 1 := rfl
@[simp] theorem accept_host (w : Word) (s : State) : (accept w s).host = s.host := rfl
@[simp] theorem accept_rdata (w : Word) (s : State) : (accept w s).rdata = s.rdata := rfl
@[simp] theorem accept_draws (w : Word) (s : State) : (accept w s).draws = s.draws := rfl

/-! ### withFetchWord -/

@[simp] theorem State.withFetchWord_freg (s : State) (nbits w : Nat) : (s.withFetchWord nbits w).freg = s.freg := rfl
@[simp] theorem State.withFetchWord_sreg (s : State) (nbits w : Nat) : (s.withFetchWord nbits w).sreg = s.sreg := rfl
@[simp] theorem State.withFetchWord_bufw (s : State) (nbits w : Nat) : (s.withFetchWord nbits w).bufw = s.bufw := rfl
@[simp] theorem State.withFetchWord_limb (s : State) (nbits w : Nat) : (s.withFetchWord nbits w).limb = s.limb := rfl
@[simp] theorem State.withFetchWord_metaw (s : State) (nbits w : Nat) : (s.withFetchWord nbits w).metaw = s.metaw := rfl
@[simp] theorem State.withFetchWord_result (s : State) (nbits w : Nat) : (s.withFetchWord nbits w).result = s.result := rfl
@[simp] theorem State.withFetchWord_fault (s : State) (nbits w : Nat) : (s.withFetchWord nbits w).fault = s.fault := rfl
@[simp] theorem State.withFetchWord_fcode (s : State) (nbits w : Nat) : (s.withFetchWord nbits w).fcode = s.fcode := rfl
@[simp] theorem State.withFetchWord_faultcmd (s : State) (nbits w : Nat) : (s.withFetchWord nbits w).faultcmd = s.faultcmd := rfl
@[simp] theorem State.withFetchWord_cur (s : State) (nbits w : Nat) : (s.withFetchWord nbits w).cur = some (tableWord nbits w) := rfl
@[simp] theorem State.withFetchWord_left (s : State) (nbits w : Nat) : (s.withFetchWord nbits w).left = 0 := rfl
@[simp] theorem State.withFetchWord_host (s : State) (nbits w : Nat) : (s.withFetchWord nbits w).host = s.host := rfl
@[simp] theorem State.withFetchWord_rdata (s : State) (nbits w : Nat) : (s.withFetchWord nbits w).rdata = s.rdata := rfl
@[simp] theorem State.withFetchWord_draws (s : State) (nbits w : Nat) : (s.withFetchWord nbits w).draws = s.draws := rfl

/-! ### takeFault -/

@[simp] theorem takeFault_freg (c : FaultCode) (s : State) : (takeFault c s).freg = s.freg := by unfold takeFault; split <;> rfl
@[simp] theorem takeFault_sreg (c : FaultCode) (s : State) : (takeFault c s).sreg = s.sreg := by unfold takeFault; split <;> rfl
@[simp] theorem takeFault_bufw (c : FaultCode) (s : State) : (takeFault c s).bufw = s.bufw := by unfold takeFault; split <;> rfl
@[simp] theorem takeFault_limb (c : FaultCode) (s : State) : (takeFault c s).limb = s.limb := by unfold takeFault; split <;> rfl
@[simp] theorem takeFault_metaw (c : FaultCode) (s : State) : (takeFault c s).metaw = s.metaw := by unfold takeFault; split <;> rfl
@[simp] theorem takeFault_result (c : FaultCode) (s : State) : (takeFault c s).result = s.result := by unfold takeFault; split <;> rfl
@[simp] theorem takeFault_cur (c : FaultCode) (s : State) : (takeFault c s).cur = s.cur := by unfold takeFault; split <;> rfl
@[simp] theorem takeFault_left (c : FaultCode) (s : State) : (takeFault c s).left = s.left := by unfold takeFault; split <;> rfl
@[simp] theorem takeFault_host (c : FaultCode) (s : State) : (takeFault c s).host = s.host := by unfold takeFault; split <;> rfl
@[simp] theorem takeFault_rdata (c : FaultCode) (s : State) : (takeFault c s).rdata = s.rdata := by unfold takeFault; split <;> rfl
@[simp] theorem takeFault_draws (c : FaultCode) (s : State) : (takeFault c s).draws = s.draws := by unfold takeFault; split <;> rfl

@[simp] theorem takeFault_fault (c : FaultCode) (s : State) : (takeFault c s).fault = true := by
  unfold takeFault; split <;> simp_all

/-! ### resetEvent -/

@[simp] theorem resetEvent_freg (s : State) : (resetEvent s).freg = State.reset.freg := rfl
@[simp] theorem resetEvent_sreg (s : State) : (resetEvent s).sreg = State.reset.sreg := rfl
@[simp] theorem resetEvent_bufw (s : State) : (resetEvent s).bufw = State.reset.bufw := rfl
@[simp] theorem resetEvent_limb (s : State) : (resetEvent s).limb = State.reset.limb := rfl
@[simp] theorem resetEvent_metaw (s : State) : (resetEvent s).metaw = State.reset.metaw := rfl
@[simp] theorem resetEvent_result (s : State) : (resetEvent s).result = State.reset.result := rfl
@[simp] theorem resetEvent_fault (s : State) : (resetEvent s).fault = State.reset.fault := rfl
@[simp] theorem resetEvent_fcode (s : State) : (resetEvent s).fcode = State.reset.fcode := rfl
@[simp] theorem resetEvent_faultcmd (s : State) : (resetEvent s).faultcmd = State.reset.faultcmd := rfl
@[simp] theorem resetEvent_cur (s : State) : (resetEvent s).cur = State.reset.cur := rfl
@[simp] theorem resetEvent_left (s : State) : (resetEvent s).left = State.reset.left := rfl
@[simp] theorem resetEvent_host (s : State) : (resetEvent s).host = s.host := rfl
@[simp] theorem resetEvent_rdata (s : State) : (resetEvent s).rdata = s.rdata := rfl
@[simp] theorem resetEvent_draws (s : State) : (resetEvent s).draws = s.draws := rfl

/-! ### busRead -/

@[simp] theorem busRead_freg (off : Nat) (s : State) : (busRead off s).freg = s.freg := by unfold busRead; split <;> rfl
@[simp] theorem busRead_sreg (off : Nat) (s : State) : (busRead off s).sreg = s.sreg := by unfold busRead; split <;> rfl
@[simp] theorem busRead_bufw (off : Nat) (s : State) : (busRead off s).bufw = s.bufw := by unfold busRead; split <;> rfl
@[simp] theorem busRead_limb (off : Nat) (s : State) : (busRead off s).limb = s.limb := by unfold busRead; split <;> rfl
@[simp] theorem busRead_metaw (off : Nat) (s : State) : (busRead off s).metaw = s.metaw := by unfold busRead; split <;> rfl
@[simp] theorem busRead_result (off : Nat) (s : State) : (busRead off s).result = s.result := by unfold busRead; split <;> rfl
@[simp] theorem busRead_fault (off : Nat) (s : State) : (busRead off s).fault = s.fault := by unfold busRead; split <;> rfl
@[simp] theorem busRead_fcode (off : Nat) (s : State) : (busRead off s).fcode = s.fcode := by unfold busRead; split <;> rfl
@[simp] theorem busRead_faultcmd (off : Nat) (s : State) : (busRead off s).faultcmd = s.faultcmd := by unfold busRead; split <;> rfl
@[simp] theorem busRead_cur (off : Nat) (s : State) : (busRead off s).cur = s.cur := by unfold busRead; split <;> rfl
@[simp] theorem busRead_left (off : Nat) (s : State) : (busRead off s).left = s.left := by unfold busRead; split <;> rfl
@[simp] theorem busRead_host (off : Nat) (s : State) : (busRead off s).host = s.host := by unfold busRead; split <;> rfl

end Sys2Proof.Machine
end

