-- ==== Sys2Proof/Laws/Ops.lean ====
section
/-! SUPPORT. What the shared operations can do, said once each: register writes, fault entry, running a command's rule,
reading operands. -/

namespace Sys2Proof.Machine

/-! ### Registers -/

theorem State.writeF_freg_get (s : State) (i j : FieldIx) (r : FieldRec) :
    (s.writeF i r).freg[j] = if i = j then { toFieldRec := r, w := true } else s.freg[j] := by
  simp [Vector.getElem_set, Fin.ext_iff]

theorem State.writeLimbs_freg_get (s : State) (i j : FieldIx) (n : Vector Word 10) :
    (s.writeLimbs i n).freg[j] = if i = j then { s.freg[i] with n := n } else s.freg[j] := by
  simp [Vector.getElem_set, Fin.ext_iff]

theorem State.writeS_sreg_get (s : State) (i j : StorIx) (sw : Vector Word 8) :
    (s.writeS i sw).sreg[j] = if i = j then { sw := sw, w := true } else s.sreg[j] := by
  simp [Vector.getElem_set, Fin.ext_iff]

theorem State.writeF_eq_afterF (s : State) (i : FieldIx) (r : FieldRec) : s.writeF i r = s.afterF i r := rfl

theorem State.writeS_eq_afterS (s : State) (j : StorIx) (sw : Vector Word 8) : s.writeS j sw = s.afterS j sw := rfl

/-- Writing back the record a written register holds changes nothing. -/
theorem State.writeF_self (s : State) (i : FieldIx) (h : s.freg[i].w = true) :
    s.writeF i s.freg[i].toFieldRec = s := by
  have : ({ toFieldRec := s.freg[i].toFieldRec, w := true } : FieldReg) = s.freg[i] := by rw [← h]
  simp only [State.writeF, this]
  simp

theorem State.writeS_self (s : State) (j : StorIx) (h : s.sreg[j].w = true) : s.writeS j s.sreg[j].sw = s := by
  have : ({ sw := s.sreg[j].sw, w := true } : StorReg) = s.sreg[j] := by rw [← h]
  simp only [State.writeS, this]
  simp

/-! ### Fault entry -/

theorem takeFault_eq_afterFault (c : FaultCode) (s : State) : takeFault c s = s.afterFault c.code := rfl

/-- A fault while FAULT = 1 is not recorded (60_exceptions.md R226). -/
theorem takeFault_of_fault (c : FaultCode) (s : State) (h : s.fault = true) : takeFault c s = s := by
  simp [takeFault, h]

/-- The first fault is recorded (60_exceptions.md R221). -/
theorem takeFault_of_no_fault (c : FaultCode) (s : State) (h : s.fault = false) :
    takeFault c s = { s with fault := true, fcode := c.code, faultcmd := s.cur.getD 0 } := by
  simp [takeFault, h]

theorem FaultCode.code_range (c : FaultCode) : 1 ≤ c.code.toNat ∧ c.code.toNat ≤ 7 := by cases c <;> decide

/-! ### Running a command's rule -/

@[simp] theorem runCommand_ok (s t : State) : runCommand s (.ok t) = .next t := rfl

@[simp] theorem runCommand_pure (s t : State) : runCommand s (pure t) = .next t := rfl

@[simp] theorem runCommand_error (s : State) (e : FaultCode) : runCommand s (.error e) = .next (takeFault e s) := rfl

/-- A command either completes with its rule's writes or enters a fault (60_exceptions.md R220, R221). -/
theorem runCommand_cases {s t : State} {c : Except FaultCode State} (h : runCommand s c = .next t) :
    c = .ok t ∨ ∃ e, c = .error e ∧ t = takeFault e s := by
  cases c with
  | ok u => left; simpa using h
  | error e => right; exact ⟨e, rfl, by simpa using h.symm⟩

/-- A command never stops the machine. -/
theorem runCommand_next (s : State) (c : Except FaultCode State) : ∃ t, runCommand s c = .next t := by
  cases c with
  | ok u => exact ⟨u, rfl⟩
  | error e => exact ⟨takeFault e s, rfl⟩

/-- The rule of a command, read apart: the first part answers and the rest goes on from its answer. -/
theorem bind_eq_ok {α β : Type} {x : Except FaultCode α} {f : α → Except FaultCode β} {b : β} :
    (x >>= f) = .ok b ↔ ∃ a, x = .ok a ∧ f a = .ok b := by
  cases x <;> simp [bind, Except.bind]

@[simp] theorem ok_bind {α β : Type} (a : α) (f : α → Except FaultCode β) : (Except.ok a >>= f) = f a := rfl

@[simp] theorem error_bind {α β : Type} (e : FaultCode) (f : α → Except FaultCode β) :
    ((Except.error e : Except FaultCode α) >>= f) = .error e := rfl

/-! ### Checks and operands -/

@[simp] theorem require_true (c : FaultCode) : require true c = .ok () := rfl

@[simp] theorem require_false (c : FaultCode) : require false c = .error c := rfl

theorem require_eq_ok {b : Bool} {c : FaultCode} {u : Unit} : require b c = .ok u ↔ b = true := by
  cases b <;> simp

@[simp] theorem pure_eq_ok {α : Type} (a : α) : (pure a : Except FaultCode α) = .ok a := rfl

/-- F[i] answers a raw read exactly when it is written. -/
theorem readFRaw_eq_ok {s : State} {i : FieldIx} {r : FieldRec} :
    readFRaw s i = .ok r ↔ s.freg[i].w = true ∧ r = s.freg[i].toFieldRec := by
  simp only [readFRaw, bind_eq_ok, require_eq_ok, pure_eq_ok, Except.ok.injEq, exists_const, @eq_comm _ r]

/-- F[i] answers as a source operand exactly when it is readable (10_state.md R36). -/
theorem readF_eq_ok {s : State} {i : FieldIx} {r : FieldRec} :
    readF s i = .ok r ↔ s.readable i ∧ r = s.freg[i].toFieldRec := by
  simp only [readF, bind_eq_ok, readFRaw_eq_ok, require_eq_ok, pure_eq_ok, Except.ok.injEq, exists_const]
  constructor
  · rintro ⟨a, ⟨hw, rfl⟩, hv, rfl⟩; exact ⟨⟨hw, hv⟩, rfl⟩
  · rintro ⟨⟨hw, hv⟩, rfl⟩; exact ⟨_, ⟨hw, rfl⟩, hv, rfl⟩

theorem readF_of_readable {s : State} {i : FieldIx} (h : s.readable i) : readF s i = .ok s.freg[i].toFieldRec :=
  readF_eq_ok.2 ⟨h, rfl⟩

theorem readFRaw_of_written {s : State} {i : FieldIx} (h : s.freg[i].w = true) :
    readFRaw s i = .ok s.freg[i].toFieldRec := readFRaw_eq_ok.2 ⟨h, rfl⟩

theorem readFRaw_of_unwritten {s : State} {i : FieldIx} (h : s.freg[i].w = false) :
    readFRaw s i = .error .unwritten := by
  simp only [readFRaw, h]; rfl

theorem readF_of_unwritten {s : State} {i : FieldIx} (h : s.freg[i].w = false) : readF s i = .error .unwritten := by
  simp only [readF, readFRaw_of_unwritten h]; rfl

theorem readF_of_broken {s : State} {i : FieldIx} (h : s.freg[i].w = true) (hv : verify s.freg[i].toFieldRec = false) :
    readF s i = .error .invariant := by
  simp only [readF, readFRaw_of_written h, ok_bind, hv]; rfl

/-- S[j] answers as a source operand exactly when it is written (10_state.md R39). -/
theorem readS_eq_ok {s : State} {j : StorIx} {sw : Vector Word 8} :
    readS s j = .ok sw ↔ s.sreg[j].w = true ∧ sw = s.sreg[j].sw := by
  simp only [readS, bind_eq_ok, require_eq_ok, pure_eq_ok, Except.ok.injEq, exists_const, @eq_comm _ sw]

theorem readS_of_written {s : State} {j : StorIx} (h : s.sreg[j].w = true) : readS s j = .ok s.sreg[j].sw :=
  readS_eq_ok.2 ⟨h, rfl⟩

theorem readS_of_unwritten {s : State} {j : StorIx} (h : s.sreg[j].w = false) : readS s j = .error .unwritten := by
  simp only [readS, h]; rfl

theorem readNormalized_eq_ok {s : State} {i : FieldIx} {r : FieldRec} :
    readNormalized s i = .ok r ↔ s.readable i ∧ s.freg[i].norm = true ∧ r = s.freg[i].toFieldRec := by
  simp only [readNormalized, bind_eq_ok, readF_eq_ok, require_eq_ok, pure_eq_ok, Except.ok.injEq, exists_const]
  constructor
  · rintro ⟨a, ⟨hr, rfl⟩, hn, rfl⟩; exact ⟨hr, hn, rfl⟩
  · rintro ⟨hr, hn, rfl⟩; exact ⟨_, ⟨hr, rfl⟩, hn, rfl⟩

theorem readFactor_eq_ok {s : State} {i : FieldIx} {r : FieldRec} :
    readFactor s i = .ok r ↔ s.factor i ∧ r = s.freg[i].toFieldRec := by
  simp only [readFactor, bind_eq_ok, readF_eq_ok, require_eq_ok, pure_eq_ok, Except.ok.injEq, exists_const,
    decide_eq_true_eq]
  constructor
  · rintro ⟨a, ⟨hr, rfl⟩, hm, rfl⟩; exact ⟨⟨hr, hm⟩, rfl⟩
  · rintro ⟨⟨hr, hm⟩, rfl⟩; exact ⟨_, ⟨hr, rfl⟩, hm, rfl⟩

end Sys2Proof.Machine
end

