-- ==== Sys2Proof/Laws/Limbs.lean ====
section
/-! SUPPORT. The small lemmas of limb vectors: values, bounds, words and back, slices of an integer, the test for p. -/

namespace Sys2Proof.Machine

/-! ### Constants -/

theorem M26_eq : M26 = 2 ^ 26 - 1 := rfl

theorem M22_eq : M22 = 2 ^ 22 - 1 := rfl

theorem and_M26 (x : Nat) : x &&& M26 = x % 2 ^ 26 := by rw [M26_eq, Nat.and_two_pow_sub_one_eq_mod]

theorem and_M22 (x : Nat) : x &&& M22 = x % 2 ^ 22 := by rw [M22_eq, Nat.and_two_pow_sub_one_eq_mod]

theorem prime_eq : prime = 115792089237316195423570985008687907853269984665640564039457584007908834671663 := by
  norm_num [prime]

theorem prime_pos : 0 < prime := by norm_num [prime]

/-- 00_scope.md R10: the limb constants are p's. -/
theorem val_pLimb : val pLimb = prime := by decide

/-! ### Lists of ten limbs -/

theorem list10 {l : List Nat} (h : l.length = 10) :
    ∃ a0 a1 a2 a3 a4 a5 a6 a7 a8 a9, l = [a0, a1, a2, a3, a4, a5, a6, a7, a8, a9] := by
  match l, h with
  | [a0, a1, a2, a3, a4, a5, a6, a7, a8, a9], _ => exact ⟨a0, a1, a2, a3, a4, a5, a6, a7, a8, a9, rfl⟩

theorem length_nats {k : Nat} (v : Vector Word k) : (nats v).length = k := by simp [nats]

theorem length_limbs (r : FieldRec) : r.limbs.length = 10 := length_nats r.n

theorem lim_nats {k : Nat} (v : Vector Word k) (i : Nat) (h : i < k) : lim (nats v) i = v[i].toNat := by
  simp [lim, nats, List.getD, h]

theorem lim_limbs (r : FieldRec) (i : Nat) (h : i < 10) : lim r.limbs i = r.n[i].toNat := lim_nats r.n i h

theorem lim_limbs_lt (r : FieldRec) (i : Nat) : lim r.limbs i < 2 ^ 32 := by
  by_cases h : i < 10
  · rw [lim_limbs r i h]; exact r.n[i].isLt
  · simp [lim, List.getD, length_limbs, Nat.not_lt.1 h]

theorem lim_cons_zero (a : Nat) (l : List Nat) : lim (a :: l) 0 = a := rfl

theorem lim_cons_succ (a : Nat) (l : List Nat) (i : Nat) : lim (a :: l) (i + 1) = lim l i := by simp [lim]

theorem toLimbs_get (l : List Nat) (i : Nat) (h : i < 10) : (toLimbs l)[i] = BitVec.ofNat 32 (lim l i) := by
  interval_cases i <;> rfl

/-- Storing limbs that fit in 32 bits and reading them back gives the limbs. -/
theorem nats_toLimbs {l : List Nat} (hl : l.length = 10) (h : ∀ i < 10, lim l i < 2 ^ 32) : nats (toLimbs l) = l := by
  obtain ⟨a0, a1, a2, a3, a4, a5, a6, a7, a8, a9, rfl⟩ := list10 hl
  have h0 := h 0 (by omega); have h1 := h 1 (by omega); have h2 := h 2 (by omega); have h3 := h 3 (by omega)
  have h4 := h 4 (by omega); have h5 := h 5 (by omega); have h6 := h 6 (by omega); have h7 := h 7 (by omega)
  have h8 := h 8 (by omega); have h9 := h 9 (by omega)
  simp only [lim, List.getD_cons_zero, List.getD_cons_succ] at h0 h1 h2 h3 h4 h5 h6 h7 h8 h9
  simp [nats, toLimbs, lim]
  omega

/-- Writing a record's own limbs gives its limb words. -/
theorem toLimbs_limbs (r : FieldRec) : toLimbs r.limbs = r.n := by
  ext i hi
  rw [toLimbs_get _ _ hi, lim_limbs r i hi]; simp

theorem limbs_ofLimbs {l : List Nat} (m : Nat) (b : Bool) (hl : l.length = 10) (h : ∀ i < 10, lim l i < 2 ^ 32) :
    (FieldRec.ofLimbs l m b).limbs = l := nats_toLimbs hl h

@[simp] theorem ofLimbs_mag (l : List Nat) (m : Nat) (b : Bool) : (FieldRec.ofLimbs l m b).mag = m := rfl

@[simp] theorem ofLimbs_norm (l : List Nat) (m : Nat) (b : Bool) : (FieldRec.ofLimbs l m b).norm = b := rfl

/-! ### The representation invariant -/

/-- `Verify` read as the conjunction of 10_state.md R34. -/
theorem verify_iff (r : FieldRec) : verify r = true ↔
    (∀ i < 9, lim r.limbs i ≤ M26 * r.bound) ∧ lim r.limbs 9 ≤ M22 * r.bound ∧ r.mag ≤ 32 ∧
      (r.norm = true → r.mag ≤ 1 ∧ r.val < prime) := by
  have key : ((r.limbs.take 9).all fun x => decide (x ≤ M26 * r.bound)) = true ↔
      ∀ i < 9, lim r.limbs i ≤ M26 * r.bound := by
    obtain ⟨a0, a1, a2, a3, a4, a5, a6, a7, a8, a9, hl⟩ := list10 (length_limbs r)
    rw [hl]
    constructor
    · intro h i hi
      simp only [List.take_succ_cons, List.take_zero, List.all_cons, List.all_nil, Bool.and_true, Bool.and_eq_true,
        decide_eq_true_eq] at h
      obtain ⟨h0, h1, h2, h3, h4, h5, h6, h7, h8⟩ := h
      interval_cases i <;> simpa [lim]
    · intro h
      have h0 := h 0 (by omega); have h1 := h 1 (by omega); have h2 := h 2 (by omega); have h3 := h 3 (by omega)
      have h4 := h 4 (by omega); have h5 := h 5 (by omega); have h6 := h 6 (by omega); have h7 := h 7 (by omega)
      have h8 := h 8 (by omega)
      simp only [lim, List.getD_cons_zero, List.getD_cons_succ] at h0 h1 h2 h3 h4 h5 h6 h7 h8
      simp [*]
  unfold verify
  simp only [Bool.and_eq_true, Bool.or_eq_true, Bool.not_eq_true', decide_eq_true_eq, key]
  cases r.norm <;> simp [and_assoc]

/-- The limb bounds every readable register meets: 10_state.md R34 with mag ≤ 32. -/
theorem verify_bounds {r : FieldRec} (h : verify r = true) :
    r.mag ≤ 32 ∧ (∀ i < 9, lim r.limbs i ≤ M26 * (2 * r.mag)) ∧ lim r.limbs 9 ≤ M22 * (2 * r.mag) := by
  obtain ⟨h1, h2, h3, _⟩ := (verify_iff r).1 h
  have hb : r.bound ≤ 2 * r.mag := by unfold FieldRec.bound; split <;> omega
  exact ⟨h3, fun i hi => (h1 i hi).trans (Nat.mul_le_mul_left _ hb), h2.trans (Nat.mul_le_mul_left _ hb)⟩

/-- A canonical record satisfies `Verify`. -/
theorem verify_of_canonical {r : FieldRec} (h : r.canonical) : verify r = true := by
  obtain ⟨h1, h2, h3, h4, h5⟩ := h
  rw [verify_iff]
  have hb : r.bound = 1 := by simp [FieldRec.bound, h4, h5]
  rw [hb, Nat.mul_one, Nat.mul_one]
  exact ⟨h1, h2, by omega, fun _ => ⟨by omega, h3⟩⟩

/-- A normalized record that satisfies `Verify` has the canonical limbs (10_state.md R32). -/
theorem canonical_of_norm {r : FieldRec} (h : verify r = true) (hn : r.norm = true) :
    (∀ i < 9, lim r.limbs i ≤ M26) ∧ lim r.limbs 9 ≤ M22 ∧ r.val < prime := by
  obtain ⟨h1, h2, _, h4⟩ := (verify_iff r).1 h
  obtain ⟨hm, hv⟩ := h4 hn
  have hb : r.bound ≤ 1 := by simp [FieldRec.bound, hn]; omega
  refine ⟨fun i hi => (h1 i hi).trans ?_, h2.trans ?_, hv⟩
  · calc M26 * r.bound ≤ M26 * 1 := Nat.mul_le_mul_left _ hb
      _ = M26 := Nat.mul_one _
  · calc M22 * r.bound ≤ M22 * 1 := Nat.mul_le_mul_left _ hb
      _ = M22 := Nat.mul_one _

/-! ### Values -/

theorem val_ten (a0 a1 a2 a3 a4 a5 a6 a7 a8 a9 : Nat) :
    val [a0, a1, a2, a3, a4, a5, a6, a7, a8, a9] =
      a0 + a1 * 2 ^ 26 + a2 * 2 ^ 52 + a3 * 2 ^ 78 + a4 * 2 ^ 104 + a5 * 2 ^ 130 + a6 * 2 ^ 156 + a7 * 2 ^ 182
        + a8 * 2 ^ 208 + a9 * 2 ^ 234 := by
  simp only [val]; ring

/-- `val` as the sum of 00_scope.md R12. -/
theorem val_eq_sum {l : List Nat} (h : l.length = 10) :
    val l = lim l 0 + lim l 1 * 2 ^ 26 + lim l 2 * 2 ^ 52 + lim l 3 * 2 ^ 78 + lim l 4 * 2 ^ 104 + lim l 5 * 2 ^ 130
      + lim l 6 * 2 ^ 156 + lim l 7 * 2 ^ 182 + lim l 8 * 2 ^ 208 + lim l 9 * 2 ^ 234 := by
  obtain ⟨a0, a1, a2, a3, a4, a5, a6, a7, a8, a9, rfl⟩ := list10 h
  rw [val_ten]; rfl

/-- Limbs within 26 bits (22 for the last) hold a value below 2^256. -/
theorem val_lt_of_bounds {l : List Nat} (h : l.length = 10) (hb : ∀ i < 9, lim l i ≤ M26) (h9 : lim l 9 ≤ M22) :
    val l < 2 ^ 256 := by
  rw [val_eq_sum h]
  have h0 := hb 0 (by omega); have h1 := hb 1 (by omega); have h2 := hb 2 (by omega); have h3 := hb 3 (by omega)
  have h4 := hb 4 (by omega); have h5 := hb 5 (by omega); have h6 := hb 6 (by omega); have h7 := hb 7 (by omega)
  have h8 := hb 8 (by omega)
  simp only [M26, M22] at *
  omega

/-! ### Slices of a 256-bit integer -/

theorem length_slice26 (v : Nat) : (slice26 v).length = 10 := rfl

theorem slice26_le (v : Nat) (i : Nat) (h : i < 9) : lim (slice26 v) i ≤ M26 := by
  interval_cases i <;> exact Nat.and_le_right

theorem slice26_top (v : Nat) (h : v < 2 ^ 256) : lim (slice26 v) 9 ≤ M22 := by
  change v >>> 234 ≤ M22
  rw [Nat.shiftRight_eq_div_pow, M22]; omega

/-- Limb i of the slices of v is bits 26i + 25 down to 26i (41_serialization.md R120). -/
theorem lim_slice26 (v : Nat) (i : Nat) (h : i < 9) : lim (slice26 v) i = v / 2 ^ (26 * i) % 2 ^ 26 := by
  interval_cases i <;> simp [slice26, lim, and_M26, Nat.shiftRight_eq_div_pow]

theorem lim_slice26_top (v : Nat) : lim (slice26 v) 9 = v / 2 ^ 234 := by
  change v >>> 234 = _
  rw [Nat.shiftRight_eq_div_pow]

theorem slice_join (v a b : Nat) (h : b = a * 2 ^ 26) : v / a % 2 ^ 26 + 2 ^ 26 * (v / b) = v / a := by
  rw [h, ← Nat.div_div_eq_div_mul, Nat.mod_add_div]

/-- The slices of an integer hold it. -/
theorem val_slice26 (v : Nat) : val (slice26 v) = v := by
  simp only [slice26, val, and_M26, Nat.shiftRight_eq_div_pow, Nat.mul_zero, Nat.add_zero]
  rw [slice_join v (2 ^ 208) (2 ^ 234) (by norm_num), slice_join v (2 ^ 182) (2 ^ 208) (by norm_num),
    slice_join v (2 ^ 156) (2 ^ 182) (by norm_num), slice_join v (2 ^ 130) (2 ^ 156) (by norm_num),
    slice_join v (2 ^ 104) (2 ^ 130) (by norm_num), slice_join v (2 ^ 78) (2 ^ 104) (by norm_num),
    slice_join v (2 ^ 52) (2 ^ 78) (by norm_num), slice_join v (2 ^ 26) (2 ^ 52) (by norm_num), Nat.mod_add_div]

theorem val_cons_mod {x : Nat} (xs : List Nat) (h : x ≤ M26) : val (x :: xs) % 2 ^ 26 = x := by
  rw [val, Nat.add_mul_mod_self_left, Nat.mod_eq_of_lt (by simp only [M26] at h; omega)]

theorem val_cons_div {x v a b : Nat} {xs : List Nat} (h : x ≤ M26) (hv : v / a = val (x :: xs))
    (hb : b = a * 2 ^ 26) : v / b = val xs := by
  rw [hb, ← Nat.div_div_eq_div_mul, hv, val, Nat.add_mul_div_left _ _ (by norm_num),
    Nat.div_eq_of_lt (by simp only [M26] at h; omega), Nat.zero_add]

/-- Canonical-width limbs are the slices of their value. -/
theorem slice26_val {l : List Nat} (h : l.length = 10) (hb : ∀ i < 9, lim l i ≤ M26) : slice26 (val l) = l := by
  obtain ⟨a0, a1, a2, a3, a4, a5, a6, a7, a8, a9, rfl⟩ := list10 h
  have h0 := hb 0 (by omega); have h1 := hb 1 (by omega); have h2 := hb 2 (by omega); have h3 := hb 3 (by omega)
  have h4 := hb 4 (by omega); have h5 := hb 5 (by omega); have h6 := hb 6 (by omega); have h7 := hb 7 (by omega)
  have h8 := hb 8 (by omega)
  simp only [lim, List.getD_cons_zero, List.getD_cons_succ] at h0 h1 h2 h3 h4 h5 h6 h7 h8
  generalize hv : val [a0, a1, a2, a3, a4, a5, a6, a7, a8, a9] = v
  have d0 : v / 1 = val [a0, a1, a2, a3, a4, a5, a6, a7, a8, a9] := by rw [Nat.div_one, hv]
  have d1 : v / 2 ^ 26 = val [a1, a2, a3, a4, a5, a6, a7, a8, a9] := val_cons_div h0 d0 (by norm_num)
  have d2 : v / 2 ^ 52 = val [a2, a3, a4, a5, a6, a7, a8, a9] := val_cons_div h1 d1 (by norm_num)
  have d3 : v / 2 ^ 78 = val [a3, a4, a5, a6, a7, a8, a9] := val_cons_div h2 d2 (by norm_num)
  have d4 : v / 2 ^ 104 = val [a4, a5, a6, a7, a8, a9] := val_cons_div h3 d3 (by norm_num)
  have d5 : v / 2 ^ 130 = val [a5, a6, a7, a8, a9] := val_cons_div h4 d4 (by norm_num)
  have d6 : v / 2 ^ 156 = val [a6, a7, a8, a9] := val_cons_div h5 d5 (by norm_num)
  have d7 : v / 2 ^ 182 = val [a7, a8, a9] := val_cons_div h6 d6 (by norm_num)
  have d8 : v / 2 ^ 208 = val [a8, a9] := val_cons_div h7 d7 (by norm_num)
  have d9 : v / 2 ^ 234 = val [a9] := val_cons_div h8 d8 (by norm_num)
  simp only [slice26, and_M26, Nat.shiftRight_eq_div_pow, d1, d2, d3, d4, d5, d6, d7, d8, d9, val_cons_mod _ h1,
    val_cons_mod _ h2, val_cons_mod _ h3, val_cons_mod _ h4, val_cons_mod _ h5, val_cons_mod _ h6, val_cons_mod _ h7,
    val_cons_mod _ h8]
  rw [← hv, val_cons_mod _ h0]
  simp [val]

/-- Limbs within their widths are determined by their value. -/
theorem eq_of_val_eq {l k : List Nat} (hl : l.length = 10) (hk : k.length = 10) (hbl : ∀ i < 9, lim l i ≤ M26)
    (hbk : ∀ i < 9, lim k i ≤ M26) (h : val l = val k) : l = k := by
  rw [← slice26_val hl hbl, ← slice26_val hk hbk, h]

/-! ### The test for p -/

/-- The AND of limbs 2 to 8 is all ones exactly when each is, for limbs within 26 bits. -/
theorem andMid_eq_iff {l : List Nat} (hb : ∀ i < 9, lim l i ≤ M26) :
    andMid l = M26 ↔ ∀ i, 2 ≤ i → i < 9 → lim l i = M26 := by
  constructor
  · intro h
    have hle : ∀ x y : Nat, x &&& y = M26 → M26 ≤ x ∧ M26 ≤ y := fun x y e =>
      ⟨e ▸ Nat.and_le_left, e ▸ Nat.and_le_right⟩
    unfold andMid at h
    have e8 : lim l 8 = M26 := le_antisymm (hb 8 (by omega)) (hle _ _ h).2
    have e7 : lim l 7 = M26 := by
      have := (hle _ _ h).1; exact le_antisymm (hb 7 (by omega)) (this.trans Nat.and_le_right)
    have e6 : lim l 6 = M26 := by
      have := (hle _ _ h).1; exact le_antisymm (hb 6 (by omega)) (this.trans (Nat.and_le_left.trans Nat.and_le_right))
    have e5 : lim l 5 = M26 := by
      have := (hle _ _ h).1
      exact le_antisymm (hb 5 (by omega)) (this.trans (Nat.and_le_left.trans (Nat.and_le_left.trans Nat.and_le_right)))
    have e4 : lim l 4 = M26 := by
      have := (hle _ _ h).1
      exact le_antisymm (hb 4 (by omega))
        (this.trans (Nat.and_le_left.trans (Nat.and_le_left.trans (Nat.and_le_left.trans Nat.and_le_right))))
    have e3 : lim l 3 = M26 := by
      have := (hle _ _ h).1
      exact le_antisymm (hb 3 (by omega))
        (this.trans (Nat.and_le_left.trans (Nat.and_le_left.trans (Nat.and_le_left.trans
          (Nat.and_le_left.trans Nat.and_le_right)))))
    have e2 : lim l 2 = M26 := by
      have := (hle _ _ h).1
      exact le_antisymm (hb 2 (by omega))
        (this.trans (Nat.and_le_left.trans (Nat.and_le_left.trans (Nat.and_le_left.trans
          (Nat.and_le_left.trans Nat.and_le_left)))))
    intro i h2 h9
    interval_cases i
    exacts [e2, e3, e4, e5, e6, e7, e8]
  · intro h
    unfold andMid
    rw [h 2 (by omega) (by omega), h 3 (by omega) (by omega), h 4 (by omega) (by omega), h 5 (by omega) (by omega),
      h 6 (by omega) (by omega), h 7 (by omega) (by omega), h 8 (by omega) (by omega)]
    decide

/-- 10_state.md R35: on limbs within their widths the limb test says exactly that the value is at least p. -/
theorem geP_iff {l : List Nat} (hl : l.length = 10) (hb : ∀ i < 9, lim l i ≤ M26) (h9 : lim l 9 ≤ M22) :
    geP l = true ↔ prime ≤ val l := by
  have h0 := hb 0 (by omega); have h1 := hb 1 (by omega); have h2 := hb 2 (by omega); have h3 := hb 3 (by omega)
  have h4 := hb 4 (by omega); have h5 := hb 5 (by omega); have h6 := hb 6 (by omega); have h7 := hb 7 (by omega)
  have h8 := hb 8 (by omega)
  unfold geP
  simp only [Bool.and_eq_true, beq_iff_eq, decide_eq_true_eq, andMid_eq_iff hb, val_eq_sum hl, prime_eq,
    Nat.shiftRight_eq_div_pow]
  simp only [M26, M22] at *
  constructor
  · rintro ⟨⟨e9, em⟩, hc⟩
    have e2 := em 2 (by omega) (by omega); have e3 := em 3 (by omega) (by omega)
    have e4 := em 4 (by omega) (by omega); have e5 := em 5 (by omega) (by omega)
    have e6 := em 6 (by omega) (by omega); have e7 := em 7 (by omega) (by omega)
    have e8 := em 8 (by omega) (by omega)
    omega
  · intro hp
    refine ⟨⟨by omega, ?_⟩, by omega⟩
    intro i hi hi9
    interval_cases i <;> omega

end Sys2Proof.Machine
end

