-- ==== Sys2Proof/Laws/MulCore.lean ====
section
/-! SUPPORT. What the multiply-and-reduce datapath computes (43_multiply.md R150–R156): an exact identity, the congruence
modulo p it gives, and the bounds of the output limbs. -/

namespace Sys2Proof.Machine

/-- 43_multiply.md R150: 2^260 is R1·2^26 + R0 = 0x1000003D10 and 16·p. -/
theorem two_pow_260 : (2 ^ 26) ^ 10 = 0x1000003D10 + 16 * prime := by norm_num [prime]

/-! ### Columns (R151) -/

theorem column_0 (a b : List Nat) : column a b 0 = lim a 0 * lim b 0 := by
  simp [column, List.range']

theorem column_1 (a b : List Nat) : column a b 1 = lim a 0 * lim b 1 + lim a 1 * lim b 0 := by
  simp [column, List.range']

theorem column_2 (a b : List Nat) : column a b 2 = lim a 0 * lim b 2 + lim a 1 * lim b 1 + lim a 2 * lim b 0 := by
  simp [column, List.range', Nat.add_assoc]

theorem column_3 (a b : List Nat) : column a b 3 = lim a 0 * lim b 3 + lim a 1 * lim b 2 + lim a 2 * lim b 1 + lim a 3 * lim b 0 := by
  simp [column, List.range', Nat.add_assoc]

theorem column_4 (a b : List Nat) : column a b 4 = lim a 0 * lim b 4 + lim a 1 * lim b 3 + lim a 2 * lim b 2 + lim a 3 * lim b 1 + lim a 4 * lim b 0 := by
  simp [column, List.range', Nat.add_assoc]

theorem column_5 (a b : List Nat) : column a b 5 = lim a 0 * lim b 5 + lim a 1 * lim b 4 + lim a 2 * lim b 3 + lim a 3 * lim b 2 + lim a 4 * lim b 1 + lim a 5 * lim b 0 := by
  simp [column, List.range', Nat.add_assoc]

theorem column_6 (a b : List Nat) : column a b 6 = lim a 0 * lim b 6 + lim a 1 * lim b 5 + lim a 2 * lim b 4 + lim a 3 * lim b 3 + lim a 4 * lim b 2 + lim a 5 * lim b 1 + lim a 6 * lim b 0 := by
  simp [column, List.range', Nat.add_assoc]

theorem column_7 (a b : List Nat) : column a b 7 = lim a 0 * lim b 7 + lim a 1 * lim b 6 + lim a 2 * lim b 5 + lim a 3 * lim b 4 + lim a 4 * lim b 3 + lim a 5 * lim b 2 + lim a 6 * lim b 1 + lim a 7 * lim b 0 := by
  simp [column, List.range', Nat.add_assoc]

theorem column_8 (a b : List Nat) : column a b 8 = lim a 0 * lim b 8 + lim a 1 * lim b 7 + lim a 2 * lim b 6 + lim a 3 * lim b 5 + lim a 4 * lim b 4 + lim a 5 * lim b 3 + lim a 6 * lim b 2 + lim a 7 * lim b 1 + lim a 8 * lim b 0 := by
  simp [column, List.range', Nat.add_assoc]

theorem column_9 (a b : List Nat) : column a b 9 = lim a 0 * lim b 9 + lim a 1 * lim b 8 + lim a 2 * lim b 7 + lim a 3 * lim b 6 + lim a 4 * lim b 5 + lim a 5 * lim b 4 + lim a 6 * lim b 3 + lim a 7 * lim b 2 + lim a 8 * lim b 1 + lim a 9 * lim b 0 := by
  simp [column, List.range', Nat.add_assoc]

theorem column_10 (a b : List Nat) : column a b 10 = lim a 1 * lim b 9 + lim a 2 * lim b 8 + lim a 3 * lim b 7 + lim a 4 * lim b 6 + lim a 5 * lim b 5 + lim a 6 * lim b 4 + lim a 7 * lim b 3 + lim a 8 * lim b 2 + lim a 9 * lim b 1 := by
  simp [column, List.range', Nat.add_assoc]

theorem column_11 (a b : List Nat) : column a b 11 = lim a 2 * lim b 9 + lim a 3 * lim b 8 + lim a 4 * lim b 7 + lim a 5 * lim b 6 + lim a 6 * lim b 5 + lim a 7 * lim b 4 + lim a 8 * lim b 3 + lim a 9 * lim b 2 := by
  simp [column, List.range', Nat.add_assoc]

theorem column_12 (a b : List Nat) : column a b 12 = lim a 3 * lim b 9 + lim a 4 * lim b 8 + lim a 5 * lim b 7 + lim a 6 * lim b 6 + lim a 7 * lim b 5 + lim a 8 * lim b 4 + lim a 9 * lim b 3 := by
  simp [column, List.range', Nat.add_assoc]

theorem column_13 (a b : List Nat) : column a b 13 = lim a 4 * lim b 9 + lim a 5 * lim b 8 + lim a 6 * lim b 7 + lim a 7 * lim b 6 + lim a 8 * lim b 5 + lim a 9 * lim b 4 := by
  simp [column, List.range', Nat.add_assoc]

theorem column_14 (a b : List Nat) : column a b 14 = lim a 5 * lim b 9 + lim a 6 * lim b 8 + lim a 7 * lim b 7 + lim a 8 * lim b 6 + lim a 9 * lim b 5 := by
  simp [column, List.range', Nat.add_assoc]

theorem column_15 (a b : List Nat) : column a b 15 = lim a 6 * lim b 9 + lim a 7 * lim b 8 + lim a 8 * lim b 7 + lim a 9 * lim b 6 := by
  simp [column, List.range', Nat.add_assoc]

theorem column_16 (a b : List Nat) : column a b 16 = lim a 7 * lim b 9 + lim a 8 * lim b 8 + lim a 9 * lim b 7 := by
  simp [column, List.range', Nat.add_assoc]

theorem column_17 (a b : List Nat) : column a b 17 = lim a 8 * lim b 9 + lim a 9 * lim b 8 := by
  simp [column, List.range']

theorem column_18 (a b : List Nat) : column a b 18 = lim a 9 * lim b 9 := by
  simp [column]

/-- The columns are those of the product of the two values (R151). -/
theorem columns_sum {a b : List Nat} (ha : a.length = 10) (hb : b.length = 10) :
    column a b 0 + 2 ^ 26 * (column a b 1 + 2 ^ 26 * (column a b 2 + 2 ^ 26 * (column a b 3 + 2 ^ 26 * (column a b 4 + 2 ^ 26 * (
      column a b 5 + 2 ^ 26 * (column a b 6 + 2 ^ 26 * (column a b 7 + 2 ^ 26 * (column a b 8 + 2 ^ 26 * (column a b 9 + 2 ^ 26 * (
      column a b 10 + 2 ^ 26 * (column a b 11 + 2 ^ 26 * (column a b 12 + 2 ^ 26 * (column a b 13 + 2 ^ 26 * (column a b 14 + 2 ^ 26 * (
      column a b 15 + 2 ^ 26 * (column a b 16 + 2 ^ 26 * (column a b 17 + 2 ^ 26 * (column a b 18)))))))))))))))))) = val a * val b := by
  simp only [column_0, column_1, column_2, column_3, column_4, column_5, column_6, column_7, column_8, column_9, column_10, column_11, column_12, column_13, column_14, column_15, column_16, column_17, column_18]
  obtain ⟨a0, a1, a2, a3, a4, a5, a6, a7, a8, a9, rfl⟩ := list10 ha
  obtain ⟨b0, b1, b2, b3, b4, b5, b6, b7, b8, b9, rfl⟩ := list10 hb
  simp only [lim, List.getD_cons_zero, List.getD_cons_succ, val]
  generalize 2 ^ 26 = w
  ring

/-! ### The loop -/

/-- What one step of R152 does to the accumulators: with φ = c + 0x1000003D10·d, the limb that leaves and the new φ
add up to the old φ and the two columns that enter. -/
theorem mulStep_spec (a b : List Nat) (s : MulAcc) (k : Nat) :
    ∃ t, (mulStep (fun v => v) a b s k).ts = t :: s.ts ∧ t ≤ M26 ∧
      t + 2 ^ 26 * ((mulStep (fun v => v) a b s k).c + 0x1000003D10 * (mulStep (fun v => v) a b s k).d) =
        s.c + 0x1000003D10 * s.d + column a b k + 0x1000003D10 * column a b (k + 10) := by
  refine ⟨_, rfl, Nat.and_le_right, ?_⟩
  simp only [mulStep, and_M26, Nat.shiftRight_eq_div_pow, foldR0, foldR1]
  generalize column a b k = p
  generalize column a b (k + 10) = q
  have h1 := Nat.mod_add_div (s.d + q) (2 ^ 26)
  generalize (s.d + q) % 2 ^ 26 = u at *
  generalize (s.d + q) / 2 ^ 26 = d at *
  have h2 := Nat.mod_add_div (s.c + p + u * 0x3D10) (2 ^ 26)
  omega

/-- The eight limbs that leave the loop and the φ it ends with (R152). -/
theorem mulLoop_spec (a b : List Nat) :
    ∃ t0 t1 t2 t3 t4 t5 t6 t7 f1 f2 f3 f4 f5 f6 f7 f8 : Nat,
      (mulLoop (fun v => v) a b).ts = [t7, t6, t5, t4, t3, t2, t1, t0] ∧
      (mulLoop (fun v => v) a b).c + 0x1000003D10 * (mulLoop (fun v => v) a b).d = f8 ∧
      (t0 ≤ M26 ∧ t1 ≤ M26 ∧ t2 ≤ M26 ∧ t3 ≤ M26 ∧ t4 ≤ M26 ∧ t5 ≤ M26 ∧ t6 ≤ M26 ∧ t7 ≤ M26) ∧
      t0 + 2 ^ 26 * f1 = 0x1000003D10 * (column a b 9 / 2 ^ 26) + column a b 0 + 0x1000003D10 * column a b 10 ∧
      t1 + 2 ^ 26 * f2 = f1 + column a b 1 + 0x1000003D10 * column a b 11 ∧
      t2 + 2 ^ 26 * f3 = f2 + column a b 2 + 0x1000003D10 * column a b 12 ∧
      t3 + 2 ^ 26 * f4 = f3 + column a b 3 + 0x1000003D10 * column a b 13 ∧
      t4 + 2 ^ 26 * f5 = f4 + column a b 4 + 0x1000003D10 * column a b 14 ∧
      t5 + 2 ^ 26 * f6 = f5 + column a b 5 + 0x1000003D10 * column a b 15 ∧
      t6 + 2 ^ 26 * f7 = f6 + column a b 6 + 0x1000003D10 * column a b 16 ∧
      t7 + 2 ^ 26 * f8 = f7 + column a b 7 + 0x1000003D10 * column a b 17 := by
  simp only [mulLoop, List.foldl_cons, List.foldl_nil, Nat.shiftRight_eq_div_pow]
  generalize hs0 : ({ c := 0, d := column a b 9 / 2 ^ 26, ts := [] } : MulAcc) = s0
  have i0 : s0.c = 0 := by rw [← hs0]
  have j0 : s0.d = column a b 9 / 2 ^ 26 := by rw [← hs0]
  have l0 : s0.ts = [] := by rw [← hs0]
  obtain ⟨t0, l1, b0, e0⟩ := mulStep_spec a b s0 0
  generalize mulStep (fun v => v) a b s0 0 = s1 at *
  obtain ⟨t1, l2, b1, e1⟩ := mulStep_spec a b s1 1
  generalize mulStep (fun v => v) a b s1 1 = s2 at *
  obtain ⟨t2, l3, b2, e2⟩ := mulStep_spec a b s2 2
  generalize mulStep (fun v => v) a b s2 2 = s3 at *
  obtain ⟨t3, l4, b3, e3⟩ := mulStep_spec a b s3 3
  generalize mulStep (fun v => v) a b s3 3 = s4 at *
  obtain ⟨t4, l5, b4, e4⟩ := mulStep_spec a b s4 4
  generalize mulStep (fun v => v) a b s4 4 = s5 at *
  obtain ⟨t5, l6, b5, e5⟩ := mulStep_spec a b s5 5
  generalize mulStep (fun v => v) a b s5 5 = s6 at *
  obtain ⟨t6, l7, b6, e6⟩ := mulStep_spec a b s6 6
  generalize mulStep (fun v => v) a b s6 6 = s7 at *
  obtain ⟨t7, l8, b7, e7⟩ := mulStep_spec a b s7 7
  generalize mulStep (fun v => v) a b s7 7 = s8 at *
  refine ⟨t0, t1, t2, t3, t4, t5, t6, t7, _, _, _, _, _, _, _, _, ?_, rfl, ⟨b0, b1, b2, b3, b4, b5, b6, b7⟩, ?_, e1, e2,
    e3, e4, e5, e6, e7⟩
  · rw [l8, l7, l6, l5, l4, l3, l2, l1, l0]
  · rw [e0, i0, j0, Nat.zero_add]

/-! ### The tail -/

/-- What the end of R152 does: the last two columns enter, limbs 8 and 9 leave, and the coefficient c of 2^256 is folded
into limbs 0, 1 and 2. -/
theorem mulTail_spec (p8 p18 t9 : Nat) (s : MulAcc) {t0 t1 t2 t3 t4 t5 t6 t7 : Nat}
    (hts : s.ts = [t7, t6, t5, t4, t3, t2, t1, t0]) :
    ∃ r0 r1 r2 r8 r9 c, mulTail (fun v => v) p8 p18 t9 s = [r0, r1, r2, t3, t4, t5, t6, t7, r8, r9] ∧
      (r0 ≤ M26 ∧ r1 ≤ M26 ∧ r8 ≤ M26 ∧ r9 ≤ M22) ∧
      r8 + 2 ^ 26 * (r9 + 2 ^ 22 * c) = s.c + 0x1000003D10 * s.d + p8 + 0x1000003D10 * p18 + 2 ^ 26 * t9 ∧
      r0 + 2 ^ 26 * (r1 + 2 ^ 26 * r2) = t0 + 2 ^ 26 * (t1 + 2 ^ 26 * t2) + c * 0x1000003D1 := by
  have e9 : M26 >>> 4 = M22 := by decide
  simp only [mulTail, hts, lim, List.getD_cons_zero, List.getD_cons_succ, e9, foldR0, foldR1, Nat.shiftLeft_eq,
    and_M26, and_M22, Nat.shiftRight_eq_div_pow]
  have hd := Nat.mod_add_div (s.d + p18) (2 ^ 26)
  generalize (s.d + p18) % 2 ^ 26 = u8 at *
  generalize (s.d + p18) / 2 ^ 26 = d at *
  have hc := Nat.mod_add_div (s.c + p8 + u8 * 0x3D10) (2 ^ 26)
  have b8 := Nat.mod_lt (s.c + p8 + u8 * 0x3D10) (y := 2 ^ 26) (by norm_num)
  generalize (s.c + p8 + u8 * 0x3D10) % 2 ^ 26 = r8 at *
  generalize (s.c + p8 + u8 * 0x3D10) / 2 ^ 26 = c1 at *
  have hr9 := Nat.mod_add_div (c1 + u8 * 0x400 + d * 0x3D10 + t9) (2 ^ 22)
  have b9 := Nat.mod_lt (c1 + u8 * 0x400 + d * 0x3D10 + t9) (y := 2 ^ 22) (by norm_num)
  generalize (c1 + u8 * 0x400 + d * 0x3D10 + t9) % 2 ^ 22 = r9 at *
  generalize (c1 + u8 * 0x400 + d * 0x3D10 + t9) / 2 ^ 22 = c2 at *
  generalize hc3 : c2 + d * (0x400 * 2 ^ 4) = c at *
  norm_num only at *
  have hr0 := Nat.mod_add_div (c * 977 + t0) (2 ^ 26)
  have b0 := Nat.mod_lt (c * 977 + t0) (y := 2 ^ 26) (by norm_num)
  norm_num only at *
  generalize (c * 977 + t0) % 67108864 = r0 at *
  generalize (c * 977 + t0) / 67108864 = d1 at *
  have hr1 := Nat.mod_add_div (d1 + c * 64 + t1) 67108864
  have b1 := Nat.mod_lt (d1 + c * 64 + t1) (y := 67108864) (by norm_num)
  generalize (d1 + c * 64 + t1) % 67108864 = r1 at *
  generalize (d1 + c * 64 + t1) / 67108864 = d2 at *
  refine ⟨r0, r1, d2 + t2, r8, r9, c, rfl, ?_, ?_, ?_⟩
  · simp only [M26, M22]; omega
  · omega
  · omega

/-! ### The whole datapath -/

theorem length_mulCore (a b : List Nat) : (mulCore a b).length = 10 := rfl

/-- 43_multiply.md R152: the product of the two values, less a multiple of p. -/
theorem val_mulCore {a b : List Nat} (ha : a.length = 10) (hb : b.length = 10) :
    ∃ q, val (mulCore a b) + q * prime = val a * val b := by
  obtain ⟨t0, t1, t2, t3, t4, t5, t6, t7, f1, f2, f3, f4, f5, f6, f7, f8, hts, h8, -, e0, e1, e2, e3, e4, e5, e6, e7⟩ :=
    mulLoop_spec a b
  obtain ⟨r0, r1, r2, r8, r9, c, hr, -, g1, g2⟩ :=
    mulTail_spec (column a b 8) (column a b 18) (column a b 9 &&& M26) _ hts
  rw [and_M26, h8] at g1
  have hp9 := Nat.mod_add_div (column a b 9) (2 ^ 26)
  have hw10 := two_pow_260
  have hw9 : (2 ^ 26) ^ 9 * 2 ^ 22 = 0x1000003D1 + prime := by norm_num [prime]
  rw [show mulCore a b = _ from hr, ← columns_sum ha hb]
  simp only [val]
  generalize column a b 9 / 2 ^ 26 = d0 at *
  generalize column a b 9 % 2 ^ 26 = t9 at *
  generalize column a b 0 = p0 at *
  generalize column a b 1 = p1 at *
  generalize column a b 2 = p2 at *
  generalize column a b 3 = p3 at *
  generalize column a b 4 = p4 at *
  generalize column a b 5 = p5 at *
  generalize column a b 6 = p6 at *
  generalize column a b 7 = p7 at *
  generalize column a b 8 = p8 at *
  generalize column a b 9 = p9 at *
  generalize column a b 10 = p10 at *
  generalize column a b 11 = p11 at *
  generalize column a b 12 = p12 at *
  generalize column a b 13 = p13 at *
  generalize column a b 14 = p14 at *
  generalize column a b 15 = p15 at *
  generalize column a b 16 = p16 at *
  generalize column a b 17 = p17 at *
  generalize column a b 18 = p18 at *
  refine ⟨c + 16 * (d0 + p10 + (2 ^ 26) ^ 1 * p11 + (2 ^ 26) ^ 2 * p12 + (2 ^ 26) ^ 3 * p13 + (2 ^ 26) ^ 4 * p14 + (2 ^ 26) ^ 5 * p15 + (2 ^ 26) ^ 6 * p16 + (2 ^ 26) ^ 7 * p17 + (2 ^ 26) ^ 8 * p18), ?_⟩
  generalize prime = p at *
  zify at *
  generalize (2 : ℤ) ^ 26 = w at *
  generalize (2 : ℤ) ^ 22 = z at *
  linear_combination g2 + w ^ 8 * g1 + e0 + w ^ 1 * e1 + w ^ 2 * e2 + w ^ 3 * e3 + w ^ 4 * e4 + w ^ 5 * e5 + w ^ 6 * e6 + w ^ 7 * e7 + w ^ 9 * hp9
    - c * hw9 - (d0 + p10 + w ^ 1 * p11 + w ^ 2 * p12 + w ^ 3 * p13 + w ^ 4 * p14 + w ^ 5 * p15 + w ^ 6 * p16 + w ^ 7 * p17 + w ^ 8 * p18) * hw10

/-- 43_multiply.md R153: the field value of the result. -/
theorem fv_mulCore {a b : List Nat} (ha : a.length = 10) (hb : b.length = 10) :
    fv (mulCore a b) = fv a * fv b % prime := by
  obtain ⟨q, hq⟩ := val_mulCore ha hb
  rw [fv, fv, fv, ← Nat.mul_mod, ← hq, Nat.add_mul_mod_self_right]

/-- Limbs within 16 times their nominal bound: what `Verify` with magnitude at most 8 gives (43_multiply.md R155). -/
abbrev factorBounded (n : List Nat) : Prop := (∀ i < 9, lim n i ≤ 16 * M26) ∧ lim n 9 ≤ 16 * M22

theorem factorBounded_of_verify {r : FieldRec} (h : verify r = true) (hm : r.mag ≤ 8) : factorBounded r.limbs := by
  obtain ⟨_, hb, h9⟩ := verify_bounds h
  refine ⟨fun i hi => (hb i hi).trans ?_, h9.trans ?_⟩
  · simp only [M26]; omega
  · simp only [M22]; omega

/-- The columns of two bounded operands. -/
theorem column_le {a b : List Nat} (ha : factorBounded a) (hb : factorBounded b) :
    column a b 0 ≤ 1152921470247108864 ∧ column a b 1 ≤ 2305842940494217728 ∧ column a b 2 ≤ 3458764410741326592
      ∧ column a b 3 ≤ 4611685880988435456 ∧ column a b 4 ≤ 5764607351235544320 ∧ column a b 5 ≤ 6917528821482653184
      ∧ column a b 6 ≤ 8070450291729762048 ∧ column a b 7 ≤ 9223371761976870912 ∧ column a b 8 ≤ 10376293232223979776
      ∧ column a b 9 ≤ 9367486913545505280 ∧ column a b 10 ≤ 8214565443298396416 ∧ column a b 11 ≤ 7061643973051287552
      ∧ column a b 12 ≤ 5908722502804178688 ∧ column a b 13 ≤ 4755801032557069824 ∧ column a b 14 ≤ 3602879562309960960
      ∧ column a b 15 ≤ 2449958092062852096 ∧ column a b 16 ≤ 1297036621815743232 ∧ column a b 17 ≤ 144115151568634368
      ∧ column a b 18 ≤ 4503597479887104 := by
  have l9 : ∀ i j, i < 9 → j < 9 → lim a i * lim b j ≤ 1152921470247108864 := fun i j hi hj =>
    (Nat.mul_le_mul (ha.1 i hi) (hb.1 j hj)).trans (by decide)
  have la : ∀ j, j < 9 → lim a 9 * lim b j ≤ 72057575784317184 := fun j hj =>
    (Nat.mul_le_mul ha.2 (hb.1 j hj)).trans (by decide)
  have lb : ∀ i, i < 9 → lim a i * lim b 9 ≤ 72057575784317184 := fun i hi =>
    (Nat.mul_le_mul (ha.1 i hi) hb.2).trans (by decide)
  have lc : lim a 9 * lim b 9 ≤ 4503597479887104 := (Nat.mul_le_mul ha.2 hb.2).trans (by decide)
  refine ⟨?_, ?_, ?_, ?_, ?_, ?_, ?_, ?_, ?_, ?_, ?_, ?_, ?_, ?_, ?_, ?_, ?_, ?_, ?_⟩
  · rw [column_0]
    exact (l9 0 0 (by norm_num) (by norm_num)).trans (by norm_num)
  · rw [column_1]
    exact (Nat.add_le_add (l9 0 1 (by norm_num) (by norm_num)) (l9 1 0 (by norm_num) (by norm_num))).trans (by norm_num)
  · rw [column_2]
    exact (Nat.add_le_add (Nat.add_le_add (l9 0 2 (by norm_num) (by norm_num)) (l9 1 1 (by norm_num) (by norm_num))) (l9 2 0 (by norm_num) (by norm_num))).trans (by norm_num)
  · rw [column_3]
    exact (Nat.add_le_add (Nat.add_le_add (Nat.add_le_add (l9 0 3 (by norm_num) (by norm_num)) (l9 1 2 (by norm_num) (by norm_num))) (l9 2 1 (by norm_num) (by norm_num))) (l9 3 0 (by norm_num) (by norm_num))).trans (by norm_num)
  · rw [column_4]
    exact (Nat.add_le_add (Nat.add_le_add (Nat.add_le_add (Nat.add_le_add (l9 0 4 (by norm_num) (by norm_num)) (l9 1 3 (by norm_num) (by norm_num))) (l9 2 2 (by norm_num) (by norm_num))) (l9 3 1 (by norm_num) (by norm_num))) (l9 4 0 (by norm_num) (by norm_num))).trans (by norm_num)
  · rw [column_5]
    exact (Nat.add_le_add (Nat.add_le_add (Nat.add_le_add (Nat.add_le_add (Nat.add_le_add (l9 0 5 (by norm_num) (by norm_num)) (l9 1 4 (by norm_num) (by norm_num))) (l9 2 3 (by norm_num) (by norm_num))) (l9 3 2 (by norm_num) (by norm_num))) (l9 4 1 (by norm_num) (by norm_num))) (l9 5 0 (by norm_num) (by norm_num))).trans (by norm_num)
  · rw [column_6]
    exact (Nat.add_le_add (Nat.add_le_add (Nat.add_le_add (Nat.add_le_add (Nat.add_le_add (Nat.add_le_add (l9 0 6 (by norm_num) (by norm_num)) (l9 1 5 (by norm_num) (by norm_num))) (l9 2 4 (by norm_num) (by norm_num))) (l9 3 3 (by norm_num) (by norm_num))) (l9 4 2 (by norm_num) (by norm_num))) (l9 5 1 (by norm_num) (by norm_num))) (l9 6 0 (by norm_num) (by norm_num))).trans (by norm_num)
  · rw [column_7]
    exact (Nat.add_le_add (Nat.add_le_add (Nat.add_le_add (Nat.add_le_add (Nat.add_le_add (Nat.add_le_add (Nat.add_le_add (l9 0 7 (by norm_num) (by norm_num)) (l9 1 6 (by norm_num) (by norm_num))) (l9 2 5 (by norm_num) (by norm_num))) (l9 3 4 (by norm_num) (by norm_num))) (l9 4 3 (by norm_num) (by norm_num))) (l9 5 2 (by norm_num) (by norm_num))) (l9 6 1 (by norm_num) (by norm_num))) (l9 7 0 (by norm_num) (by norm_num))).trans (by norm_num)
  · rw [column_8]
    exact (Nat.add_le_add (Nat.add_le_add (Nat.add_le_add (Nat.add_le_add (Nat.add_le_add (Nat.add_le_add (Nat.add_le_add (Nat.add_le_add (l9 0 8 (by norm_num) (by norm_num)) (l9 1 7 (by norm_num) (by norm_num))) (l9 2 6 (by norm_num) (by norm_num))) (l9 3 5 (by norm_num) (by norm_num))) (l9 4 4 (by norm_num) (by norm_num))) (l9 5 3 (by norm_num) (by norm_num))) (l9 6 2 (by norm_num) (by norm_num))) (l9 7 1 (by norm_num) (by norm_num))) (l9 8 0 (by norm_num) (by norm_num))).trans (by norm_num)
  · rw [column_9]
    exact (Nat.add_le_add (Nat.add_le_add (Nat.add_le_add (Nat.add_le_add (Nat.add_le_add (Nat.add_le_add (Nat.add_le_add (Nat.add_le_add (Nat.add_le_add (lb 0 (by norm_num)) (l9 1 8 (by norm_num) (by norm_num))) (l9 2 7 (by norm_num) (by norm_num))) (l9 3 6 (by norm_num) (by norm_num))) (l9 4 5 (by norm_num) (by norm_num))) (l9 5 4 (by norm_num) (by norm_num))) (l9 6 3 (by norm_num) (by norm_num))) (l9 7 2 (by norm_num) (by norm_num))) (l9 8 1 (by norm_num) (by norm_num))) (la 0 (by norm_num))).trans (by norm_num)
  · rw [column_10]
    exact (Nat.add_le_add (Nat.add_le_add (Nat.add_le_add (Nat.add_le_add (Nat.add_le_add (Nat.add_le_add (Nat.add_le_add (Nat.add_le_add (lb 1 (by norm_num)) (l9 2 8 (by norm_num) (by norm_num))) (l9 3 7 (by norm_num) (by norm_num))) (l9 4 6 (by norm_num) (by norm_num))) (l9 5 5 (by norm_num) (by norm_num))) (l9 6 4 (by norm_num) (by norm_num))) (l9 7 3 (by norm_num) (by norm_num))) (l9 8 2 (by norm_num) (by norm_num))) (la 1 (by norm_num))).trans (by norm_num)
  · rw [column_11]
    exact (Nat.add_le_add (Nat.add_le_add (Nat.add_le_add (Nat.add_le_add (Nat.add_le_add (Nat.add_le_add (Nat.add_le_add (lb 2 (by norm_num)) (l9 3 8 (by norm_num) (by norm_num))) (l9 4 7 (by norm_num) (by norm_num))) (l9 5 6 (by norm_num) (by norm_num))) (l9 6 5 (by norm_num) (by norm_num))) (l9 7 4 (by norm_num) (by norm_num))) (l9 8 3 (by norm_num) (by norm_num))) (la 2 (by norm_num))).trans (by norm_num)
  · rw [column_12]
    exact (Nat.add_le_add (Nat.add_le_add (Nat.add_le_add (Nat.add_le_add (Nat.add_le_add (Nat.add_le_add (lb 3 (by norm_num)) (l9 4 8 (by norm_num) (by norm_num))) (l9 5 7 (by norm_num) (by norm_num))) (l9 6 6 (by norm_num) (by norm_num))) (l9 7 5 (by norm_num) (by norm_num))) (l9 8 4 (by norm_num) (by norm_num))) (la 3 (by norm_num))).trans (by norm_num)
  · rw [column_13]
    exact (Nat.add_le_add (Nat.add_le_add (Nat.add_le_add (Nat.add_le_add (Nat.add_le_add (lb 4 (by norm_num)) (l9 5 8 (by norm_num) (by norm_num))) (l9 6 7 (by norm_num) (by norm_num))) (l9 7 6 (by norm_num) (by norm_num))) (l9 8 5 (by norm_num) (by norm_num))) (la 4 (by norm_num))).trans (by norm_num)
  · rw [column_14]
    exact (Nat.add_le_add (Nat.add_le_add (Nat.add_le_add (Nat.add_le_add (lb 5 (by norm_num)) (l9 6 8 (by norm_num) (by norm_num))) (l9 7 7 (by norm_num) (by norm_num))) (l9 8 6 (by norm_num) (by norm_num))) (la 5 (by norm_num))).trans (by norm_num)
  · rw [column_15]
    exact (Nat.add_le_add (Nat.add_le_add (Nat.add_le_add (lb 6 (by norm_num)) (l9 7 8 (by norm_num) (by norm_num))) (l9 8 7 (by norm_num) (by norm_num))) (la 6 (by norm_num))).trans (by norm_num)
  · rw [column_16]
    exact (Nat.add_le_add (Nat.add_le_add (lb 7 (by norm_num)) (l9 8 8 (by norm_num) (by norm_num))) (la 7 (by norm_num))).trans (by norm_num)
  · rw [column_17]
    exact (Nat.add_le_add (lb 8 (by norm_num)) (la 8 (by norm_num))).trans (by norm_num)
  · rw [column_18]
    exact lc.trans (by norm_num)

/-- 43_multiply.md R156: the bounds of the output limbs. -/
theorem mulCore_bounds {a b : List Nat} (ha : factorBounded a) (hb : factorBounded b) :
    (∀ i < 9, i ≠ 2 → lim (mulCore a b) i ≤ M26) ∧ lim (mulCore a b) 2 ≤ 0x4100000 ∧ lim (mulCore a b) 9 ≤ M22 := by
  obtain ⟨t0, t1, t2, t3, t4, t5, t6, t7, f1, f2, f3, f4, f5, f6, f7, f8, hts, h8, ⟨b0, b1, b2, b3, b4, b5, b6, b7⟩, e0,
    e1, e2, e3, e4, e5, e6, e7⟩ := mulLoop_spec a b
  obtain ⟨r0, r1, r2, r8, r9, c, hr, ⟨c0, c1, c8, c9⟩, g1, g2⟩ :=
    mulTail_spec (column a b 8) (column a b 18) (column a b 9 &&& M26) _ hts
  rw [and_M26, h8] at g1
  obtain ⟨k0, k1, k2, k3, k4, k5, k6, k7, k8, k9, k10, k11, k12, k13, k14, k15, k16, k17, k18⟩ := column_le ha hb
  have hd0 : column a b 9 / 2 ^ 26 ≤ 139586432480 := (Nat.div_le_div_right k9).trans (by norm_num)
  have ht9 := Nat.mod_lt (column a b 9) (y := 2 ^ 26) (by norm_num)
  rw [show mulCore a b = _ from hr]
  generalize column a b 9 / 2 ^ 26 = d0 at *
  generalize column a b 9 % 2 ^ 26 = t9 at *
  generalize column a b 0 = p0 at *
  generalize column a b 1 = p1 at *
  generalize column a b 2 = p2 at *
  generalize column a b 3 = p3 at *
  generalize column a b 4 = p4 at *
  generalize column a b 5 = p5 at *
  generalize column a b 6 = p6 at *
  generalize column a b 7 = p7 at *
  generalize column a b 8 = p8 at *
  generalize column a b 9 = p9 at *
  generalize column a b 10 = p10 at *
  generalize column a b 11 = p11 at *
  generalize column a b 12 = p12 at *
  generalize column a b 13 = p13 at *
  generalize column a b 14 = p14 at *
  generalize column a b 15 = p15 at *
  generalize column a b 16 = p16 at *
  generalize column a b 17 = p17 at *
  generalize column a b 18 = p18 at *
  have y1 : f1 ≤ 8411717070350682619391 := by clear * - e0 k0 k10 hd0; omega
  have y2 : f2 ≤ 7231125198686928538879 := by clear * - e1 k1 k11 y1; omega
  have y3 : f3 ≤ 6050533327023172066303 := by clear * - e2 k2 k12 y2; omega
  have y4 : f4 ≤ 4869941455359415593727 := by clear * - e3 k3 k13 y3; omega
  have y5 : f5 ≤ 3689349583695659121151 := by clear * - e4 k4 k14 y4; omega
  have y6 : f6 ≤ 2508757712031902648575 := by clear * - e5 k5 k15 y5; omega
  have y7 : f7 ≤ 1328165840368146175999 := by clear * - e6 k6 k16 y6; omega
  have y8 : f8 ≤ 147573968704389703423 := by clear * - e7 k7 k17 y7; omega
  have yc : c ≤ 1099511914767 := by clear * - g1 y8 k8 k18 ht9; omega
  have y2 : r2 ≤ 0x4100000 := by
    simp only [M26] at b0 b1 b2
    clear * - g2 yc b0 b1 b2; omega
  refine ⟨fun i hi h2 => ?_, y2, c9⟩
  interval_cases i <;> first | assumption | omega

end Sys2Proof.Machine
end

