-- ==== Sys2Proof/Laws/Chains.lean ====
section
/-! SUPPORT. What the chains compute (44_chains.md): the power of the operand each link holds, and the bounds of the limbs
the chains write. -/

namespace Sys2Proof.Machine

/-- A MulCore result as a record of magnitude 1, not normalized, satisfies `Verify` and keeps its limbs (R156). -/
theorem verify_mulCore {a b : List Nat} (ha : factorBounded a) (hb : factorBounded b) :
    verify (.ofLimbs (mulCore a b) 1 false) = true ∧ (FieldRec.ofLimbs (mulCore a b) 1 false).limbs = mulCore a b := by
  obtain ⟨h1, h2, h3⟩ := mulCore_bounds ha hb
  have hle : ∀ i < 9, lim (mulCore a b) i ≤ M26 * 2 := by
    intro i hi
    by_cases h : i = 2
    · subst h; exact h2.trans (by decide)
    · exact (h1 i hi h).trans (by decide)
  have hl : (FieldRec.ofLimbs (mulCore a b) 1 false).limbs = mulCore a b := by
    refine limbs_ofLimbs _ _ (length_mulCore a b) fun i hi => ?_
    by_cases h : i = 9
    · subst h; simp only [M22] at h3; omega
    · have := hle i (by omega); simp only [M26] at this; omega
  refine ⟨?_, hl⟩
  rw [verify_iff, hl]
  refine ⟨fun i hi => (hle i hi).trans (by simp [FieldRec.bound]), ?_, by simp, by simp⟩
  simp only [FieldRec.bound, ofLimbs_mag, ofLimbs_norm, Bool.false_eq_true, if_false, Nat.one_mul]
  omega

theorem factorBounded_mulCore {a b : List Nat} (ha : factorBounded a) (hb : factorBounded b) :
    factorBounded (mulCore a b) := by
  obtain ⟨h1, h2, h3⟩ := mulCore_bounds ha hb
  refine ⟨fun i hi => ?_, by omega⟩
  by_cases h : i = 2
  · subst h; exact h2.trans (by decide)
  · exact (h1 i hi h).trans (by simp only [M26]; omega)

/-! ### Bounds along a chain -/

theorem factorBounded_sqrN {x : List Nat} (hx : factorBounded x) (k : Nat) : factorBounded (sqrN x k) := by
  induction k generalizing x with
  | zero => exact hx
  | succ k ih => exact ih (factorBounded_mulCore hx hx)

theorem factorBounded_link {x y : List Nat} (hx : factorBounded x) (k : Nat) (hy : factorBounded y) :
    factorBounded (link x k y) := factorBounded_mulCore (factorBounded_sqrN hx k) hy

theorem factorBounded_chainHead {a : List Nat} (ha : factorBounded a) :
    factorBounded (chainHead a).x2 ∧ factorBounded (chainHead a).x3 ∧ factorBounded (chainHead a).x22 ∧
      factorBounded (chainHead a).x223 := by
  have x2 := factorBounded_link ha 1 ha
  have x3 := factorBounded_link x2 1 ha
  have x6 := factorBounded_link x3 3 x3
  have x9 := factorBounded_link x6 3 x3
  have x11 := factorBounded_link x9 2 x2
  have x22 := factorBounded_link x11 11 x11
  have x44 := factorBounded_link x22 22 x22
  have x88 := factorBounded_link x44 44 x44
  have x176 := factorBounded_link x88 88 x88
  have x220 := factorBounded_link x176 44 x44
  exact ⟨x2, x3, x22, factorBounded_link x220 3 x3⟩

/-! ### Powers along a chain -/

/-- The limb vector `l` holds the power A^e of a field value A. -/
structure HoldsPower (A : Nat) (l : List Nat) (e : Nat) : Prop where
  len : l.length = 10
  eq : fv l = A ^ e % prime

theorem holdsPower_operand {a : List Nat} (h : a.length = 10) : HoldsPower (fv a) a 1 :=
  ⟨h, by rw [pow_one, fv, Nat.mod_mod]⟩

theorem holdsPower_mulCore {A e f : Nat} {x y : List Nat} (hx : HoldsPower A x e) (hy : HoldsPower A y f) :
    HoldsPower A (mulCore x y) (e + f) :=
  ⟨rfl, by rw [fv_mulCore hx.len hy.len, hx.eq, hy.eq, ← Nat.mul_mod, pow_add]⟩

theorem holdsPower_sqrN {A e : Nat} {x : List Nat} (hx : HoldsPower A x e) (k : Nat) :
    HoldsPower A (sqrN x k) (e * 2 ^ k) := by
  induction k generalizing x e with
  | zero => simpa [sqrN] using hx
  | succ k ih =>
    have := ih (holdsPower_mulCore hx hx)
    rwa [← Nat.two_mul, Nat.mul_comm 2 e, Nat.mul_assoc, ← Nat.pow_succ'] at this

theorem holdsPower_link {A e f : Nat} {x y : List Nat} (hx : HoldsPower A x e) (k : Nat) (hy : HoldsPower A y f) :
    HoldsPower A (link x k y) (e * 2 ^ k + f) := holdsPower_mulCore (holdsPower_sqrN hx k) hy

/-- 44_chains.md R170: xk is a^(2^k − 1). -/
theorem chainHead_spec {a : List Nat} (h : a.length = 10) :
    HoldsPower (fv a) (chainHead a).x2 (2 ^ 2 - 1) ∧ HoldsPower (fv a) (chainHead a).x3 (2 ^ 3 - 1) ∧
      HoldsPower (fv a) (chainHead a).x22 (2 ^ 22 - 1) ∧ HoldsPower (fv a) (chainHead a).x223 (2 ^ 223 - 1) := by
  have x1 := holdsPower_operand h
  have x2 := holdsPower_link x1 1 x1
  have x3 := holdsPower_link x2 1 x1
  have x6 := holdsPower_link x3 3 x3
  have x9 := holdsPower_link x6 3 x3
  have x11 := holdsPower_link x9 2 x2
  have x22 := holdsPower_link x11 11 x11
  have x44 := holdsPower_link x22 22 x22
  have x88 := holdsPower_link x44 44 x44
  have x176 := holdsPower_link x88 88 x88
  have x220 := holdsPower_link x176 44 x44
  have x223 := holdsPower_link x220 3 x3
  norm_num only at x2 x3 x22 x223
  exact ⟨x2, x3, by norm_num only; exact x22, by norm_num only; exact x223⟩

/-- 44_chains.md R171: the chain's exponent is p − 2. -/
theorem fv_invLimbs {a : List Nat} (h : a.length = 10) : fv (invLimbs a) = fv a ^ (prime - 2) % prime := by
  obtain ⟨x2, _, x22, x223⟩ := chainHead_spec h
  have x1 := holdsPower_operand h
  have t := holdsPower_link (holdsPower_link (holdsPower_link (holdsPower_link x223 23 x22) 5 x1) 3 x2) 2 x1
  have he : ((((2 ^ 223 - 1) * 2 ^ 23 + (2 ^ 22 - 1)) * 2 ^ 5 + 1) * 2 ^ 3 + (2 ^ 2 - 1)) * 2 ^ 2 + 1 = prime - 2 := by
    norm_num [prime]
  rw [he] at t
  exact t.eq

/-- 44_chains.md R173: the chain's exponent is (p + 1)/4. -/
theorem fv_sqrtLimbs {a : List Nat} (h : a.length = 10) : fv (sqrtLimbs a) = fv a ^ ((prime + 1) / 4) % prime := by
  obtain ⟨x2, _, x22, x223⟩ := chainHead_spec h
  have t := holdsPower_sqrN (holdsPower_link (holdsPower_link x223 23 x22) 6 x2) 2
  have he : (((2 ^ 223 - 1) * 2 ^ 23 + (2 ^ 22 - 1)) * 2 ^ 6 + (2 ^ 2 - 1)) * 2 ^ 2 = (prime + 1) / 4 := by
    norm_num [prime]
  rw [he] at t
  exact t.eq

/-! ### What the chains write -/

theorem length_sqrtLimbs (a : List Nat) : (sqrtLimbs a).length = 10 := rfl

/-- INV's record satisfies `Verify` and keeps its limbs (44_chains.md R171). -/
theorem verify_invLimbs {a : List Nat} (ha : factorBounded a) :
    verify (.ofLimbs (invLimbs a) 1 false) = true ∧ (FieldRec.ofLimbs (invLimbs a) 1 false).limbs = invLimbs a := by
  obtain ⟨x2, _, x22, x223⟩ := factorBounded_chainHead ha
  exact verify_mulCore (factorBounded_sqrN (factorBounded_link (factorBounded_link (factorBounded_link x223 23 x22) 5 ha)
    3 x2) 2) ha

/-- SQRT's record satisfies `Verify` and keeps its limbs (44_chains.md R173). -/
theorem verify_sqrtLimbs {a : List Nat} (ha : factorBounded a) :
    verify (.ofLimbs (sqrtLimbs a) 1 false) = true ∧ (FieldRec.ofLimbs (sqrtLimbs a) 1 false).limbs = sqrtLimbs a := by
  obtain ⟨x2, _, x22, x223⟩ := factorBounded_chainHead ha
  have t := factorBounded_link (factorBounded_link x223 23 x22) 6 x2
  have t1 := factorBounded_mulCore t t
  exact verify_mulCore t1 t1

end Sys2Proof.Machine
end

