-- ==== Sys2Proof/Laws/Compare.lean ====
section
/-! SUPPORT. The limb-wise order and the order of the values (45_compare.md R190). -/

namespace Sys2Proof.Machine

/-- The order of two integers as the first differing limb gives it. -/
theorem compareFirst_append (l m : List (Nat × Nat)) :
    compareFirst (l ++ m) = if compareFirst l = .eq then compareFirst m else compareFirst l := by
  induction l with
  | nil => simp [compareFirst]
  | cons x xs ih =>
    obtain ⟨a, b⟩ := x
    simp only [List.cons_append, compareFirst]
    split
    · simp
    · split
      · simp
      · exact ih

/-- Below the radix, the limb-wise order from the top is the order of the values (45_compare.md R190). -/
theorem compareLimbs_eq {a b : List Nat} (hl : a.length = b.length) (ha : ∀ x ∈ a, x < 2 ^ 26)
    (hb : ∀ x ∈ b, x < 2 ^ 26) : compareLimbs a b = compare (val a) (val b) := by
  induction a generalizing b with
  | nil => cases b with
    | nil => rfl
    | cons => simp at hl
  | cons x xs ih => cases b with
    | nil => simp at hl
    | cons y ys =>
      have h := ih (by simpa using hl) (fun z hz => ha z (by simp [hz])) (fun z hz => hb z (by simp [hz]))
      have hx := ha x (by simp)
      have hy := hb y (by simp)
      unfold compareLimbs at h ⊢
      rw [List.zip_cons_cons, List.reverse_cons, compareFirst_append, h]
      simp only [val]
      rcases Nat.lt_trichotomy (val xs) (val ys) with hv | hv | hv
      · rw [Nat.compare_eq_lt.2 hv, if_neg (by decide), Nat.compare_eq_lt.2 (by omega)]
      · rw [hv, Nat.compare_eq_eq.2 rfl, if_pos rfl]
        simp only [compareFirst]
        rcases Nat.lt_trichotomy x y with hxy | hxy | hxy
        · rw [if_neg (by omega), if_pos hxy, Nat.compare_eq_lt.2 (by omega)]
        · rw [if_neg (by omega), if_neg (by omega), Nat.compare_eq_eq.2 (by omega)]
        · rw [if_pos hxy, Nat.compare_eq_gt.2 (by omega)]
      · rw [Nat.compare_eq_gt.2 hv, if_neg (by decide), Nat.compare_eq_gt.2 (by omega)]

end Sys2Proof.Machine
end

