-- ==== Sys2Proof/Laws/Cycle.lean ====
section
/-! SUPPORT. What a cycle, an execution and a bus access can do, said once each (60_exceptions.md R220, 20_memory.md
R62–R65, 70_reset_and_hazards.md R250). -/

namespace Sys2Proof.Machine

/-! ### Execution and completion -/

theorem execute_command {w : Word} {i : Instr} (h : decode w = .command i) (s : State) : execute w s = exec i s := by
  simp [execute, h]

theorem execute_illegalOp {w : Word} (h : decode w = .illegalOp) (s : State) :
    execute w s = .next (takeFault .illegalOp s) := by simp [execute, h]

theorem execute_illegalField {w : Word} (h : decode w = .illegalField) (s : State) :
    execute w s = .next (takeFault .illegalField s) := by simp [execute, h]

theorem executeAndComplete_next {w : Word} {s t : State} (h : executeAndComplete w s = .next t) :
    ∃ u, execute w s = .next u ∧ t = complete u := by
  unfold executeAndComplete at h
  split at h
  · rename_i u hu; exact ⟨u, hu, by simpa using h.symm⟩
  · cases h
  · cases h

/-! ### One cycle -/

/-- A command whose cycles have passed completes, whatever the host does (log 3). -/
theorem step_completes {s : State} {w : Word} (hc : s.cur = some w) (hl : s.left = 0) :
    step s = executeAndComplete w s := by simp [step, cycle, hc, hl]

/-- A cycle that is the host's, with an event pending. -/
theorem step_event {s : State} (ht : s.takesEvent) {e : HostEvent} {rest : List HostEvent} (hh : s.host = e :: rest) :
    step s = hostEvent e (s.afterEvent rest) := by
  cases hc : s.cur with
  | none => simp [step, cycle, hc, hostCycle, hh, State.afterEvent]
  | some w =>
    cases hl : s.left with
    | zero => rcases ht with h | h <;> simp_all
    | succ k => simp [step, cycle, hc, hl, hostCycle, hh, State.afterEvent]

/-- A cycle that is the host's, with no event pending. -/
theorem step_no_event {s : State} (ht : s.takesEvent) (hh : s.host = []) : step s = .next (s.afterEvent []) := by
  obtain ⟨freg, sreg, bufw, limb, metaw, result, fault, fcode, faultcmd, cur, left, host, rdata, draws⟩ := s
  subst hh
  cases cur with
  | none => rfl
  | some w =>
    cases left with
    | zero => rcases ht with h | h <;> simp at h
    | succ k => rfl

/-- Everything a step can do: complete the command in the latch, pass the cycle, or take the next event. -/
theorem step_cases {s t : State} (h : step s = .next t) :
    (∃ w u, s.cur = some w ∧ s.left = 0 ∧ execute w s = .next u ∧ t = complete u) ∨
      (s.takesEvent ∧ s.host = [] ∧ t = s.afterEvent []) ∨
      (s.takesEvent ∧ ∃ e rest, s.host = e :: rest ∧ hostEvent e (s.afterEvent rest) = .next t) := by
  by_cases ht : s.takesEvent
  · cases hh : s.host with
    | nil => rw [step_no_event ht hh] at h; exact .inr (.inl ⟨ht, rfl, by simpa using h.symm⟩)
    | cons e rest => rw [step_event ht hh] at h; exact .inr (.inr ⟨ht, e, rest, rfl, h⟩)
  · obtain ⟨hc, hl⟩ := not_or.1 ht
    obtain ⟨w, hw⟩ := Option.ne_none_iff_exists'.1 hc
    have hl : s.left = 0 := Nat.eq_zero_of_not_pos hl
    rw [step_completes hw hl] at h
    obtain ⟨u, hu, htu⟩ := executeAndComplete_next h
    exact .inl ⟨w, u, hw, hl, hu, htu⟩

/-! ### Bus accesses -/

theorem access_legal {off : Nat} (h : legalOffset off) (t : State) : access off 4 t = .next t := by
  simp [access, h.2, Nat.not_le.2 h.1]

/-- An access answers a next state exactly when it is a 32-bit one at a multiple of 4 in the window. -/
theorem access_next {off width : Nat} {t u : State} (h : access off width t = .next u) :
    legalOffset off ∧ width = 4 ∧ u = t := by
  unfold access at h
  split at h
  · cases h
  · split at h
    · rename_i h1 h2; exact ⟨⟨Nat.not_le.1 h1, h2.2⟩, h2.1, by simpa using h.symm⟩
    · cases h

/-- All that a host access can be to the unit, by the bytes it covers. -/
theorem windowEvent_cases (base addr width : Nat) (mk : Nat → Nat → HostEvent) :
    (∃ off < 256, addr = base + off ∧ windowEvent base addr width mk = mk off width) ∨
    (addr < base ∧ base < addr + width ∧ windowEvent base addr width mk = .accessFromBelow) ∨
    ((addr + width ≤ base ∨ addr < base ∧ width = 0 ∨ base + 256 ≤ addr) ∧
      windowEvent base addr width mk = .idle) := by
  unfold windowEvent windowOffset
  by_cases h : base ≤ addr ∧ addr < base + 256
  · exact .inl ⟨addr - base, by omega, by omega, by simp [h]⟩
  · by_cases hb : addr < base ∧ base < addr + width
    · exact .inr (.inl ⟨hb.1, hb.2, by simp [h, hb]⟩)
    · exact .inr (.inr ⟨by omega, by simp [h, hb]⟩)

/-- Every event that answers a next state: what it leaves. -/
theorem hostEvent_next {e : HostEvent} {s t : State} (h : hostEvent e s = .next t) :
    (e = .idle ∧ t = s) ∨ (∃ off, e = .read off 4 ∧ legalOffset off ∧ t = busRead off s) ∨
      (∃ off v, e = .write off 4 v ∧ legalOffset off ∧ t = busWrite off v s) ∨
      (e = .wait ∧ t = if s.busy then { busRead 0x004 s with host := .wait :: s.host } else busRead 0x004 s) ∨
      (e = .reset ∧ t = resetEvent s) := by
  cases e with
  | idle => exact .inl ⟨rfl, by simpa [hostEvent] using h.symm⟩
  | read off width =>
    obtain ⟨hl, rfl, rfl⟩ := access_next h
    exact .inr (.inl ⟨off, rfl, hl, rfl⟩)
  | write off width v =>
    obtain ⟨hl, rfl, rfl⟩ := access_next h
    exact .inr (.inr (.inl ⟨off, v, rfl, hl, rfl⟩))
  | wait =>
    refine .inr (.inr (.inr (.inl ⟨rfl, ?_⟩)))
    simp only [hostEvent, Host.Outcome.next.injEq] at h
    rw [← h]
    have : (busRead 0x004 s).host = s.host := by simp [busRead]; split <;> rfl
    rw [this]
  | reset => exact .inr (.inr (.inr (.inr ⟨rfl, by simpa [hostEvent] using h.symm⟩)))
  | accessFromBelow => simp [hostEvent] at h
  | accessInReset => simp [hostEvent] at h

/-- A bus read changes what the host holds and nothing of the unit (20_memory.md R64). -/
theorem busRead_frame (off : Nat) (s : State) :
    busRead off s = { s with rdata := (busRead off s).rdata, draws := (busRead off s).draws } := by
  unfold busRead; split <;> rfl

/-- The value a bus read returns when it is specified (20_memory.md R63, R65). -/
theorem busRead_specified {off : Nat} {s : State} (h : s.busy = false ∨ (busReg off).hiddenWhileBusy = false) :
    busRead off s = { s with rdata := readReg s (busReg off) } := by
  unfold busRead; rcases h with h | h <;> simp [h]

/-- The value a bus read returns when it is not specified (20_memory.md R65). -/
theorem busRead_unspecified {off : Nat} {s : State} (hb : s.busy = true) (h : (busReg off).hiddenWhileBusy = true) :
    busRead off s = { s with rdata := Config.busyRead off s.draws, draws := s.draws + 1 } := by
  simp [busRead, hb, h]

/-- A write to CMD or a buffer while BUSY = 1 is an overrun (60_exceptions.md R227). -/
theorem busWrite_overrun {off : Nat} (v : Word) {s : State} (hb : s.busy = true)
    (h : (busReg off).lockedWhileBusy = true) : busWrite off v s = takeFault .overrun s := by
  simp [busWrite, hb, h]

theorem busWrite_accepted {off : Nat} (v : Word) {s : State}
    (h : s.busy = false ∨ (busReg off).lockedWhileBusy = false) : busWrite off v s = writeReg (busReg off) v s := by
  unfold busWrite; rcases h with h | h <;> simp [h]

end Sys2Proof.Machine
end

