-- ==== Sys2Proof/Laws/Encoding.lean ====
section
/-! SUPPORT. The fields of a packed command word, and what the shape decoders can answer (30_encoding.md R80–R86). -/

namespace Sys2Proof

@[simp] theorem opField_packWord (op : BitVec 8) (rd ra rb : Fin 16) (imm : BitVec 12) :
    opField (packWord op rd ra rb imm) = op := by
  apply BitVec.eq_of_getLsbD_eq
  intro i hi
  simp only [opField, packWord, BitVec.getLsbD_extractLsb', BitVec.getLsbD_append]
  interval_cases i <;> simp

@[simp] theorem rdField_packWord (op : BitVec 8) (rd ra rb : Fin 16) (imm : BitVec 12) :
    rdField (packWord op rd ra rb imm) = rd := by
  have h : (packWord op rd ra rb imm).extractLsb' 20 4 = BitVec.ofFin rd := by
    apply BitVec.eq_of_getLsbD_eq
    intro i hi
    simp only [packWord, BitVec.getLsbD_extractLsb', BitVec.getLsbD_append]
    interval_cases i <;> simp
  rw [rdField, h]

@[simp] theorem raField_packWord (op : BitVec 8) (rd ra rb : Fin 16) (imm : BitVec 12) :
    raField (packWord op rd ra rb imm) = ra := by
  have h : (packWord op rd ra rb imm).extractLsb' 16 4 = BitVec.ofFin ra := by
    apply BitVec.eq_of_getLsbD_eq
    intro i hi
    simp only [packWord, BitVec.getLsbD_extractLsb', BitVec.getLsbD_append]
    interval_cases i <;> simp
  rw [raField, h]

@[simp] theorem rbField_packWord (op : BitVec 8) (rd ra rb : Fin 16) (imm : BitVec 12) :
    rbField (packWord op rd ra rb imm) = rb := by
  have h : (packWord op rd ra rb imm).extractLsb' 12 4 = BitVec.ofFin rb := by
    apply BitVec.eq_of_getLsbD_eq
    intro i hi
    simp only [packWord, BitVec.getLsbD_extractLsb', BitVec.getLsbD_append]
    interval_cases i <;> simp
  rw [rbField, h]

@[simp] theorem immField_packWord (op : BitVec 8) (rd ra rb : Fin 16) (imm : BitVec 12) :
    immField (packWord op rd ra rb imm) = imm := by
  apply BitVec.eq_of_getLsbD_eq
  intro i hi
  simp only [immField, packWord, BitVec.getLsbD_extractLsb', BitVec.getLsbD_append]
  simp [hi]

/-- A word is the packing of its fields (R80). -/
theorem packWord_fields (w : Word) : packWord (opField w) (rdField w) (raField w) (rbField w) (immField w) = w := by
  change opField w ++ w.extractLsb' 20 4 ++ w.extractLsb' 16 4 ++ w.extractLsb' 12 4 ++ w.extractLsb' 0 12 = w
  apply BitVec.eq_of_getLsbD_eq
  intro i hi
  simp only [opField, BitVec.getLsbD_append]
  interval_cases i <;> simp

/-- The checks of R86 answer a command exactly when both hold, and then the command they guard. -/
theorem checkFields_eq_command {u r : Bool} {i j : Instr} :
    checkFields u r i = .command j ↔ u = true ∧ r = true ∧ j = i := by
  cases u <;> cases r <;> simp [checkFields, eq_comm]

/-- The checks of R86 never answer ILLEGAL_OP. -/
theorem checkFields_ne_illegalOp (u r : Bool) (i : Instr) : checkFields u r i ≠ .illegalOp := by
  cases u <;> cases r <;> simp [checkFields]

/-- A table word is the word whose bits the table gives. -/
theorem tableWord_toNat (w : Word) : tableWord 32 w.toNat = w := by
  apply BitVec.eq_of_toNat_eq
  have := w.isLt
  simp only [tableWord, BitVec.toNat_ofNat]
  omega

end Sys2Proof
end

