-- ==== Sys2Proof/Laws/Exec.lean ====
section
/-! SUPPORT. Everything a command can do, said once: it completes with the writes of its rule, or enters a fault
(60_exceptions.md R220–R223). -/

namespace Sys2Proof.Machine

/-! ### The faults a rule can raise -/

/-- A fault that a command's rule can raise: any but ILLEGAL_OP and OVERRUN (60_exceptions.md R222). -/
abbrev FaultCode.ofRule (e : FaultCode) : Prop := e ≠ .illegalOp ∧ e ≠ .overrun

theorem FaultCode.ofRule_code {e : FaultCode} (h : e.ofRule) : 2 ≤ e.code.toNat ∧ e.code.toNat ≤ 6 := by
  cases e <;> simp_all [FaultCode.ofRule, FaultCode.code]

theorem bind_eq_error {α β : Type} {x : Except FaultCode α} {f : α → Except FaultCode β} {e : FaultCode} :
    (x >>= f) = .error e ↔ x = .error e ∨ ∃ a, x = .ok a ∧ f a = .error e := by
  cases x <;> simp [bind, Except.bind]

@[simp] theorem pure_ne_error {α : Type} (a : α) (e : FaultCode) : (pure a : Except FaultCode α) ≠ .error e := nofun

theorem require_eq_error {b : Bool} {c e : FaultCode} : require b c = .error e ↔ b = false ∧ e = c := by
  cases b <;> simp [eq_comm]

/-- The faults of the checks and operand reads are those of a rule. -/
theorem readFRaw_error {s : State} {i : FieldIx} {e : FaultCode} (h : readFRaw s i = .error e) : e.ofRule := by
  simp only [readFRaw, bind_eq_error, require_eq_error, pure_ne_error, and_false, exists_false, or_false] at h
  exact h.2 ▸ ⟨nofun, nofun⟩

theorem readF_error {s : State} {i : FieldIx} {e : FaultCode} (h : readF s i = .error e) : e.ofRule := by
  simp only [readF, bind_eq_error, require_eq_error, pure_ne_error, and_false, exists_false, or_false] at h
  rcases h with h | ⟨_, -, -, rfl⟩
  · exact readFRaw_error h
  · exact ⟨nofun, nofun⟩

theorem readS_error {s : State} {j : StorIx} {e : FaultCode} (h : readS s j = .error e) : e.ofRule := by
  simp only [readS, bind_eq_error, require_eq_error, pure_ne_error, and_false, exists_false, or_false] at h
  exact h.2 ▸ ⟨nofun, nofun⟩

theorem readNormalized_error {s : State} {i : FieldIx} {e : FaultCode} (h : readNormalized s i = .error e) :
    e.ofRule := by
  simp only [readNormalized, bind_eq_error, require_eq_error, pure_ne_error, and_false, exists_false, or_false] at h
  rcases h with h | ⟨_, -, -, rfl⟩
  · exact readF_error h
  · exact ⟨nofun, nofun⟩

theorem readFactor_error {s : State} {i : FieldIx} {e : FaultCode} (h : readFactor s i = .error e) : e.ofRule := by
  simp only [readFactor, bind_eq_error, require_eq_error, pure_ne_error, and_false, exists_false, or_false] at h
  rcases h with h | ⟨_, -, -, rfl⟩
  · exact readF_error h
  · exact ⟨nofun, nofun⟩

theorem requireImm_error {m : BitVec 12} {k : Nat} {e : FaultCode} (h : requireImm m k = .error e) : e.ofRule := by
  rw [requireImm, require_eq_error] at h; exact h.2 ▸ ⟨nofun, nofun⟩

/-! Each read and each check either answers or raises a fault of a rule. -/

theorem readF_cases (s : State) (i : FieldIx) :
    (s.readable i ∧ readF s i = .ok s.freg[i].toFieldRec) ∨ ∃ e : FaultCode, e.ofRule ∧ readF s i = .error e := by
  cases h : readF s i with
  | ok r => obtain ⟨hr, rfl⟩ := readF_eq_ok.1 h; exact .inl ⟨hr, rfl⟩
  | error e => exact .inr ⟨e, readF_error h, rfl⟩

theorem readFRaw_cases (s : State) (i : FieldIx) :
    (s.freg[i].w = true ∧ readFRaw s i = .ok s.freg[i].toFieldRec) ∨
      ∃ e : FaultCode, e.ofRule ∧ readFRaw s i = .error e := by
  cases h : readFRaw s i with
  | ok r => obtain ⟨hr, rfl⟩ := readFRaw_eq_ok.1 h; exact .inl ⟨hr, rfl⟩
  | error e => exact .inr ⟨e, readFRaw_error h, rfl⟩

theorem readS_cases (s : State) (j : StorIx) :
    (s.sreg[j].w = true ∧ readS s j = .ok s.sreg[j].sw) ∨ ∃ e : FaultCode, e.ofRule ∧ readS s j = .error e := by
  cases h : readS s j with
  | ok r => obtain ⟨hr, rfl⟩ := readS_eq_ok.1 h; exact .inl ⟨hr, rfl⟩
  | error e => exact .inr ⟨e, readS_error h, rfl⟩

theorem readNormalized_cases (s : State) (i : FieldIx) :
    ((s.readable i ∧ s.freg[i].norm = true) ∧ readNormalized s i = .ok s.freg[i].toFieldRec) ∨
      ∃ e : FaultCode, e.ofRule ∧ readNormalized s i = .error e := by
  cases h : readNormalized s i with
  | ok r => obtain ⟨hr, hn, rfl⟩ := readNormalized_eq_ok.1 h; exact .inl ⟨⟨hr, hn⟩, rfl⟩
  | error e => exact .inr ⟨e, readNormalized_error h, rfl⟩

theorem readFactor_cases (s : State) (i : FieldIx) :
    (s.factor i ∧ readFactor s i = .ok s.freg[i].toFieldRec) ∨
      ∃ e : FaultCode, e.ofRule ∧ readFactor s i = .error e := by
  cases h : readFactor s i with
  | ok r => obtain ⟨hr, rfl⟩ := readFactor_eq_ok.1 h; exact .inl ⟨hr, rfl⟩
  | error e => exact .inr ⟨e, readFactor_error h, rfl⟩

theorem require_cases (p : Prop) [Decidable p] (c : FaultCode) :
    (p ∧ require (decide p) c = .ok ()) ∨ require (decide p) c = .error c := by
  by_cases h : p <;> simp [h]

theorem requireImm_cases (m : BitVec 12) (k : Nat) :
    (m.toNat ≤ k ∧ requireImm m k = .ok ()) ∨ ∃ e : FaultCode, e.ofRule ∧ requireImm m k = .error e := by
  rcases require_cases (m.toNat ≤ k) .illegalField with ⟨h, he⟩ | he
  · exact .inl ⟨h, he⟩
  · exact .inr ⟨.illegalField, ⟨nofun, nofun⟩, he⟩

/-! ### The writes of a rule -/

/-- The rule of the command `i` takes the state `s` to `t` with its writes: the checks that held and what was written. -/
def ruleWrites (i : Instr) (s t : State) : Prop :=
  match i with
  | .norm rd ra => s.readable ra ∧ t = s.writeF rd (.ofLimbs (normLimbs s.freg[ra].limbs) 1 true)
  | .normw rd ra => s.readable ra ∧ t = s.writeF rd (.ofLimbs (weakFold s.freg[ra].limbs) 1 s.freg[ra].norm)
  | .normv rd ra => s.readable ra ∧ t = s.writeF rd (.ofLimbs (normvLimbs s.freg[ra].limbs) 1 true)
  | .ntz ra => s.readable ra ∧ t = s.writeResult (boolWord (ntzLimbs s.freg[ra].limbs))
  | .ntzv ra => s.readable ra ∧ t = s.writeResult (boolWord (ntzvLimbs s.freg[ra].limbs))
  | .setb32 rd => t = if geP (slice26 (bval s.bufw))
      then (s.writeLimbs rd (toLimbs (slice26 (bval s.bufw)))).writeResult (boolWord false)
      else (s.writeF rd (.ofLimbs (slice26 (bval s.bufw)) 1 true)).writeResult (boolWord true)
  | .getb32 ra => (s.readable ra ∧ s.freg[ra].norm = true) ∧ t = s.writeBuf (toWire s.freg[ra].val)
  | .add rd ra rb => (s.readable ra ∧ s.readable rb ∧ s.freg[ra].mag + s.freg[rb].mag ≤ 32) ∧
      t = s.writeF rd (.ofLimbs (addLimbs s.freg[ra].limbs s.freg[rb].limbs) (s.freg[ra].mag + s.freg[rb].mag) false)
  | .neg rd ra m => (m.toNat ≤ 31 ∧ s.readable ra ∧ s.freg[ra].mag ≤ m.toNat) ∧
      t = s.writeF rd (.ofLimbs (negLimbs m.toNat s.freg[ra].limbs) (m.toNat + 1) false)
  | .mulint rd ra a => (a.toNat ≤ 32 ∧ s.readable ra ∧ a.toNat * s.freg[ra].mag ≤ 32) ∧
      t = s.writeF rd (.ofLimbs (scaleLimbs a.toNat s.freg[ra].limbs) (s.freg[ra].mag * a.toNat) false)
  | .cmov rd ra flag => (flag.toNat ≤ 1 ∧ s.readable rd ∧ s.readable ra) ∧
      t = s.writeF rd (if flag = 1 then s.freg[ra].toFieldRec else s.freg[rd].toFieldRec)
  | .mov rd ra => s.readable ra ∧ t = s.writeF rd s.freg[ra].toFieldRec
  | .setint rd imm => t = s.writeF rd (.ofLimbs [imm.toNat, 0, 0, 0, 0, 0, 0, 0, 0, 0] 1 true)
  | .clear rd => t = s.writeF rd (.ofLimbs [0, 0, 0, 0, 0, 0, 0, 0, 0, 0] 0 true)
  | .mul rd ra rb => (s.factor ra ∧ s.factor rb) ∧
      t = s.writeF rd (.ofLimbs (mulCore s.freg[ra].limbs s.freg[rb].limbs) 1 false)
  | .sqr rd ra => s.factor ra ∧ t = s.writeF rd (.ofLimbs (mulCore s.freg[ra].limbs s.freg[ra].limbs) 1 false)
  | .inv rd ra => s.factor ra ∧ t = s.writeF rd (.ofLimbs (invLimbs s.freg[ra].limbs) 1 false)
  | .invv rd ra => s.factor ra ∧ t = s.writeF rd (.ofLimbs (invLimbs s.freg[ra].limbs) 1 false)
  | .sqrt rd ra => s.factor ra ∧ t = (s.writeF rd (.ofLimbs (sqrtLimbs s.freg[ra].limbs) 1 false)).writeResult
      (boolWord (sqrtOk s.freg[ra].limbs))
  | .isqv ra => s.factor ra ∧ t = s.writeResult (boolWord (sqrtOk s.freg[ra].limbs))
  | .cmpv ra rb => (s.readable ra ∧ s.readable rb ∧ s.freg[ra].norm = true ∧ s.freg[rb].norm = true) ∧
      t = s.writeResult (orderWord (compareLimbs s.freg[ra].limbs s.freg[rb].limbs))
  | .eq ra rb => (s.readable ra ∧ s.readable rb) ∧
      t = s.writeResult (boolWord (sameValue s.freg[ra].limbs s.freg[rb].limbs))
  | .eqv ra rb => (s.readable ra ∧ s.readable rb) ∧
      t = s.writeResult (boolWord (sameValue s.freg[ra].limbs s.freg[rb].limbs))
  | .tostor sd fa => (s.readable fa ∧ s.freg[fa].norm = true) ∧ t = s.writeS sd (toStor s.freg[fa].val)
  | .fromstor fd sa => (s.sreg[sa].w = true ∧ sval s.sreg[sa].sw < prime) ∧
      t = s.writeF fd (.ofLimbs (slice26 (sval s.sreg[sa].sw)) 1 true)
  | .scmov sd sa flag => (flag.toNat ≤ 1 ∧ s.sreg[sd].w = true ∧ s.sreg[sa].w = true) ∧
      t = s.writeS sd (if flag = 1 then s.sreg[sa].sw else s.sreg[sd].sw)
  | .ldstor sd => t = s.writeS sd s.limbLow
  | .ststor sa => s.sreg[sa].w = true ∧ t = s.writeLimbLow s.sreg[sa].sw
  | .ldraw fd => verify s.rawRecord = true ∧ t = s.writeF fd s.rawRecord
  | .straw fa => s.freg[fa].w = true ∧ t = (s.writeLimbBuf s.freg[fa].n).writeMeta s.freg[fa].metaWord
  | .verify fa => s.freg[fa].w = true ∧ t = s.writeResult (boolWord (verify s.freg[fa].toFieldRec))

/-- The shapes of a rule's writes: which one place, or which place and RESULT, a command writes. -/
theorem ruleWrites_shape {i : Instr} {s t : State} (h : ruleWrites i s t) :
    (∃ rd r, fieldDest i = some rd ∧ t = s.writeF rd r) ∨
    (∃ rd r v, fieldDest i = some rd ∧ writesResult i = true ∧ t = (s.writeF rd r).writeResult v) ∨
    (∃ rd n v, i = .setb32 rd ∧ t = (s.writeLimbs rd n).writeResult v) ∨
    (∃ v, writesResult i = true ∧ t = s.writeResult v) ∨
    (∃ sd sw, storDest i = some sd ∧ t = s.writeS sd sw) ∨
    (∃ ra b, i = .getb32 ra ∧ t = s.writeBuf b) ∨
    (∃ sa sw, i = .ststor sa ∧ t = s.writeLimbLow sw) ∨
    (∃ fa l m, i = .straw fa ∧ t = (s.writeLimbBuf l).writeMeta m) := by
  cases i
  case setint rd imm | clear rd => exact .inl ⟨_, _, rfl, h⟩
  case ldstor sd => exact .inr (.inr (.inr (.inr (.inl ⟨_, _, rfl, h⟩))))
  case tostor sd fa | scmov sd sa flag => exact .inr (.inr (.inr (.inr (.inl ⟨_, _, rfl, h.2⟩))))
  case getb32 ra => exact .inr (.inr (.inr (.inr (.inr (.inl ⟨_, _, rfl, h.2⟩)))))
  case ststor sa => exact .inr (.inr (.inr (.inr (.inr (.inr (.inl ⟨_, _, rfl, h.2⟩))))))
  case straw fa => exact .inr (.inr (.inr (.inr (.inr (.inr (.inr ⟨_, _, _, rfl, h.2⟩))))))
  case sqrt rd ra => exact .inr (.inl ⟨_, _, _, rfl, rfl, h.2⟩)
  case setb32 rd =>
    simp only [ruleWrites] at h
    split at h
    · exact .inr (.inr (.inl ⟨_, _, _, rfl, h⟩))
    · exact .inr (.inl ⟨_, _, _, rfl, rfl, h⟩)
  case ntz ra | ntzv ra | isqv ra | verify ra => exact .inr (.inr (.inr (.inl ⟨_, rfl, h.2⟩)))
  case cmpv ra rb | eq ra rb | eqv ra rb => exact .inr (.inr (.inr (.inl ⟨_, rfl, h.2⟩)))
  all_goals exact .inl ⟨_, _, rfl, h.2⟩

/-- A command with a rule's writes, or a fault of the rule: what the two forms of `runCommand` give. -/
theorem exec_of_ok {i : Instr} {s t u : State} (h : exec i s = .next t) (he : exec i s = .next u)
    (hu : ruleWrites i s u) : ruleWrites i s t ∨ ∃ e : FaultCode, e.ofRule ∧ t = takeFault e s := by
  rw [he] at h; cases h; exact .inl hu

theorem exec_of_error {i : Instr} {s t : State} {e : FaultCode} (h : exec i s = .next t) (hf : e.ofRule)
    (he : exec i s = .next (takeFault e s)) : ruleWrites i s t ∨ ∃ e : FaultCode, e.ofRule ∧ t = takeFault e s := by
  rw [he] at h; cases h; exact .inr ⟨e, hf, rfl⟩

/-- Everything a command can do: the writes of its rule, or a fault the rule raises. -/
theorem exec_cases {i : Instr} {s t : State} (h : exec i s = .next t) :
    ruleWrites i s t ∨ ∃ e : FaultCode, e.ofRule ∧ t = takeFault e s := by
  cases i
  case setint rd imm | clear rd | ldstor rd => exact exec_of_ok h rfl rfl
  case norm rd ra | normw rd ra | normv rd ra | mov rd ra =>
    rcases readF_cases s ra with ⟨hr, he⟩ | ⟨e, hf, he⟩
    · exact exec_of_ok h
        (by simp only [exec, execNorm, execNormw, execNormv, execMov, he, ok_bind, runCommand_pure]) ⟨hr, rfl⟩
    · exact exec_of_error h hf (by
        simp only [exec, execNorm, execNormw, execNormv, execMov, he, error_bind, runCommand_error])
  case ntz ra | ntzv ra =>
    rcases readF_cases s ra with ⟨hr, he⟩ | ⟨e, hf, he⟩
    · exact exec_of_ok h (by simp only [exec, execNtz, execNtzv, he, ok_bind, runCommand_pure]) ⟨hr, rfl⟩
    · exact exec_of_error h hf (by simp only [exec, execNtz, execNtzv, he, error_bind, runCommand_error])
  case setb32 rd =>
    refine exec_of_ok h (u := if geP (slice26 (bval s.bufw)) then _ else _) ?_ rfl
    simp only [exec, execSetb32]
    cases geP (slice26 (bval s.bufw)) <;> rfl
  case getb32 ra =>
    rcases readNormalized_cases s ra with ⟨hr, he⟩ | ⟨e, hf, he⟩
    · exact exec_of_ok h (by simp only [exec, execGetb32, he, ok_bind, runCommand_pure]) ⟨hr, rfl⟩
    · exact exec_of_error h hf (by simp only [exec, execGetb32, he, error_bind, runCommand_error])
  case tostor sd fa =>
    rcases readNormalized_cases s fa with ⟨hr, he⟩ | ⟨e, hf, he⟩
    · exact exec_of_ok h (by simp only [exec, execTostor, he, ok_bind, runCommand_pure]) ⟨hr, rfl⟩
    · exact exec_of_error h hf (by simp only [exec, execTostor, he, error_bind, runCommand_error])
  case sqr rd ra | inv rd ra | invv rd ra | sqrt rd ra =>
    rcases readFactor_cases s ra with ⟨hr, he⟩ | ⟨e, hf, he⟩
    · exact exec_of_ok h
        (by simp only [exec, execSqr, execInv, execInvv, execSqrt, he, ok_bind, runCommand_pure]) ⟨hr, rfl⟩
    · exact exec_of_error h hf (by
        simp only [exec, execSqr, execInv, execInvv, execSqrt, he, error_bind, runCommand_error])
  case isqv ra =>
    rcases readFactor_cases s ra with ⟨hr, he⟩ | ⟨e, hf, he⟩
    · exact exec_of_ok h (by simp only [exec, execIsqv, he, ok_bind, runCommand_pure]) ⟨hr, rfl⟩
    · exact exec_of_error h hf (by simp only [exec, execIsqv, he, error_bind, runCommand_error])
  case straw fa | verify fa =>
    rcases readFRaw_cases s fa with ⟨hr, he⟩ | ⟨e, hf, he⟩
    · exact exec_of_ok h (by simp only [exec, execStraw, execVerify, he, ok_bind, runCommand_pure]) ⟨hr, rfl⟩
    · exact exec_of_error h hf (by simp only [exec, execStraw, execVerify, he, error_bind, runCommand_error])
  case ststor sa =>
    rcases readS_cases s sa with ⟨hr, he⟩ | ⟨e, hf, he⟩
    · exact exec_of_ok h (by simp only [exec, execStstor, he, ok_bind, runCommand_pure]) ⟨hr, rfl⟩
    · exact exec_of_error h hf (by simp only [exec, execStstor, he, error_bind, runCommand_error])
  case fromstor fd sa =>
    rcases readS_cases s sa with ⟨hr, he⟩ | ⟨e, hf, he⟩
    · rcases require_cases (sval s.sreg[sa].sw < prime) .invariant with ⟨hq, hqe⟩ | hqe
      · exact exec_of_ok h (by simp only [exec, execFromstor, he, hqe, ok_bind, runCommand_pure]) ⟨⟨hr, hq⟩, rfl⟩
      · exact exec_of_error h (e := .invariant) ⟨nofun, nofun⟩
          (by simp only [exec, execFromstor, he, hqe, ok_bind, error_bind, runCommand_error])
    · exact exec_of_error h hf (by simp only [exec, execFromstor, he, error_bind, runCommand_error])
  case ldraw fd =>
    cases hv : verify s.rawRecord with
    | true => exact exec_of_ok h (by simp only [exec, execLdraw, hv, require_true, ok_bind, runCommand_pure]) ⟨hv, rfl⟩
    | false =>
      exact exec_of_error h (e := .invariant) ⟨nofun, nofun⟩
        (by simp only [exec, execLdraw, hv, require_false, error_bind, runCommand_error])
  case neg rd ra m =>
    rcases requireImm_cases m 31 with ⟨hm, hme⟩ | ⟨e, hf, he⟩
    · rcases readF_cases s ra with ⟨hr, he⟩ | ⟨e, hf, he⟩
      · rcases require_cases (s.freg[ra].mag ≤ m.toNat) .magnitude with ⟨hq, hqe⟩ | hqe
        · exact exec_of_ok h (by simp only [exec, execNeg, hme, he, hqe, ok_bind, runCommand_pure]) ⟨⟨hm, hr, hq⟩, rfl⟩
        · exact exec_of_error h (e := .magnitude) ⟨nofun, nofun⟩
            (by simp only [exec, execNeg, hme, he, hqe, ok_bind, error_bind, runCommand_error])
      · exact exec_of_error h hf (by simp only [exec, execNeg, hme, he, ok_bind, error_bind, runCommand_error])
    · exact exec_of_error h hf (by simp only [exec, execNeg, he, error_bind, runCommand_error])
  case mulint rd ra a =>
    rcases requireImm_cases a 32 with ⟨hm, hme⟩ | ⟨e, hf, he⟩
    · rcases readF_cases s ra with ⟨hr, he⟩ | ⟨e, hf, he⟩
      · rcases require_cases (a.toNat * s.freg[ra].mag ≤ 32) .magnitude with ⟨hq, hqe⟩ | hqe
        · exact exec_of_ok h
            (by simp only [exec, execMulint, hme, he, hqe, ok_bind, runCommand_pure]) ⟨⟨hm, hr, hq⟩, rfl⟩
        · exact exec_of_error h (e := .magnitude) ⟨nofun, nofun⟩
            (by simp only [exec, execMulint, hme, he, hqe, ok_bind, error_bind, runCommand_error])
      · exact exec_of_error h hf (by simp only [exec, execMulint, hme, he, ok_bind, error_bind, runCommand_error])
    · exact exec_of_error h hf (by simp only [exec, execMulint, he, error_bind, runCommand_error])
  case cmov rd ra flag =>
    rcases requireImm_cases flag 1 with ⟨hm, hme⟩ | ⟨e, hf, he⟩
    · rcases readF_cases s rd with ⟨hd, hde⟩ | ⟨e, hf, he⟩
      · rcases readF_cases s ra with ⟨hr, he⟩ | ⟨e, hf, he⟩
        · exact exec_of_ok h (by simp only [exec, execCmov, hme, hde, he, ok_bind, runCommand_pure]) ⟨⟨hm, hd, hr⟩, rfl⟩
        · exact exec_of_error h hf (by simp only [exec, execCmov, hme, hde, he, ok_bind, error_bind, runCommand_error])
      · exact exec_of_error h hf (by simp only [exec, execCmov, hme, he, ok_bind, error_bind, runCommand_error])
    · exact exec_of_error h hf (by simp only [exec, execCmov, he, error_bind, runCommand_error])
  case scmov sd sa flag =>
    rcases requireImm_cases flag 1 with ⟨hm, hme⟩ | ⟨e, hf, he⟩
    · rcases readS_cases s sd with ⟨hd, hde⟩ | ⟨e, hf, he⟩
      · rcases readS_cases s sa with ⟨hr, he⟩ | ⟨e, hf, he⟩
        · exact exec_of_ok h (by simp only [exec, execScmov, hme, hde, he, ok_bind, runCommand_pure]) ⟨⟨hm, hd, hr⟩, rfl⟩
        · exact exec_of_error h hf (by simp only [exec, execScmov, hme, hde, he, ok_bind, error_bind, runCommand_error])
      · exact exec_of_error h hf (by simp only [exec, execScmov, hme, he, ok_bind, error_bind, runCommand_error])
    · exact exec_of_error h hf (by simp only [exec, execScmov, he, error_bind, runCommand_error])
  case add rd ra rb =>
    rcases readF_cases s ra with ⟨ha, hae⟩ | ⟨e, hf, he⟩
    · rcases readF_cases s rb with ⟨hb, he⟩ | ⟨e, hf, he⟩
      · rcases require_cases (s.freg[ra].mag + s.freg[rb].mag ≤ 32) .magnitude with ⟨hq, hqe⟩ | hqe
        · exact exec_of_ok h (by simp only [exec, execAdd, hae, he, hqe, ok_bind, runCommand_pure]) ⟨⟨ha, hb, hq⟩, rfl⟩
        · exact exec_of_error h (e := .magnitude) ⟨nofun, nofun⟩
            (by simp only [exec, execAdd, hae, he, hqe, ok_bind, error_bind, runCommand_error])
      · exact exec_of_error h hf (by simp only [exec, execAdd, hae, he, ok_bind, error_bind, runCommand_error])
    · exact exec_of_error h hf (by simp only [exec, execAdd, he, error_bind, runCommand_error])
  case mul rd ra rb =>
    rcases readF_cases s ra with ⟨ha, hae⟩ | ⟨e, hf, he⟩
    · rcases readF_cases s rb with ⟨hb, he⟩ | ⟨e, hf, he⟩
      · rcases require_cases (s.freg[ra].mag ≤ 8 ∧ s.freg[rb].mag ≤ 8) .magnitude with ⟨hq, hqe⟩ | hqe <;>
          rw [Bool.decide_and] at hqe
        · exact exec_of_ok h (by simp only [exec, execMul, hae, he, hqe, ok_bind, runCommand_pure])
            ⟨⟨⟨ha, hq.1⟩, ⟨hb, hq.2⟩⟩, rfl⟩
        · exact exec_of_error h (e := .magnitude) ⟨nofun, nofun⟩
            (by simp only [exec, execMul, hae, he, hqe, ok_bind, error_bind, runCommand_error])
      · exact exec_of_error h hf (by simp only [exec, execMul, hae, he, ok_bind, error_bind, runCommand_error])
    · exact exec_of_error h hf (by simp only [exec, execMul, he, error_bind, runCommand_error])
  case cmpv ra rb =>
    rcases readF_cases s ra with ⟨ha, hae⟩ | ⟨e, hf, he⟩
    · rcases readF_cases s rb with ⟨hb, he⟩ | ⟨e, hf, he⟩
      · cases hn : (s.freg[ra].norm && s.freg[rb].norm) with
        | true =>
          obtain ⟨hna, hnb⟩ := Bool.and_eq_true_iff.1 hn
          exact exec_of_ok h (by simp only [exec, execCmpv, hae, he, hn, require_true, ok_bind, runCommand_pure])
            ⟨⟨ha, hb, hna, hnb⟩, rfl⟩
        | false =>
          exact exec_of_error h (e := .notNormalized) ⟨nofun, nofun⟩
            (by simp only [exec, execCmpv, hae, he, hn, require_false, ok_bind, error_bind, runCommand_error])
      · exact exec_of_error h hf (by simp only [exec, execCmpv, hae, he, ok_bind, error_bind, runCommand_error])
    · exact exec_of_error h hf (by simp only [exec, execCmpv, he, error_bind, runCommand_error])
  case eq ra rb | eqv ra rb =>
    rcases readF_cases s ra with ⟨ha, hae⟩ | ⟨e, hf, he⟩
    · rcases readF_cases s rb with ⟨hb, he⟩ | ⟨e, hf, he⟩
      · exact exec_of_ok h (by simp only [exec, execEq, execEqv, hae, he, ok_bind, runCommand_pure]) ⟨⟨ha, hb⟩, rfl⟩
      · exact exec_of_error h hf (by simp only [exec, execEq, execEqv, hae, he, ok_bind, error_bind, runCommand_error])
    · exact exec_of_error h hf (by simp only [exec, execEq, execEqv, he, error_bind, runCommand_error])

end Sys2Proof.Machine
end

