-- ==== Sys2Proof/Laws/Linear.lean ====
section
/-! SUPPORT. What the linear operators compute (42_linear.md): the value of the limbs they write, and that the record
satisfies `Verify`. -/

namespace Sys2Proof.Machine

/-- A record of magnitude at most 32 whose limbs are within twice its magnitude satisfies `Verify` and keeps its limbs:
each limb fits in 32 bits (42_linear.md, introduction). -/
theorem verify_of_bounds {l : List Nat} {m : Nat} (hl : l.length = 10) (hm : m ≤ 32)
    (hb : ∀ i < 9, lim l i ≤ M26 * (2 * m)) (h9 : lim l 9 ≤ M22 * (2 * m)) :
    verify (.ofLimbs l m false) = true ∧ (FieldRec.ofLimbs l m false).limbs = l := by
  have hlim : (FieldRec.ofLimbs l m false).limbs = l := by
    refine limbs_ofLimbs _ _ hl fun i hi => ?_
    by_cases h : i = 9
    · subst h; simp only [M22] at h9; omega
    · have := hb i (by omega); simp only [M26] at this; omega
  refine ⟨?_, hlim⟩
  have hk : (FieldRec.ofLimbs l m false).bound = 2 * m := by simp [FieldRec.bound, Nat.mul_comm]
  rw [verify_iff, hlim, hk]
  exact ⟨hb, h9, hm, by simp⟩

theorem length_addLimbs {a b : List Nat} (ha : a.length = 10) (hb : b.length = 10) : (addLimbs a b).length = 10 := by
  simp [addLimbs, ha, hb]

theorem lim_addLimbs {a b : List Nat} (ha : a.length = 10) (hb : b.length = 10) {i : Nat} (h : i < 10) :
    lim (addLimbs a b) i = lim a i + lim b i := by
  obtain ⟨a0, a1, a2, a3, a4, a5, a6, a7, a8, a9, rfl⟩ := list10 ha
  obtain ⟨b0, b1, b2, b3, b4, b5, b6, b7, b8, b9, rfl⟩ := list10 hb
  interval_cases i <;> rfl

/-- 42_linear.md R130: the values add. -/
theorem val_addLimbs {a b : List Nat} (ha : a.length = 10) (hb : b.length = 10) :
    val (addLimbs a b) = val a + val b := by
  obtain ⟨a0, a1, a2, a3, a4, a5, a6, a7, a8, a9, rfl⟩ := list10 ha
  obtain ⟨b0, b1, b2, b3, b4, b5, b6, b7, b8, b9, rfl⟩ := list10 hb
  simp only [addLimbs, List.zipWith_cons_cons, List.zipWith_nil_left, val]
  ring

theorem length_negLimbs (m : Nat) {a : List Nat} (ha : a.length = 10) : (negLimbs m a).length = 10 := by
  simp [negLimbs, ha, pLimb]

/-- 42_linear.md R131: no limb underflows when the magnitude is at most m ≤ 31. -/
theorem lim_negLimbs_add {m : Nat} (hm : m ≤ 31) {a : List Nat} (ha : a.length = 10)
    (hb : ∀ i < 9, lim a i ≤ M26 * (2 * m)) (h9 : lim a 9 ≤ M22 * (2 * m)) {i : Nat} (h : i < 10) :
    lim (negLimbs m a) i + lim a i = 2 * (m + 1) * lim pLimb i := by
  have hi : lim (negLimbs m a) i = 2 * (m + 1) * lim pLimb i - lim a i := by
    obtain ⟨a0, a1, a2, a3, a4, a5, a6, a7, a8, a9, rfl⟩ := list10 ha
    interval_cases i <;> rfl
  have hle : lim a i ≤ 2 * (m + 1) * lim pLimb i := by
    by_cases h' : i = 9
    · subst h'; refine h9.trans ?_; simp only [M22, lim, pLimb, List.getD_cons_zero, List.getD_cons_succ]; omega
    · refine (hb i (by omega)).trans ?_
      have : i < 9 := by omega
      interval_cases i <;> simp only [M26, lim, pLimb, List.getD_cons_zero, List.getD_cons_succ] <;> omega
  omega

/-- 42_linear.md R131: the value is 2(m + 1)·p less the operand's. -/
theorem val_negLimbs_add {m : Nat} (hm : m ≤ 31) {a : List Nat} (ha : a.length = 10)
    (hb : ∀ i < 9, lim a i ≤ M26 * (2 * m)) (h9 : lim a 9 ≤ M22 * (2 * m)) :
    val (negLimbs m a) + val a = 2 * (m + 1) * prime := by
  have e := fun i h => lim_negLimbs_add hm ha hb h9 (i := i) h
  have e0 := e 0 (by omega); have e1 := e 1 (by omega); have e2 := e 2 (by omega); have e3 := e 3 (by omega)
  have e4 := e 4 (by omega); have e5 := e 5 (by omega); have e6 := e 6 (by omega); have e7 := e 7 (by omega)
  have e8 := e 8 (by omega); have e9 := e 9 (by omega)
  rw [← val_pLimb, val_eq_sum ha, val_eq_sum (length_negLimbs m ha), val_eq_sum (show pLimb.length = 10 from rfl)]
  zify at *
  linear_combination e0 + e1 * 2 ^ 26 + e2 * 2 ^ 52 + e3 * 2 ^ 78 + e4 * 2 ^ 104 + e5 * 2 ^ 130 + e6 * 2 ^ 156
    + e7 * 2 ^ 182 + e8 * 2 ^ 208 + e9 * 2 ^ 234

theorem length_scaleLimbs (k : Nat) {a : List Nat} (ha : a.length = 10) : (scaleLimbs k a).length = 10 := by
  simp [scaleLimbs, ha]

theorem lim_scaleLimbs (k : Nat) {a : List Nat} (ha : a.length = 10) {i : Nat} (h : i < 10) :
    lim (scaleLimbs k a) i = lim a i * k := by
  obtain ⟨a0, a1, a2, a3, a4, a5, a6, a7, a8, a9, rfl⟩ := list10 ha
  interval_cases i <;> rfl

/-- 42_linear.md R132: the value is multiplied. -/
theorem val_scaleLimbs (k : Nat) (a : List Nat) : val (scaleLimbs k a) = val a * k := by
  induction a with
  | nil => simp [scaleLimbs, val]
  | cons x xs ih => simp only [scaleLimbs, List.map_cons, val] at *; rw [ih]; ring

end Sys2Proof.Machine
end

