-- ==== Sys2Proof/Laws/Normalize.lean ====
section
/-! SUPPORT. What the normalization carry chain computes (40_normalize.md): the value and the bounds of each pass, the
final subtraction, and the two zero tests. -/

namespace Sys2Proof.Machine

/-! ### The carry pass -/

/-- A carry pass keeps the value, and adds the carry that enters. -/
theorem val_carryFrom (c t : Nat) (ts : List Nat) : val (carryFrom c (t :: ts)) = c + val (t :: ts) := by
  induction ts generalizing c t with
  | nil => simp only [carryFrom, val]; omega
  | cons u us ih =>
    simp only [carryFrom, val, ih, and_M26, Nat.shiftRight_eq_div_pow]
    have := Nat.mod_add_div (t + c) (2 ^ 26)
    omega

theorem length_carryFrom (c : Nat) (l : List Nat) : (carryFrom c l).length = l.length := by
  induction l generalizing c with
  | nil => rfl
  | cons t ts ih => cases ts with
    | nil => rfl
    | cons u us => simp [carryFrom, ih]

/-- After a carry pass every limb but the last is within 26 bits. -/
theorem lim_carryFrom_le (c : Nat) (l : List Nat) (i : Nat) (h : i + 1 < l.length) : lim (carryFrom c l) i ≤ M26 := by
  induction l generalizing c i with
  | nil => simp at h
  | cons t ts ih => cases ts with
    | nil => simp at h
    | cons u us =>
      cases i with
      | zero => simp only [carryFrom, lim_cons_zero]; exact Nat.and_le_right
      | succ k => rw [carryFrom, lim_cons_succ]; exact ih _ k (by simpa using h)

/-- A carry pass with nothing to carry changes nothing. -/
theorem carryFrom_eq_self {l : List Nat} (h : ∀ i, i + 1 < l.length → lim l i ≤ M26) : carryFrom 0 l = l := by
  induction l with
  | nil => rfl
  | cons t ts ih => cases ts with
    | nil => rfl
    | cons u us =>
      have ht : t ≤ M26 := by simpa [lim] using h 0 (by simp)
      have hs : t >>> 26 = 0 := by
        rw [Nat.shiftRight_eq_div_pow, Nat.div_eq_of_lt (by simp only [M26] at ht; omega)]
      have hm : t &&& M26 = t := by rw [and_M26, Nat.mod_eq_of_lt (by simp only [M26] at ht; omega)]
      rw [carryFrom, Nat.add_zero, hs, hm, ih]
      intro i hi
      have := h (i + 1) (by simpa using hi)
      rwa [lim_cons_succ] at this

/-! ### The folds -/

theorem length_addFold (x : Nat) (n : List Nat) : (addFold x n).length = 10 := rfl

theorem length_maskTop (n : List Nat) : (maskTop n).length = 10 := rfl

theorem lim_maskTop (n : List Nat) (i : Nat) (h : i < 9) : lim (maskTop n) i = lim n i := by
  interval_cases i <;> rfl

theorem lim_maskTop_top (n : List Nat) : lim (maskTop n) 9 = lim n 9 &&& M22 := rfl

/-- The fold adds x·(2^256 − p) (00_scope.md R9). -/
theorem val_addFold (x : Nat) {n : List Nat} (h : n.length = 10) : val (addFold x n) = val n + x * 0x1000003D1 := by
  obtain ⟨a0, a1, a2, a3, a4, a5, a6, a7, a8, a9, rfl⟩ := list10 h
  simp only [addFold, lim, List.getD_cons_zero, List.getD_cons_succ, val_ten, Nat.shiftLeft_eq]
  ring

/-- Masking limb 9 drops the part of the value at and above 2^256 that limb 9 holds. -/
theorem val_maskTop_add {n : List Nat} (h : n.length = 10) : val (maskTop n) + (lim n 9 >>> 22) * 2 ^ 256 = val n := by
  obtain ⟨a0, a1, a2, a3, a4, a5, a6, a7, a8, a9, rfl⟩ := list10 h
  simp only [maskTop, lim, List.getD_cons_zero, List.getD_cons_succ, val_ten, and_M22, Nat.shiftRight_eq_div_pow]
  have := Nat.mod_add_div a9 (2 ^ 22)
  generalize a9 % 2 ^ 22 = r at *
  generalize a9 / 2 ^ 22 = q at *
  subst this
  ring

/-- Folding the top of limb 9 takes off x·p, x being the bits of limb 9 at and above 2^256 (40_normalize.md R101). -/
theorem val_weakFold_add {n : List Nat} (h : n.length = 10) : val (weakFold n) + (lim n 9 >>> 22) * prime = val n := by
  have h1 : val (weakFold n) = val (foldTop n) := by
    unfold weakFold foldTop addFold
    rw [val_carryFrom, Nat.zero_add]
  have h2 := val_maskTop_add h
  rw [h1, foldTop, val_addFold _ (length_maskTop n), prime_eq]
  omega

theorem length_weakFold (n : List Nat) : (weakFold n).length = 10 := by
  rw [weakFold, length_carryFrom]; rfl

/-- 40_normalize.md R101: after the fold limbs 0 to 8 are within 26 bits. -/
theorem lim_weakFold_le (n : List Nat) (i : Nat) (_ : i < 9) : lim (weakFold n) i ≤ M26 :=
  lim_carryFrom_le _ _ i (by change i + 1 < 10; omega)

/-- 40_normalize.md R101: the value is kept modulo p. -/
theorem fv_weakFold {n : List Nat} (h : n.length = 10) : fv (weakFold n) = fv n := by
  have := val_weakFold_add h
  rw [fv, fv, ← this, Nat.add_mul_mod_self_right]

/-- Limbs within 64 times their nominal bound: what `Verify` with magnitude at most 32 gives (10_state.md R34). -/
abbrev limbsBounded (n : List Nat) : Prop := (∀ i < 9, lim n i ≤ 64 * M26) ∧ lim n 9 ≤ 64 * M22

theorem limbsBounded_of_verify {r : FieldRec} (h : verify r = true) : limbsBounded r.limbs := by
  obtain ⟨hm, hb, h9⟩ := verify_bounds h
  refine ⟨fun i hi => (hb i hi).trans ?_, h9.trans ?_⟩
  · simp only [M26]; omega
  · simp only [M22]; omega

/-- 40_normalize.md R101: the folded value is below 2^256 + 2^241. -/
theorem val_weakFold_lt {n : List Nat} (hb : limbsBounded n) :
    val (weakFold n) < 2 ^ 256 + 2 ^ 241 := by
  have h1 : val (weakFold n) = val (maskTop n) + (lim n 9 >>> 22) * 0x1000003D1 := by
    unfold weakFold foldTop
    rw [← val_addFold _ (length_maskTop n)]
    unfold addFold
    rw [val_carryFrom, Nat.zero_add]
  have h2 : lim n 9 >>> 22 ≤ 63 := by
    rw [Nat.shiftRight_eq_div_pow]; have := hb.2; simp only [M22] at this; omega
  have h3 := val_eq_sum (length_maskTop n)
  have hm : ∀ i < 9, lim (maskTop n) i ≤ 64 * M26 := fun i hi => by rw [lim_maskTop n i hi]; exact hb.1 i hi
  have hm9 : lim (maskTop n) 9 ≤ M22 := Nat.and_le_right
  have b0 := hm 0 (by omega); have b1 := hm 1 (by omega); have b2 := hm 2 (by omega); have b3 := hm 3 (by omega)
  have b4 := hm 4 (by omega); have b5 := hm 5 (by omega); have b6 := hm 6 (by omega); have b7 := hm 7 (by omega)
  have b8 := hm 8 (by omega)
  rw [h1, h3]
  simp only [M26, M22] at *
  omega

/-- Limb 9 of limbs within their widths is the value above 2^234. -/
theorem lim_top_eq {l : List Nat} (h : l.length = 10) (hb : ∀ i < 9, lim l i ≤ M26) : lim l 9 = val l / 2 ^ 234 := by
  rw [← lim_slice26_top, slice26_val h hb]

/-- Limb 9 of the folded limbs exceeds its width by less than 2^8 (40_normalize.md R101). -/
theorem lim_weakFold_top {n : List Nat} (hb : limbsBounded n) : lim (weakFold n) 9 ≤ M22 + 128 := by
  rw [lim_top_eq (length_weakFold n) (lim_weakFold_le n)]
  have := val_weakFold_lt hb
  simp only [M22]
  omega

/-! ### The final subtraction -/

/-- 40_normalize.md R102: x is 1 exactly when the folded value is at least p. -/
theorem gePFinal_eq {t : List Nat} (hl : t.length = 10) (hb : ∀ i < 9, lim t i ≤ M26)
    (hv : val t < 2 ^ 256 + 2 ^ 241) : gePFinal t = if prime ≤ val t then 1 else 0 := by
  have h9 := lim_top_eq hl hb
  by_cases hc : lim t 9 ≤ M22
  · have hs : lim t 9 >>> 22 = 0 := by
      rw [Nat.shiftRight_eq_div_pow, Nat.div_eq_of_lt (by simp only [M22] at hc; omega)]
    have hg := geP_iff hl hb hc
    unfold geP at hg
    simp only [Bool.and_eq_true, beq_iff_eq, decide_eq_true_eq, and_assoc] at hg
    simp only [gePFinal, hs, Nat.zero_or, hg]
  · have h1 : lim t 9 >>> 22 = 1 := by
      rw [Nat.shiftRight_eq_div_pow]; simp only [M22] at hc; omega
    have h2 : ¬ lim t 9 = M22 := by simp only [M22] at *; omega
    have h3 : prime ≤ val t := by rw [prime_eq]; simp only [M22] at hc; omega
    simp [gePFinal, h1, h2, h3]

/-- Masking limb 9 of carried limbs reduces the value modulo 2^256. -/
theorem val_maskTop {u : List Nat} (hl : u.length = 10) (hb : ∀ i < 9, lim u i ≤ M26) :
    val (maskTop u) = val u % 2 ^ 256 := by
  have h1 := val_maskTop_add hl
  have h2 : val (maskTop u) < 2 ^ 256 :=
    val_lt_of_bounds (length_maskTop u) (fun i hi => by rw [lim_maskTop u i hi]; exact hb i hi) Nat.and_le_right
  rw [← h1, Nat.add_mul_mod_self_right, Nat.mod_eq_of_lt h2]

/-- The second pass subtracts p when x = 1 (40_normalize.md R103). -/
theorem finalPass_spec (x : Nat) {t : List Nat} (hl : t.length = 10) :
    (∀ i < 9, lim (finalPass x t) i ≤ M26) ∧ lim (finalPass x t) 9 ≤ M22 ∧
      val (finalPass x t) = (val t + x * 0x1000003D1) % 2 ^ 256 := by
  have hb : ∀ i < 9, lim (carryFrom 0 (addFold x t)) i ≤ M26 := fun i hi =>
    lim_carryFrom_le _ _ i (by change i + 1 < 10; omega)
  have hlen : (carryFrom 0 (addFold x t)).length = 10 := by rw [length_carryFrom]; rfl
  have hval : val (carryFrom 0 (addFold x t)) = val t + x * 0x1000003D1 := by
    rw [← val_addFold x hl]; unfold addFold; rw [val_carryFrom, Nat.zero_add]
  refine ⟨fun i hi => ?_, Nat.and_le_right, ?_⟩
  · rw [finalPass, lim_maskTop _ i hi]; exact hb i hi
  · rw [finalPass, val_maskTop hlen hb, hval]

theorem length_finalPass (x : Nat) (t : List Nat) : (finalPass x t).length = 10 := rfl

/-- The folded value, reduced by at most one p, is the field value. -/
theorem fv_eq_of_weakFold {n : List Nat} (h : n.length = 10) (hb : limbsBounded n) :
    fv n = if prime ≤ val (weakFold n) then val (weakFold n) - prime else val (weakFold n) := by
  have hv := val_weakFold_lt hb
  rw [← fv_weakFold h, fv]
  split
  · next hp =>
    rw [Nat.mod_eq_sub_mod hp, Nat.mod_eq_of_lt]
    rw [prime_eq] at *; omega
  · next hp => rw [Nat.mod_eq_of_lt (by omega)]

/-- 40_normalize.md R103: NORM's limbs are the canonical ones of the field value. -/
theorem normLimbs_spec {n : List Nat} (h : n.length = 10) (hb : limbsBounded n) :
    (normLimbs n).length = 10 ∧ (∀ i < 9, lim (normLimbs n) i ≤ M26) ∧ lim (normLimbs n) 9 ≤ M22 ∧
      val (normLimbs n) = fv n := by
  have hl := length_weakFold n
  have hv := val_weakFold_lt hb
  obtain ⟨h1, h2, h3⟩ := finalPass_spec (gePFinal (weakFold n)) hl
  refine ⟨rfl, h1, h2, ?_⟩
  rw [normLimbs, h3, gePFinal_eq hl (lim_weakFold_le n) hv, fv_eq_of_weakFold h hb]
  split
  · next hp => rw [prime_eq] at *; omega
  · next hp => rw [prime_eq] at *; omega

/-- 40_normalize.md R105: NORMV's limbs are NORM's bit for bit. -/
theorem normvLimbs_eq {n : List Nat} (hb : limbsBounded n) : normvLimbs n = normLimbs n := by
  have hl := length_weakFold n
  have hv := val_weakFold_lt hb
  have hg := gePFinal_eq hl (lim_weakFold_le n) hv
  by_cases hp : prime ≤ val (weakFold n)
  · simp [normvLimbs, normLimbs, hg, hp]
  · have hx : gePFinal (weakFold n) = 0 := by rw [hg, if_neg hp]
    obtain ⟨h1, h2, h3⟩ := finalPass_spec 0 hl
    have hval : val (finalPass 0 (weakFold n)) = val (weakFold n) := by
      rw [h3, Nat.zero_mul, Nat.add_zero, Nat.mod_eq_of_lt]; rw [prime_eq] at hp; omega
    rw [normvLimbs, normLimbs, hx, if_neg (by omega)]
    exact eq_of_val_eq hl (length_finalPass 0 _) (lim_weakFold_le n) h1 hval.symm

/-! ### The zero tests -/

theorem xor_eq_iff (x c m : Nat) : x ^^^ c = m ↔ x = m ^^^ c := by
  constructor
  · rintro rfl; rw [Nat.xor_assoc, Nat.xor_self, Nat.xor_zero]
  · rintro rfl; rw [Nat.xor_assoc, Nat.xor_self, Nat.xor_zero]

theorem and_eq_M26_iff {x y : Nat} (hx : x ≤ M26) (hy : y ≤ M26) : x &&& y = M26 ↔ x = M26 ∧ y = M26 := by
  constructor
  · intro h; exact ⟨le_antisymm hx (h ▸ Nat.and_le_left), le_antisymm hy (h ▸ Nat.and_le_right)⟩
  · rintro ⟨rfl, rfl⟩; decide

theorem xor_le_M26 {x c : Nat} (hx : x ≤ M26) (hc : c < 2 ^ 26) : x ^^^ c ≤ M26 := by
  have : x ^^^ c < 2 ^ 26 := Nat.xor_lt_two_pow (by simp only [M26] at hx; omega) hc
  simp only [M26]; omega

/-- 40_normalize.md R106: the test says whether the field value is 0. -/
theorem ntzLimbs_eq {n : List Nat} (h : n.length = 10) (hb : limbsBounded n) : ntzLimbs n = decide (fv n = 0) := by
  have hl := length_weakFold n
  have hle := lim_weakFold_le n
  have hv := val_weakFold_lt hb
  have htop := lim_weakFold_top hb
  have hfv := fv_eq_of_weakFold h hb
  have hz : fv n = 0 ↔ val (weakFold n) = 0 ∨ val (weakFold n) = prime := by
    rw [hfv]
    have := prime_pos
    split <;> omega
  have hmid : andMid (weakFold n) ≤ M26 := by
    unfold andMid
    exact Nat.and_le_right.trans (hle 8 (by omega))
  have hp : ∀ i < 9, lim pLimb i ≤ M26 := by decide
  have h0 := hle 0 (by omega); have h1 := hle 1 (by omega)
  have hm := andMid_eq_iff (l := weakFold n) hle
  unfold ntzLimbs
  generalize ht : weakFold n = t at *
  have h9 : lim t 9 ≤ M26 := htop.trans (by decide)
  obtain ⟨a0, a1, a2, a3, a4, a5, a6, a7, a8, a9, rfl⟩ := list10 hl
  have e0 : (lim [a0, a1, a2, a3, a4, a5, a6, a7, a8, a9] 0 ||| lim [a0, a1, a2, a3, a4, a5, a6, a7, a8, a9] 1
      ||| lim [a0, a1, a2, a3, a4, a5, a6, a7, a8, a9] 2 ||| lim [a0, a1, a2, a3, a4, a5, a6, a7, a8, a9] 3
      ||| lim [a0, a1, a2, a3, a4, a5, a6, a7, a8, a9] 4 ||| lim [a0, a1, a2, a3, a4, a5, a6, a7, a8, a9] 5
      ||| lim [a0, a1, a2, a3, a4, a5, a6, a7, a8, a9] 6 ||| lim [a0, a1, a2, a3, a4, a5, a6, a7, a8, a9] 7
      ||| lim [a0, a1, a2, a3, a4, a5, a6, a7, a8, a9] 8 ||| lim [a0, a1, a2, a3, a4, a5, a6, a7, a8, a9] 9 = 0) ↔
      val [a0, a1, a2, a3, a4, a5, a6, a7, a8, a9] = 0 := by
    simp only [Nat.or_eq_zero_iff, lim, List.getD_cons_zero, List.getD_cons_succ, val_ten]
    omega
  have e1 : ((lim [a0, a1, a2, a3, a4, a5, a6, a7, a8, a9] 0 ^^^ 0x3D0) &&&
      (lim [a0, a1, a2, a3, a4, a5, a6, a7, a8, a9] 1 ^^^ 0x40) &&& andMid [a0, a1, a2, a3, a4, a5, a6, a7, a8, a9] &&&
      (lim [a0, a1, a2, a3, a4, a5, a6, a7, a8, a9] 9 ^^^ 0x3C00000) = M26) ↔
      val [a0, a1, a2, a3, a4, a5, a6, a7, a8, a9] = prime := by
    rw [and_eq_M26_iff (Nat.and_le_right.trans hmid) (xor_le_M26 h9 (by norm_num)),
      and_eq_M26_iff (Nat.and_le_right.trans (xor_le_M26 h1 (by norm_num))) hmid,
      and_eq_M26_iff (xor_le_M26 h0 (by norm_num)) (xor_le_M26 h1 (by norm_num)), hm, xor_eq_iff, xor_eq_iff, xor_eq_iff]
    constructor
    · rintro ⟨⟨⟨g0, g1⟩, gm⟩, g9⟩
      have g2 := gm 2 (by omega) (by omega); have g3 := gm 3 (by omega) (by omega)
      have g4 := gm 4 (by omega) (by omega); have g5 := gm 5 (by omega) (by omega)
      have g6 := gm 6 (by omega) (by omega); have g7 := gm 7 (by omega) (by omega)
      have g8 := gm 8 (by omega) (by omega)
      simp only [lim, List.getD_cons_zero, List.getD_cons_succ] at g0 g1 g2 g3 g4 g5 g6 g7 g8 g9
      rw [g0, g1, g2, g3, g4, g5, g6, g7, g8, g9]
      decide
    · intro hval
      have hpl := eq_of_val_eq hl (k := pLimb) rfl hle hp (by rw [hval, val_pLimb])
      rw [hpl]
      refine ⟨⟨⟨by decide, by decide⟩, ?_⟩, by decide⟩
      decide
  simp only [e0, e1, hz, Bool.decide_or, beq_eq_decide]

/-- 40_normalize.md R107: the early exit never contradicts the full test. -/
theorem ntzvLimbs_eq {n : List Nat} (h : n.length = 10) (hb : limbsBounded n) : ntzvLimbs n = ntzLimbs n := by
  have hz0 : (lim n 0 + (lim n 9 >>> 22) * 0x3D1) &&& M26 = lim (weakFold n) 0 := by
    unfold weakFold foldTop addFold
    rw [carryFrom, lim_cons_zero, lim_maskTop n 0 (by omega), Nat.add_zero]
  unfold ntzvLimbs
  rw [hz0]
  dsimp only
  split
  · next hc =>
    rw [ntzLimbs_eq h hb, eq_comm, decide_eq_false_iff_not]
    intro hf
    have hfv := fv_eq_of_weakFold h hb
    rw [hf] at hfv
    have hp : ∀ i < 9, lim pLimb i ≤ M26 := by decide
    split at hfv
    · next hge =>
      have hval : val (weakFold n) = val pLimb := by rw [val_pLimb]; omega
      rw [eq_of_val_eq (length_weakFold n) rfl (lim_weakFold_le n) hp hval] at hc
      exact hc.2 (by decide)
    · have hval : val (weakFold n) = val [0, 0, 0, 0, 0, 0, 0, 0, 0, 0] := by rw [← hfv]; decide
      rw [eq_of_val_eq (length_weakFold n) rfl (lim_weakFold_le n) (by decide) hval] at hc
      exact hc.1 (by decide)
  · rfl

end Sys2Proof.Machine
end

