-- ==== Sys2Proof/Laws/Packing.lean ====
section
/-! SUPPORT. The two packings of a 256-bit integer into eight words: little-word-first storage (10_state.md R40,
46_storage_raw.md R200) and the big-endian wire encoding (10_state.md R42, 41_serialization.md R122). -/

namespace Sys2Proof.Machine

theorem nats8 (v : Vector Word 8) : nats v =
    [v[0].toNat, v[1].toNat, v[2].toNat, v[3].toNat, v[4].toNat, v[5].toNat, v[6].toNat, v[7].toNat] := by
  refine List.ext_getElem (by simp [nats]) fun i h1 h2 => ?_
  simp only [List.length_cons, List.length_nil, Nat.zero_add, Nat.reduceAdd] at h2
  interval_cases i <;> simp [nats]

/-- The integer of eight 32-bit digits, the least significant first. -/
abbrev digits8 (d0 d1 d2 d3 d4 d5 d6 d7 : Nat) : Nat :=
  d0 + 2 ^ 32 * (d1 + 2 ^ 32 * (d2 + 2 ^ 32 * (d3 + 2 ^ 32 * (d4 + 2 ^ 32 * (d5 + 2 ^ 32 * (d6 + 2 ^ 32 * d7))))))

theorem sval_eq (v : Vector Word 8) : sval v = digits8 v[0].toNat v[1].toNat v[2].toNat v[3].toNat v[4].toNat v[5].toNat
    v[6].toNat v[7].toNat := by
  simp [sval, nats8]

theorem bval_eq (v : Vector Word 8) : bval v = digits8 v[7].toNat v[6].toNat v[5].toNat v[4].toNat v[3].toNat v[2].toNat
    v[1].toNat v[0].toNat := by
  simp only [bval, nats8, List.foldl_cons, List.foldl_nil, digits8]
  ring

theorem digits8_lt {d0 d1 d2 d3 d4 d5 d6 d7 : Nat} (h0 : d0 < 2 ^ 32) (h1 : d1 < 2 ^ 32) (h2 : d2 < 2 ^ 32)
    (h3 : d3 < 2 ^ 32) (h4 : d4 < 2 ^ 32) (h5 : d5 < 2 ^ 32) (h6 : d6 < 2 ^ 32) (h7 : d7 < 2 ^ 32) :
    digits8 d0 d1 d2 d3 d4 d5 d6 d7 < 2 ^ 256 := by
  unfold digits8; omega

theorem sval_lt (v : Vector Word 8) : sval v < 2 ^ 256 := by
  rw [sval_eq]
  exact digits8_lt v[0].isLt v[1].isLt v[2].isLt v[3].isLt v[4].isLt v[5].isLt v[6].isLt v[7].isLt

theorem bval_lt (v : Vector Word 8) : bval v < 2 ^ 256 := by
  rw [bval_eq]
  exact digits8_lt v[7].isLt v[6].isLt v[5].isLt v[4].isLt v[3].isLt v[2].isLt v[1].isLt v[0].isLt

theorem digit_join (v a b : Nat) (h : b = a * 2 ^ 32) : v / a % 2 ^ 32 + 2 ^ 32 * (v / b) = v / a := by
  rw [h, ← Nat.div_div_eq_div_mul, Nat.mod_add_div]

/-- A 256-bit integer is that of its eight digits. -/
theorem digits8_div {v : Nat} (h : v < 2 ^ 256) :
    digits8 (v % 2 ^ 32) (v / 2 ^ 32 % 2 ^ 32) (v / 2 ^ 64 % 2 ^ 32) (v / 2 ^ 96 % 2 ^ 32) (v / 2 ^ 128 % 2 ^ 32)
      (v / 2 ^ 160 % 2 ^ 32) (v / 2 ^ 192 % 2 ^ 32) (v / 2 ^ 224 % 2 ^ 32) = v := by
  have htop : v / 2 ^ 224 % 2 ^ 32 = v / 2 ^ 224 := Nat.mod_eq_of_lt (by omega)
  unfold digits8
  rw [htop, digit_join v (2 ^ 192) (2 ^ 224) (by norm_num), digit_join v (2 ^ 160) (2 ^ 192) (by norm_num),
    digit_join v (2 ^ 128) (2 ^ 160) (by norm_num), digit_join v (2 ^ 96) (2 ^ 128) (by norm_num),
    digit_join v (2 ^ 64) (2 ^ 96) (by norm_num), digit_join v (2 ^ 32) (2 ^ 64) (by norm_num), Nat.mod_add_div]

theorem digit_split {x y x' y' : Nat} (hx : x < 2 ^ 32) (hx' : x' < 2 ^ 32)
    (h : x + 2 ^ 32 * y = x' + 2 ^ 32 * y') : x = x' ∧ y = y' := by omega

/-- The digits are determined by the integer. -/
theorem digits8_inj {d0 d1 d2 d3 d4 d5 d6 d7 e0 e1 e2 e3 e4 e5 e6 e7 : Nat} (h0 : d0 < 2 ^ 32) (h1 : d1 < 2 ^ 32)
    (h2 : d2 < 2 ^ 32) (h3 : d3 < 2 ^ 32) (h4 : d4 < 2 ^ 32) (h5 : d5 < 2 ^ 32) (h6 : d6 < 2 ^ 32) (k0 : e0 < 2 ^ 32)
    (k1 : e1 < 2 ^ 32) (k2 : e2 < 2 ^ 32) (k3 : e3 < 2 ^ 32) (k4 : e4 < 2 ^ 32) (k5 : e5 < 2 ^ 32) (k6 : e6 < 2 ^ 32)
    (h : digits8 d0 d1 d2 d3 d4 d5 d6 d7 = digits8 e0 e1 e2 e3 e4 e5 e6 e7) :
    d0 = e0 ∧ d1 = e1 ∧ d2 = e2 ∧ d3 = e3 ∧ d4 = e4 ∧ d5 = e5 ∧ d6 = e6 ∧ d7 = e7 := by
  obtain ⟨g0, h⟩ := digit_split h0 k0 h
  obtain ⟨g1, h⟩ := digit_split h1 k1 h
  obtain ⟨g2, h⟩ := digit_split h2 k2 h
  obtain ⟨g3, h⟩ := digit_split h3 k3 h
  obtain ⟨g4, h⟩ := digit_split h4 k4 h
  obtain ⟨g5, h⟩ := digit_split h5 k5 h
  obtain ⟨g6, g7⟩ := digit_split h6 k6 h
  exact ⟨g0, g1, g2, g3, g4, g5, g6, g7⟩

/-- The wire buffer is determined by the integer it holds. -/
theorem bval_inj {v w : Vector Word 8} (h : bval v = bval w) : v = w := by
  rw [bval_eq, bval_eq] at h
  obtain ⟨g7, g6, g5, g4, g3, g2, g1, g0⟩ := digits8_inj v[7].isLt v[6].isLt v[5].isLt v[4].isLt v[3].isLt v[2].isLt
    v[1].isLt w[7].isLt w[6].isLt w[5].isLt w[4].isLt w[3].isLt w[2].isLt w[1].isLt h
  refine Vector.ext fun i hi => BitVec.eq_of_toNat_eq ?_
  interval_cases i <;> assumption

/-! ### Storage words -/

theorem toNat_storWord (v j : Nat) : (storWord v j).toNat = v / 2 ^ (32 * j) % 2 ^ 32 := by
  have h : (0xFFFFFFFF : Nat) = 2 ^ 32 - 1 := rfl
  rw [storWord, BitVec.toNat_ofNat, h, Nat.and_two_pow_sub_one_eq_mod, Nat.mod_mod, Nat.shiftRight_eq_div_pow]

/-- 46_storage_raw.md R200: the eight words hold the integer. -/
theorem sval_toStor {v : Nat} (h : v < 2 ^ 256) : sval (toStor v) = v := by
  rw [sval_eq]
  conv_rhs => rw [← digits8_div h]
  simp [toStor, toNat_storWord]

/-! ### Wire words -/

theorem toNat_wireWord (v j : Nat) (h : j < 8) : (wireWord v j).toNat = v / 2 ^ (32 * (7 - j)) % 2 ^ 32 := by
  have h255 : (0xFF : Nat) = 2 ^ 8 - 1 := rfl
  simp only [wireWord, wireByte, BitVec.toNat_ofNat, h255, Nat.and_two_pow_sub_one_eq_mod, Nat.shiftRight_eq_div_pow]
  have e3 : 8 * (31 - (4 * j + 3)) = 32 * (7 - j) := by omega
  have e2 : 8 * (31 - (4 * j + 2)) = 32 * (7 - j) + 8 := by omega
  have e1 : 8 * (31 - (4 * j + 1)) = 32 * (7 - j) + 16 := by omega
  have e0 : 8 * (31 - 4 * j) = 32 * (7 - j) + 24 := by omega
  rw [e0, e1, e2, e3, Nat.pow_add, Nat.pow_add, Nat.pow_add, ← Nat.div_div_eq_div_mul, ← Nat.div_div_eq_div_mul,
    ← Nat.div_div_eq_div_mul]
  generalize v / 2 ^ (32 * (7 - j)) = x
  omega

/-- 41_serialization.md R122: the 32 bytes hold the integer. -/
theorem bval_toWire {v : Nat} (h : v < 2 ^ 256) : bval (toWire v) = v := by
  rw [bval_eq]
  conv_rhs => rw [← digits8_div h]
  simp [toWire, toNat_wireWord]

/-- 41_serialization.md R124: encoding the integer of a buffer gives the buffer. -/
theorem toWire_bval (b : Vector Word 8) : toWire (bval b) = b := bval_inj (bval_toWire (bval_lt b))

/-! ### Slices -/

/-- The slices of a value below p as a record of magnitude 1, normalized, are canonical and hold it
(41_serialization.md R120, 46_storage_raw.md R201). -/
theorem canonical_slice26 {v : Nat} (h : v < prime) :
    (FieldRec.ofLimbs (slice26 v) 1 true).canonical ∧ (FieldRec.ofLimbs (slice26 v) 1 true).limbs = slice26 v ∧
      (FieldRec.ofLimbs (slice26 v) 1 true).val = v := by
  have hv : v < 2 ^ 256 := h.trans (by norm_num [prime])
  have hl : (FieldRec.ofLimbs (slice26 v) 1 true).limbs = slice26 v := by
    refine limbs_ofLimbs _ _ (length_slice26 v) fun i hi => ?_
    by_cases h9 : i = 9
    · subst h9; have := slice26_top v hv; simp only [M22] at this; omega
    · have := slice26_le v i (by omega); simp only [M26] at this; omega
  have hval : (FieldRec.ofLimbs (slice26 v) 1 true).val = v := by rw [FieldRec.val, hl, val_slice26]
  refine ⟨⟨fun i hi => ?_, ?_, ?_, rfl, rfl⟩, hl, hval⟩
  · rw [hl]; exact slice26_le v i hi
  · rw [hl]; exact slice26_top v hv
  · rw [hval]; exact h

end Sys2Proof.Machine
end

