-- ==== Sys2Proof/Laws/PerInstr.lean ====
section
/-! SUPPORT. A law of every command, one lemma per constructor: its encoding lies in its row of spec/opcode_table.json. -/

namespace Sys2Proof.Laws

/-- The columns "mask" and "match" of a command's row of the opcode table (30_encoding.md R83). -/
def tableRow : Instr → Word × Word
  | .norm _ _ => (0xFF00FFFF, 0x10000000)
  | .normw _ _ => (0xFF00FFFF, 0x11000000)
  | .normv _ _ => (0xFF00FFFF, 0x12000000)
  | .ntz _ => (0xFFF0FFFF, 0x13000000)
  | .ntzv _ => (0xFFF0FFFF, 0x14000000)
  | .setb32 _ => (0xFF0FFFFF, 0x20000000)
  | .getb32 _ => (0xFFF0FFFF, 0x21000000)
  | .add _ _ _ => (0xFF000FFF, 0x30000000)
  | .neg _ _ _ => (0xFF00F000, 0x31000000)
  | .mulint _ _ _ => (0xFF00F000, 0x32000000)
  | .cmov _ _ _ => (0xFF00F000, 0x33000000)
  | .mov _ _ => (0xFF00FFFF, 0x34000000)
  | .setint _ _ => (0xFF0FF000, 0x35000000)
  | .clear _ => (0xFF0FFFFF, 0x36000000)
  | .mul _ _ _ => (0xFF000FFF, 0x40000000)
  | .sqr _ _ => (0xFF00FFFF, 0x41000000)
  | .inv _ _ => (0xFF00FFFF, 0x50000000)
  | .invv _ _ => (0xFF00FFFF, 0x51000000)
  | .sqrt _ _ => (0xFF00FFFF, 0x52000000)
  | .isqv _ => (0xFFF0FFFF, 0x53000000)
  | .cmpv _ _ => (0xFFF00FFF, 0x60000000)
  | .eq _ _ => (0xFFF00FFF, 0x61000000)
  | .eqv _ _ => (0xFFF00FFF, 0x62000000)
  | .tostor _ _ => (0xFF00FFFF, 0x70000000)
  | .fromstor _ _ => (0xFF00FFFF, 0x71000000)
  | .scmov _ _ _ => (0xFF00F000, 0x72000000)
  | .ldstor _ => (0xFF0FFFFF, 0x73000000)
  | .ststor _ => (0xFFF0FFFF, 0x74000000)
  | .ldraw _ => (0xFF0FFFFF, 0x80000000)
  | .straw _ => (0xFFF0FFFF, 0x81000000)
  | .verify _ => (0xFFF0FFFF, 0x82000000)

/-- The encoding of the command matches its row: (word & mask) = match (30_encoding.md R83). -/
def EncodeMatchesTable.Statement (i : Instr) : Prop := encode i &&& (tableRow i).1 = (tableRow i).2

theorem EncodeMatchesTable.norm (rd ra : FieldIx) : EncodeMatchesTable.Statement (.norm rd ra) := by
  apply BitVec.eq_of_getLsbD_eq
  intro k hk
  simp only [encode, tableRow, packWord, BitVec.getLsbD_and, BitVec.getLsbD_append]
  interval_cases k <;> simp

theorem EncodeMatchesTable.normw (rd ra : FieldIx) : EncodeMatchesTable.Statement (.normw rd ra) := by
  apply BitVec.eq_of_getLsbD_eq
  intro k hk
  simp only [encode, tableRow, packWord, BitVec.getLsbD_and, BitVec.getLsbD_append]
  interval_cases k <;> simp

theorem EncodeMatchesTable.normv (rd ra : FieldIx) : EncodeMatchesTable.Statement (.normv rd ra) := by
  apply BitVec.eq_of_getLsbD_eq
  intro k hk
  simp only [encode, tableRow, packWord, BitVec.getLsbD_and, BitVec.getLsbD_append]
  interval_cases k <;> simp

theorem EncodeMatchesTable.ntz (ra : FieldIx) : EncodeMatchesTable.Statement (.ntz ra) := by
  apply BitVec.eq_of_getLsbD_eq
  intro k hk
  simp only [encode, tableRow, packWord, BitVec.getLsbD_and, BitVec.getLsbD_append]
  interval_cases k <;> simp

theorem EncodeMatchesTable.ntzv (ra : FieldIx) : EncodeMatchesTable.Statement (.ntzv ra) := by
  apply BitVec.eq_of_getLsbD_eq
  intro k hk
  simp only [encode, tableRow, packWord, BitVec.getLsbD_and, BitVec.getLsbD_append]
  interval_cases k <;> simp

theorem EncodeMatchesTable.setb32 (rd : FieldIx) : EncodeMatchesTable.Statement (.setb32 rd) := by
  apply BitVec.eq_of_getLsbD_eq
  intro k hk
  simp only [encode, tableRow, packWord, BitVec.getLsbD_and, BitVec.getLsbD_append]
  interval_cases k <;> simp

theorem EncodeMatchesTable.getb32 (ra : FieldIx) : EncodeMatchesTable.Statement (.getb32 ra) := by
  apply BitVec.eq_of_getLsbD_eq
  intro k hk
  simp only [encode, tableRow, packWord, BitVec.getLsbD_and, BitVec.getLsbD_append]
  interval_cases k <;> simp

theorem EncodeMatchesTable.add (rd ra rb : FieldIx) : EncodeMatchesTable.Statement (.add rd ra rb) := by
  apply BitVec.eq_of_getLsbD_eq
  intro k hk
  simp only [encode, tableRow, packWord, BitVec.getLsbD_and, BitVec.getLsbD_append]
  interval_cases k <;> simp

theorem EncodeMatchesTable.neg (rd ra : FieldIx) (m : BitVec 12) : EncodeMatchesTable.Statement (.neg rd ra m) := by
  apply BitVec.eq_of_getLsbD_eq
  intro k hk
  simp only [encode, tableRow, packWord, BitVec.getLsbD_and, BitVec.getLsbD_append]
  interval_cases k <;> simp

theorem EncodeMatchesTable.mulint (rd ra : FieldIx) (a : BitVec 12) : EncodeMatchesTable.Statement (.mulint rd ra a) := by
  apply BitVec.eq_of_getLsbD_eq
  intro k hk
  simp only [encode, tableRow, packWord, BitVec.getLsbD_and, BitVec.getLsbD_append]
  interval_cases k <;> simp

theorem EncodeMatchesTable.cmov (rd ra : FieldIx) (flag : BitVec 12) : EncodeMatchesTable.Statement (.cmov rd ra flag) := by
  apply BitVec.eq_of_getLsbD_eq
  intro k hk
  simp only [encode, tableRow, packWord, BitVec.getLsbD_and, BitVec.getLsbD_append]
  interval_cases k <;> simp

theorem EncodeMatchesTable.mov (rd ra : FieldIx) : EncodeMatchesTable.Statement (.mov rd ra) := by
  apply BitVec.eq_of_getLsbD_eq
  intro k hk
  simp only [encode, tableRow, packWord, BitVec.getLsbD_and, BitVec.getLsbD_append]
  interval_cases k <;> simp

theorem EncodeMatchesTable.setint (rd : FieldIx) (imm : BitVec 12) : EncodeMatchesTable.Statement (.setint rd imm) := by
  apply BitVec.eq_of_getLsbD_eq
  intro k hk
  simp only [encode, tableRow, packWord, BitVec.getLsbD_and, BitVec.getLsbD_append]
  interval_cases k <;> simp

theorem EncodeMatchesTable.clear (rd : FieldIx) : EncodeMatchesTable.Statement (.clear rd) := by
  apply BitVec.eq_of_getLsbD_eq
  intro k hk
  simp only [encode, tableRow, packWord, BitVec.getLsbD_and, BitVec.getLsbD_append]
  interval_cases k <;> simp

theorem EncodeMatchesTable.mul (rd ra rb : FieldIx) : EncodeMatchesTable.Statement (.mul rd ra rb) := by
  apply BitVec.eq_of_getLsbD_eq
  intro k hk
  simp only [encode, tableRow, packWord, BitVec.getLsbD_and, BitVec.getLsbD_append]
  interval_cases k <;> simp

theorem EncodeMatchesTable.sqr (rd ra : FieldIx) : EncodeMatchesTable.Statement (.sqr rd ra) := by
  apply BitVec.eq_of_getLsbD_eq
  intro k hk
  simp only [encode, tableRow, packWord, BitVec.getLsbD_and, BitVec.getLsbD_append]
  interval_cases k <;> simp

theorem EncodeMatchesTable.inv (rd ra : FieldIx) : EncodeMatchesTable.Statement (.inv rd ra) := by
  apply BitVec.eq_of_getLsbD_eq
  intro k hk
  simp only [encode, tableRow, packWord, BitVec.getLsbD_and, BitVec.getLsbD_append]
  interval_cases k <;> simp

theorem EncodeMatchesTable.invv (rd ra : FieldIx) : EncodeMatchesTable.Statement (.invv rd ra) := by
  apply BitVec.eq_of_getLsbD_eq
  intro k hk
  simp only [encode, tableRow, packWord, BitVec.getLsbD_and, BitVec.getLsbD_append]
  interval_cases k <;> simp

theorem EncodeMatchesTable.sqrt (rd ra : FieldIx) : EncodeMatchesTable.Statement (.sqrt rd ra) := by
  apply BitVec.eq_of_getLsbD_eq
  intro k hk
  simp only [encode, tableRow, packWord, BitVec.getLsbD_and, BitVec.getLsbD_append]
  interval_cases k <;> simp

theorem EncodeMatchesTable.isqv (ra : FieldIx) : EncodeMatchesTable.Statement (.isqv ra) := by
  apply BitVec.eq_of_getLsbD_eq
  intro k hk
  simp only [encode, tableRow, packWord, BitVec.getLsbD_and, BitVec.getLsbD_append]
  interval_cases k <;> simp

theorem EncodeMatchesTable.cmpv (ra rb : FieldIx) : EncodeMatchesTable.Statement (.cmpv ra rb) := by
  apply BitVec.eq_of_getLsbD_eq
  intro k hk
  simp only [encode, tableRow, packWord, BitVec.getLsbD_and, BitVec.getLsbD_append]
  interval_cases k <;> simp

theorem EncodeMatchesTable.eq (ra rb : FieldIx) : EncodeMatchesTable.Statement (.eq ra rb) := by
  apply BitVec.eq_of_getLsbD_eq
  intro k hk
  simp only [encode, tableRow, packWord, BitVec.getLsbD_and, BitVec.getLsbD_append]
  interval_cases k <;> simp

theorem EncodeMatchesTable.eqv (ra rb : FieldIx) : EncodeMatchesTable.Statement (.eqv ra rb) := by
  apply BitVec.eq_of_getLsbD_eq
  intro k hk
  simp only [encode, tableRow, packWord, BitVec.getLsbD_and, BitVec.getLsbD_append]
  interval_cases k <;> simp

theorem EncodeMatchesTable.tostor (sd : StorIx) (fa : FieldIx) : EncodeMatchesTable.Statement (.tostor sd fa) := by
  apply BitVec.eq_of_getLsbD_eq
  intro k hk
  simp only [encode, tableRow, packWord, BitVec.getLsbD_and, BitVec.getLsbD_append]
  interval_cases k <;> simp

theorem EncodeMatchesTable.fromstor (fd : FieldIx) (sa : StorIx) : EncodeMatchesTable.Statement (.fromstor fd sa) := by
  apply BitVec.eq_of_getLsbD_eq
  intro k hk
  simp only [encode, tableRow, packWord, BitVec.getLsbD_and, BitVec.getLsbD_append]
  interval_cases k <;> simp

theorem EncodeMatchesTable.scmov (sd sa : StorIx) (flag : BitVec 12) : EncodeMatchesTable.Statement (.scmov sd sa flag) := by
  apply BitVec.eq_of_getLsbD_eq
  intro k hk
  simp only [encode, tableRow, packWord, BitVec.getLsbD_and, BitVec.getLsbD_append]
  interval_cases k <;> simp

theorem EncodeMatchesTable.ldstor (sd : StorIx) : EncodeMatchesTable.Statement (.ldstor sd) := by
  apply BitVec.eq_of_getLsbD_eq
  intro k hk
  simp only [encode, tableRow, packWord, BitVec.getLsbD_and, BitVec.getLsbD_append]
  interval_cases k <;> simp

theorem EncodeMatchesTable.ststor (sa : StorIx) : EncodeMatchesTable.Statement (.ststor sa) := by
  apply BitVec.eq_of_getLsbD_eq
  intro k hk
  simp only [encode, tableRow, packWord, BitVec.getLsbD_and, BitVec.getLsbD_append]
  interval_cases k <;> simp

theorem EncodeMatchesTable.ldraw (fd : FieldIx) : EncodeMatchesTable.Statement (.ldraw fd) := by
  apply BitVec.eq_of_getLsbD_eq
  intro k hk
  simp only [encode, tableRow, packWord, BitVec.getLsbD_and, BitVec.getLsbD_append]
  interval_cases k <;> simp

theorem EncodeMatchesTable.straw (fa : FieldIx) : EncodeMatchesTable.Statement (.straw fa) := by
  apply BitVec.eq_of_getLsbD_eq
  intro k hk
  simp only [encode, tableRow, packWord, BitVec.getLsbD_and, BitVec.getLsbD_append]
  interval_cases k <;> simp

theorem EncodeMatchesTable.verify (fa : FieldIx) : EncodeMatchesTable.Statement (.verify fa) := by
  apply BitVec.eq_of_getLsbD_eq
  intro k hk
  simp only [encode, tableRow, packWord, BitVec.getLsbD_and, BitVec.getLsbD_append]
  interval_cases k <;> simp

end Sys2Proof.Laws
end

