-- ==== Sys2Proof/Laws/Run.lean ====
section
/-! SUPPORT. Runs of several cycles (Host/Core.lean), and the registers of the window by offset (20_memory.md R61). -/

namespace Sys2Proof.Machine

/-! ### Runs -/

/-- A run of `k + 1` cycles is one step and a run of `k`. -/
theorem core_run_succ (M : Host.Core) {k : Nat} {s t : M.State} (h : M.step s = .next t) : M.run (k + 1) s = M.run k t := by
  simp [Host.Core.run, h]

/-- A run of one cycle is one step. -/
theorem core_run_one (M : Host.Core) (s : M.State) : M.run 1 s = M.step s := by
  rw [Host.Core.run.eq_def]
  cases h : M.step s <;> simp [Host.Core.run, h]

/-- A run goes on from where a shorter one ended. -/
theorem core_run_add (M : Host.Core) {m k : Nat} {s t : M.State} (h : M.run m s = .next t) :
    M.run (m + k) s = M.run k t := by
  induction m generalizing s with
  | zero => simp only [Host.Core.run, Host.Outcome.next.injEq] at h; rw [h, Nat.zero_add]
  | succ m ih =>
    rw [show m + 1 + k = m + k + 1 by omega]
    cases hs : M.step s with
    | next u => rw [core_run_succ M hs] at h; rw [core_run_succ M hs]; exact ih h
    | fault r => simp [Host.Core.run, hs] at h
    | refused r => simp [Host.Core.run, hs] at h

theorem run_succ {k : Nat} {s t : State} (h : step s = .next t) : core.run (k + 1) s = core.run k t :=
  core_run_succ core h

theorem run_one (s : State) : core.run 1 s = step s := core_run_one core s

theorem run_add {m k : Nat} {s t : State} (h : core.run m s = .next t) : core.run (m + k) s = core.run k t :=
  core_run_add core h

/-! ### The register map -/

theorem busReg_bufw (j : Fin 8) : busReg (0x040 + 4 * j.val) = .bufw j := by revert j; decide

theorem busReg_limb (i : Fin 10) : busReg (0x060 + 4 * i.val) = .limb i := by revert i; decide

theorem busReg_reserved {off : Nat} (h : reservedOffset off) : busReg off = .reserved := by
  have key : ∀ off < 256, off % 4 = 0 → (0x014 ≤ off ∧ off ≤ 0x03C ∨ 0x08C ≤ off) → busReg off = .reserved := by
    decide +kernel
  exact key off h.1.1 h.1.2 h.2

/-- CMD, BUFW, LIMB and META are the registers whose writes overrun (20_memory.md R64). -/
theorem lockedWhileBusy_of_locked {off : Nat} (h : lockedOffset off) : (busReg off).lockedWhileBusy = true := by
  have key : ∀ off < 256, off % 4 = 0 → (off = 0x000 ∨ 0x040 ≤ off ∧ off ≤ 0x088) →
      (busReg off).lockedWhileBusy = true := by decide +kernel
  exact key off h.1.1 h.1.2 h.2

end Sys2Proof.Machine
end

