-- ==== Sys2Proof/Tests/Slice0.lean ====
section
/-! SUPPORT. Tests of the model: the well-formedness checks, every command's decoding from a word written out from the
opcode map (30_encoding.md R84, R87), single steps with the results of 95_test_vectors.md, and, for every obligation
with hypotheses, concrete values that meet them. -/

namespace Sys2Proof.Tests

open Sys2Proof Sys2Proof.Machine

-- One kernel evaluation at a time: many at once run out of threads.
set_option Elab.async false

/-! ## Well-formedness (30_encoding.md R82): each check refuses an ill-formed command -/

theorem test_wf_neg : (Instr.neg 3 1 31).wellFormed = true ∧ (Instr.neg 3 1 32).wellFormed = false := by decide

theorem test_wf_mulint : (Instr.mulint 3 1 32).wellFormed = true ∧ (Instr.mulint 3 1 33).wellFormed = false := by
  decide

theorem test_wf_cmov : (Instr.cmov 1 2 1).wellFormed = true ∧ (Instr.cmov 1 2 2).wellFormed = false := by decide

theorem test_wf_scmov : (Instr.scmov 1 2 1).wellFormed = true ∧ (Instr.scmov 1 2 2).wellFormed = false := by decide

theorem test_wf_setint : (Instr.setint 0 0).wellFormed = true ∧ (Instr.setint 0 4095).wellFormed = true := by decide

/-! ## Decoding: words written out from the opcode map -/

theorem test_decode_normalize :
    decode 0x10D20000 = .command (.norm 13 2) ∧ decode 0x11D20000 = .command (.normw 13 2) ∧
    decode 0x12D20000 = .command (.normv 13 2) ∧ decode 0x13040000 = .command (.ntz 4) ∧
    decode 0x140F0000 = .command (.ntzv 15) := by decide

theorem test_decode_serialize :
    decode 0x20700000 = .command (.setb32 7) ∧ decode 0x210E0000 = .command (.getb32 14) := by decide

theorem test_decode_linear :
    decode 0x3021A000 = .command (.add 2 1 10) ∧ decode 0x31310001 = .command (.neg 3 1 1) ∧
    decode 0x3121001F = .command (.neg 2 1 31) ∧ decode 0x32C50020 = .command (.mulint 12 5 32) ∧
    decode 0x33120001 = .command (.cmov 1 2 1) ∧ decode 0x34EF0000 = .command (.mov 14 15) ∧
    decode 0x35000FFF = .command (.setint 0 4095) ∧ decode 0x36300000 = .command (.clear 3) := by decide

theorem test_decode_multiply :
    decode 0x40201000 = .command (.mul 2 0 1) ∧ decode 0x41BC0000 = .command (.sqr 11 12) := by decide

theorem test_decode_chains :
    decode 0x50100000 = .command (.inv 1 0) ∧ decode 0x51980000 = .command (.invv 9 8) ∧
    decode 0x52100000 = .command (.sqrt 1 0) ∧ decode 0x53020000 = .command (.isqv 2) := by decide

theorem test_decode_compare :
    decode 0x6001F000 = .command (.cmpv 1 15) ∧ decode 0x61012000 = .command (.eq 1 2) ∧
    decode 0x620D6000 = .command (.eqv 13 6) := by decide

theorem test_decode_storage :
    decode 0x70170000 = .command (.tostor 1 7) ∧ decode 0x71700000 = .command (.fromstor 7 0) ∧
    decode 0x72AB0001 = .command (.scmov 10 11 1) ∧ decode 0x73C00000 = .command (.ldstor 12) ∧
    decode 0x74010000 = .command (.ststor 1) ∧ decode 0x80700000 = .command (.ldraw 7) ∧
    decode 0x81010000 = .command (.straw 1) ∧ decode 0x820F0000 = .command (.verify 15) := by decide

/-- Reserved OPs (30_encoding.md R85). -/
theorem test_decode_illegal_op :
    decode 0x00000000 = .illegalOp ∧ decode 0xFF000000 = .illegalOp ∧ decode 0x15000000 = .illegalOp ∧
    decode 0x42000000 = .illegalOp ∧ decode 0x83000000 = .illegalOp := by decide

/-- Unused fields that are not 0 (30_encoding.md R83; 95_test_vectors.md VS8, VL18, VM8, VX3), one per shape. -/
theorem test_decode_unused_field :
    decode 0x20000001 = .illegalField ∧ decode 0x36310000 = .illegalField ∧ decode 0x36301000 = .illegalField ∧
    decode 0x35010005 = .illegalField ∧ decode 0x13140000 = .illegalField ∧ decode 0x10220001 = .illegalField ∧
    decode 0x10221000 = .illegalField ∧ decode 0x31311001 = .illegalField ∧ decode 0x40201001 = .illegalField ∧
    decode 0x61112000 = .illegalField := by decide

/-- Immediates out of range (30_encoding.md R82; 95_test_vectors.md VL7, VL11, VL15). -/
theorem test_decode_immediate_range :
    decode 0x31100020 = .illegalField ∧ decode 0x32100021 = .illegalField ∧ decode 0x33120002 = .illegalField ∧
    decode 0x72120002 = .illegalField := by decide

theorem test_table_word : decodeTableWord 32 0x40201000 = some (.mul 2 0 1) ∧ decodeTableWord 32 0 = none := by decide

/-! ## One small state for the single-step tests -/

/-- A written field register. -/
def fr (n : List Nat) (mag : Nat) (norm : Bool) : FieldReg := { FieldRec.ofLimbs n mag norm with w := true }

/-- `SETINT`'s record of a small integer. -/
def small (v : Nat) : FieldReg := fr [v] 1 true

/-- Seven equal limbs between two low ones and a top one. -/
def limbs7 (a b m t : Nat) : List Nat := [a, b, m, m, m, m, m, m, m, t]

/-- The limbs of p + `d` for a small `d`, as 00_scope.md R10 writes those of p. -/
def pPlus (d : Int) : List Nat := limbs7 (Int.toNat (0x3FFFC2F + d)) 0x3FFFFBF 0x3FFFFFF 0x3FFFFF

/-- The limbs of 95_test_vectors.md W5, and its wire words. -/
def w5 : List Nat :=
  [0x3D2E1F0, 0x1A96D30, 0x2978879, 0x0F12D69, 0x00F1E2D, 0x1950C84, 0x1CBA987, 0x337BFFB, 0x16789AB, 0x00048D1]

def w5Words : Vector Word 8 :=
  #v[0x01234567, 0x89ABCDEF, 0xFEDCBA98, 0x76543210, 0x0F1E2D3C, 0x4B5A6978, 0x8796A5B4, 0xC3D2E1F0]

/-- The words of p + `d`, little-word-first. -/
def pWords (d : Int) : Vector Word 8 :=
  #v[BitVec.ofInt 32 (0xFFFFFC2F + d), 0xFFFFFFFE, 0xFFFFFFFF, 0xFFFFFFFF, 0xFFFFFFFF, 0xFFFFFFFF, 0xFFFFFFFF,
    0xFFFFFFFF]

/-- A written storage register. -/
def sr (sw : Vector Word 8) : StorReg := { sw := sw, w := true }

/-- F0 and S0 are unwritten; F4 fails `Verify` (95_test_vectors.md VS2). -/
def base : State :=
  { State.reset with
    freg := #v[.unwritten, small 7, small 9, fr [0x12] 9 false,
      fr (limbs7 0x3FFFFFF 0x3FFFFFF 0x3FFFFFF 0x3FFFFF) 1 true,
      fr (limbs7 0x3FFFFFF0 0x3FFFFFF0 0x3FFFFFF0 0x3FFFFF0) 8 false, fr (pPlus 0) 1 false, fr [] 0 true,
      fr (pPlus (-1)) 1 true, fr (limbs7 0xFFFFFFC0 0xFFFFFFC0 0xFFFFFFC0 0xFFFFFC0) 32 false, fr (pPlus 1) 1 false,
      fr [0x20] 32 false, fr [0x23] 1 false, small 3, small 4, fr w5 1 true]
    sreg := (((State.reset.sreg.set 1 (sr #v[1, 0, 0, 0, 0, 0, 0, 0])).set 2 (sr #v[2, 0, 0, 0, 0, 0, 0, 0])).set 3
      (sr (pWords 0))).set 4 (sr (pWords (-1)))
    bufw := w5Words
    limb := #v[1, 2, 3, 4, 5, 6, 7, 8, 0xAAAA, 0xBBBB]
    metaw := 0x101
    result := 4 }

/-- What `f` reads in the state after the command word `w`. -/
def after {α : Type} (s : State) (w : Nat) (f : State → α) : Option α :=
  match step (s.withFetchWord 32 w) with
  | .next t => some (f t)
  | .fault _ => none
  | .refused _ => none

/-! ## Normalization (95_test_vectors.md 2.1) -/

theorem test_norm_p : after base 0x10060000 (·.freg[0]) = some (small 0) := by decide +kernel -- VN1

theorem test_norm_max : after base 0x10090000 (·.freg[0]) = some (fr [0xF400, 0x1000] 1 true) := by
  decide +kernel -- VN9

theorem test_normw_max : after base 0x11090000 (·.freg[0]) = some (fr (limbs7 0xF02F 0xFC0 0 0x400000) 1 false) := by
  decide +kernel -- VN8

theorem test_normw_keeps_normalized : after base 0x110F0000 (·.freg[0]) = some (fr w5 1 true) := by
  decide +kernel -- VN12

theorem test_normv_max : after base 0x12090000 (·.freg[0]) = some (fr [0xF400, 0x1000] 1 true) := by
  decide +kernel -- VN9

theorem test_normv_p_plus_one : after base 0x120A0000 (·.freg[0]) = some (small 1) := by decide +kernel -- VN4

theorem test_ntz : after base 0x13060000 (·.result) = some 1 ∧ after base 0x13080000 (·.result) = some 0 := by
  decide +kernel -- VN2

theorem test_ntzv : after base 0x14060000 (·.result) = some 1 ∧ after base 0x14010000 (·.result) = some 0 := by
  decide +kernel -- VN2, VN10

/-! ## Serialization (2.2, W5) -/

theorem test_setb32 : after base 0x20000000 (fun t => (t.freg[0], t.result)) = some (fr w5 1 true, 1) := by
  decide +kernel -- W5

theorem test_setb32_rejects :
    after { base with bufw := Vector.replicate 8 0xFFFFFFFF } 0x20100000 (fun t => (t.freg[1], t.result)) =
      some (fr (limbs7 0x3FFFFFF 0x3FFFFFF 0x3FFFFFF 0x3FFFFF) 1 true, 0) := by decide +kernel -- VS2

theorem test_getb32 : after { base with bufw := Vector.replicate 8 5 } 0x210F0000 (·.bufw) = some w5Words := by
  decide +kernel -- W5

theorem test_getb32_not_normalized : after base 0x210C0000 (·.statusWord) = some 0x602 := by decide +kernel -- VS5

/-! ## Linear operators and constructors (2.3) -/

theorem test_add : after base 0x30012000 (·.freg[0]) = some (fr [16] 2 false) := by decide +kernel -- as VL1

theorem test_add_magnitude : after base 0x3001B000 (·.statusWord) = some 0x502 := by decide +kernel -- VL2

theorem test_neg : after base 0x310E0001 (·.freg[0]) =
    some (fr (limbs7 0xFFFF0B8 0xFFFFEFC 0xFFFFFFC 0xFFFFFC) 2 false) := by decide +kernel -- VL4

theorem test_neg_zero_magnitude : after base 0x31070000 (·.freg[0]) =
    some (fr (limbs7 0x7FFF85E 0x7FFFF7E 0x7FFFFFE 0x7FFFFE) 1 false) := by decide +kernel -- VL5

theorem test_mulint : after base 0x320D0004 (·.freg[0]) = some (fr [12] 4 false) := by decide +kernel -- VL8

theorem test_mulint_zero : after base 0x320D0000 (·.freg[0]) = some (fr [] 0 false) := by decide +kernel -- VL9

theorem test_cmov : after base 0x33120001 (·.freg[1]) = some (small 9) ∧
    after base 0x33120000 (·.freg[1]) = some (small 7) := by decide +kernel -- VL12

theorem test_cmov_reads_rd : after base 0x33020001 (·.statusWord) = some 0x302 := by decide +kernel -- VL13

theorem test_mov : after base 0x34020000 (·.freg[0]) = some (small 9) := by decide +kernel -- VL14

theorem test_setint : after base 0x35000FFF (·.freg[0]) = some (fr [0xFFF] 1 true) := by decide +kernel -- VL16

theorem test_clear : after base 0x36300000 (·.freg[3]) = some (fr [] 0 true) := by decide +kernel -- VL17

/-! ## Multiplication and the chains (2.4, 2.5) -/

theorem test_mul_worst_case : after base 0x40055000 (·.freg[0]) =
    some (fr ([0x288FC2F, 0x1E7FFC3, 0x4100000] ++ List.replicate 6 0x3FFFFFF ++ [0x3FFFFF]) 1 false) := by
  decide +kernel -- VM2

theorem test_mul_magnitude : after base 0x40033000 (·.statusWord) = some 0x502 := by decide +kernel -- VM6

theorem test_sqr : after base 0x41080000 (·.freg[0]) = some (fr (pPlus 1) 1 false) := by decide +kernel -- VM3

theorem test_sqr_in_place : after base 0x41DD0000 (·.freg[13]) = some (fr [9] 1 false) := by decide +kernel -- VM5

/-- The chains of INV and SQRT are evaluated last; INVV and ISQV share them (44_chains.md R172, R174) and are
tested here on an operand of magnitude 9. -/
theorem test_invv_magnitude : after base 0x51030000 (fun t => (t.statusWord, t.freg[0].w)) = some (0x502, false) := by
  decide +kernel -- as VC13

theorem test_isqv_magnitude : after base 0x53030000 (fun t => (t.statusWord, t.result)) = some (0x502, 4) := by
  decide +kernel -- as VC13

/-! ## Comparison (2.6) -/

theorem test_cmpv : after base 0x60012000 (·.result) = some 0xFFFFFFFF ∧ after base 0x60021000 (·.result) = some 1 ∧
    after base 0x60011000 (·.result) = some 0 := by decide +kernel -- VQ1

theorem test_cmpv_not_normalized : after base 0x600C1000 (·.statusWord) = some 0x602 := by decide +kernel -- VQ2

theorem test_eq : after base 0x61076000 (·.result) = some 1 ∧ after base 0x61012000 (·.result) = some 0 := by
  decide +kernel -- VQ4, VQ6

theorem test_eqv : after base 0x62076000 (·.result) = some 1 ∧ after base 0x62012000 (·.result) = some 0 := by
  decide +kernel -- VQ4, VQ6

/-! ## Storage, raw access, the invariant check (2.7) -/

theorem test_tostor : after base 0x70080000 (·.sreg[0]) = some (sr (pWords (-1))) := by decide +kernel -- VT3

theorem test_tostor_w5 : after base 0x700F0000 (·.sreg[0]) =
    some (sr #v[0xC3D2E1F0, 0x8796A5B4, 0x4B5A6978, 0x0F1E2D3C, 0x76543210, 0xFEDCBA98, 0x89ABCDEF, 0x01234567]) := by
  decide +kernel -- VT2

theorem test_fromstor : after base 0x71040000 (·.freg[0]) = some (fr (pPlus (-1)) 1 true) := by
  decide +kernel -- W5b's record

theorem test_fromstor_p : after base 0x71030000 (fun t => (t.statusWord, t.freg[0].w)) = some (0x402, false) := by
  decide +kernel -- VT6

theorem test_scmov : after base 0x72120001 (·.sreg[1].sw[0]) = some 2 ∧
    after base 0x72120000 (·.sreg[1].sw[0]) = some 1 := by
  decide +kernel -- VT8

theorem test_ldstor : after base 0x73000000 (·.sreg[0]) = some (sr #v[1, 2, 3, 4, 5, 6, 7, 8]) := by
  decide +kernel -- R203, as VT6

theorem test_ststor : after base 0x74040000 (·.limb) =
    some #v[0xFFFFFC2E, 0xFFFFFFFE, 0xFFFFFFFF, 0xFFFFFFFF, 0xFFFFFFFF, 0xFFFFFFFF, 0xFFFFFFFF, 0xFFFFFFFF, 0xAAAA,
      0xBBBB] := by decide +kernel -- VT10

theorem test_ststor_unwritten : after base 0x74000000 (·.statusWord) = some 0x302 := by decide +kernel -- VT9

theorem test_ldraw : after { base with limb := toLimbs (pPlus 0), metaw := 1 } 0x80000000 (·.freg[0]) =
    some (fr (pPlus 0) 1 false) := by decide +kernel -- VT11

theorem test_ldraw_invariant :
    after { base with limb := toLimbs (pPlus 0) } 0x80000000 (·.statusWord) = some 0x402 := by
  decide +kernel -- VT12

theorem test_straw : after base 0x81010000 (fun t => (t.limb, t.metaw)) = some (toLimbs [7], 0x101) := by
  decide +kernel -- VT15

theorem test_straw_unnormalized : after base 0x81030000 (fun t => (t.limb, t.metaw)) = some (toLimbs [0x12], 9) := by
  decide +kernel -- R206 on VM6's record

theorem test_verify : after base 0x82010000 (·.result) = some 1 ∧ after base 0x82040000 (·.result) = some 0 := by
  decide +kernel -- VT16, VS2

/-! ## Faults and the bus (2.8) -/

theorem test_illegal_op :
    after State.reset 0xFF000000 (fun t => (t.statusWord, t.faultcmd)) = some (0x102, 0xFF000000) := by
  decide +kernel -- VX2

theorem test_illegal_field : after State.reset 0x10220001 (fun t => (t.statusWord, t.faultcmd)) =
    some (0x202, 0x10220001) := by decide +kernel -- VX3

theorem test_unwritten :
    after State.reset 0x10220000 (fun t => (t.statusWord, t.faultcmd)) = some (0x302, 0x10220000) := by
  decide +kernel -- VX4

theorem test_unwritten_before_magnitude : after base 0x40E03000 (·.statusWord) = some 0x302 := by decide +kernel -- VX9

theorem test_invariant : after base 0x10540000 (·.statusWord) = some 0x402 := by decide +kernel -- VS2

/-- What `f` reads after one event of the host on the state `s`. -/
def afterHost {α : Type} (s : State) (e : HostEvent) (f : State → α) : Option α :=
  match step { s with host := [e] } with
  | .next t => some (f t)
  | .fault _ => none
  | .refused _ => none

/-- `INV f1,f13` in flight, with three cycles to go. -/
def busyInv : State := { base with cur := some 0x501D0000, left := 3 }

theorem test_overrun : afterHost busyInv (.write 0x040 4 5) (fun t => (t.statusWord, t.faultcmd, t.bufw, t.cur)) =
    some (0x703, 0x501D0000, w5Words, some 0x501D0000) := by decide +kernel -- VX7

/-- A recorded fault and an empty latch. -/
def faulted : State := { base with fault := true, fcode := 3, faultcmd := 0x10220000 }

theorem test_discard : afterHost faulted (.write 0x000 4 0x35000001) (fun t => (t.cur, t.statusWord)) =
    some (none, 0x302) := by decide +kernel -- VX5

theorem test_fclr : afterHost faulted (.write 0x00C 4 1) (fun t => (t.statusWord, t.faultcmd)) = some (0, 0) := by
  decide +kernel -- VX6

theorem test_ctrl_without_fclr : afterHost faulted (.write 0x00C 4 0xFFFFFFFE) (fun t => (t.statusWord, t.faultcmd)) =
    some (0x302, 0x10220000) := by decide +kernel -- 10_state.md R48

theorem test_reserved_read : afterHost { base with rdata := 9 } (.read 0x0FC 4) (·.rdata) = some 0 := by
  decide +kernel -- VX10

theorem test_status_write_ignored : afterHost base (.write 0x004 4 0x12345678) (·.statusWord) = some 0 := by
  decide +kernel -- VX11

theorem test_meta_write : afterHost base (.write 0x088 4 0xFFFFFFFF) (·.metaw) = some 0x13F := by
  decide +kernel -- 10_state.md R44

theorem test_buffer_reads : afterHost base (.read 0x05C 4) (·.rdata) = some 0xC3D2E1F0 ∧
    afterHost base (.read 0x084 4) (·.rdata) = some 0xBBBB := by decide +kernel -- 20_memory.md R61

/-- Accesses at BASE − 2, BASE − 4 and BASE − 1 that reach into the window, and one that ends below it. -/
theorem test_access_from_below :
    windowEvent 0x1000 0x0FFE 4 .read = .accessFromBelow ∧ windowEvent 0x1000 0x0FFC 8 .read = .accessFromBelow ∧
    windowEvent 0x1000 0x0FFF 2 (fun off width => .write off width 5) = .accessFromBelow ∧
    windowEvent 0x1000 0x0FFC 4 .read = .idle ∧ windowEvent 0x1000 0x1010 4 .read = .read 0x10 4 ∧
    windowEvent 0x1000 0x10FE 4 .read = .read 0xFE 4 ∧ windowEvent 0x1000 0x1100 4 .read = .idle := by
  decide -- 20_memory.md R60, R62

theorem test_access_from_below_refused :
    step { base with host := [.accessFromBelow] } = .refused .accessOutsideContract := rfl -- 20_memory.md R62

theorem test_wait_polls : afterHost busyInv .wait (fun t => (t.rdata, t.host)) = some (1, [.wait]) ∧
    afterHost base .wait (fun t => (t.rdata, t.host)) = some (0, []) := by decide +kernel -- 30_encoding.md R88

theorem test_fetch_runs : after State.reset 0x35000005 (·.freg[0]) = some (small 5) := by decide +kernel -- P1

/-! ## Witnesses: concrete values that meet the hypotheses of each obligation that has some, clause by clause -/

/-- The bounds of the ranges of R82 among them. -/
theorem witness_DecodeOfEncode : (Instr.mul 15 0 1).wellFormed = true ∧ (Instr.neg 3 1 31).wellFormed = true ∧
    (Instr.mulint 3 1 32).wellFormed = true ∧ (Instr.scmov 1 2 1).wellFormed = true := by decide

theorem witness_DecodedWordIsEncoding : decode 0x3121001F = .command (.neg 2 1 31) := by decide

/-- Both kinds of illegal word have members, a bound of an immediate's range among them. -/
theorem witness_IllegalWordsClassified : decode 0xFF000000 = .illegalOp ∧ decode 0x31100020 = .illegalField := by decide

theorem witness_StepRunsDecodedCommand :
    (base.withFetchWord 32 0x40012000).cur = some 0x40012000 ∧ (base.withFetchWord 32 0x40012000).left = 0 ∧
    decode 0x40012000 = .command (.mul 0 1 2) ∧ decodeTableWord 32 0x40012000 = some (.mul 0 1 2) := by decide +kernel

/-- With no fault recorded, and with an OVERRUN recorded while the word was in flight; a word of each kind. -/
theorem witness_IllegalWordsFault :
    (base.withFetchWord 32 0x31100020).cur = some 0x31100020 ∧ (base.withFetchWord 32 0x31100020).left = 0 ∧
    base.fault = false ∧ decode 0x31100020 = .illegalField ∧
    { busyInv with cur := some 0, left := 0, fault := true, fcode := 7 }.fault = true ∧ decode 0 = .illegalOp := by
  decide +kernel

/-- On a command, and on a recorded fault with a write of META. -/
theorem witness_StepKeepsInvariant :
    ((base.withFetchWord 32 0x31010007).inv ∧ ∃ t, step (base.withFetchWord 32 0x31010007) = .next t) ∧
    ({ faulted with host := [.write 0x088 4 7] }.inv ∧
      ∃ t, step { faulted with host := [.write 0x088 4 7] } = .next t) :=
  ⟨⟨by decide +kernel, _, rfl⟩, by decide +kernel, _, rfl⟩

/-- `base` without the register that fails `Verify`. -/
def verified : State := { base with freg := base.freg.set 4 .unwritten }

/-- A SETB32 of 2^256 − 1 in flight, one cycle before it completes, and an idle cycle. -/
def rejecting : State :=
  { verified with bufw := Vector.replicate 8 0xFFFFFFFF, cur := some 0x20100000, left := 1, host := [.idle] }

/-- On a SETB32 of a value below p, and on an idle cycle while one that will be rejected is in flight. -/
theorem witness_StepKeepsRegistersVerified :
    ((verified.withFetchWord 32 0x20100000).registersVerified ∧ bval verified.bufw < prime ∧
      ∃ t, step (verified.withFetchWord 32 0x20100000) = .next t) ∧
    (rejecting.registersVerified ∧ rejecting.left ≠ 0 ∧ ∃ t, step rejecting = .next t) :=
  ⟨⟨by decide +kernel, by decide +kernel, _, rfl⟩, by decide +kernel, by decide, _, rfl⟩

/-- An empty latch, and a command in flight with one cycle to go. -/
theorem witness_ResetEventAbandonsCommand : base.takesEvent ∧ { busyInv with left := 1 }.takesEvent := by decide

/-- An operand at the magnitude bound 32 with every limb at its bound, and the zero of magnitude 0. -/
theorem witness_NormGivesCanonical : base.readable 9 ∧ base.readable 7 := by decide +kernel

theorem witness_NormvAgreesWithNorm : base.readable 9 ∧ base.readable 7 := by decide +kernel

theorem witness_NormwFoldsWeakly : base.readable 9 ∧ base.readable 15 ∧ base.freg[15].norm = true := by decide +kernel

/-- The value p, and a nonzero one. -/
theorem witness_ZeroTestsAgreeWithValue : base.readable 6 ∧ base.readable 8 := by decide +kernel

/-- The values p − 1 and p, where the two clauses meet. -/
theorem witness_SetbLoadsOrRejects :
    bval #v[0xFFFFFFFF, 0xFFFFFFFF, 0xFFFFFFFF, 0xFFFFFFFF, 0xFFFFFFFF, 0xFFFFFFFF, 0xFFFFFFFE, 0xFFFFFC2E] < prime ∧
    prime ≤ bval #v[0xFFFFFFFF, 0xFFFFFFFF, 0xFFFFFFFF, 0xFFFFFFFF, 0xFFFFFFFF, 0xFFFFFFFF, 0xFFFFFFFE,
      0xFFFFFC2F] := by decide +kernel

theorem witness_GetbWritesEncoding : base.readable 8 ∧ base.freg[8].norm = true := by decide +kernel

theorem witness_GetbByteProvenance : base.readable 15 ∧ base.freg[15].norm = true := by decide +kernel

theorem witness_WireRoundTrip : bval base.bufw < prime := by decide +kernel

/-- The sum of the magnitudes at the bound 32. -/
theorem witness_AddAddsLimbs : base.readable 9 ∧ base.readable 7 ∧ base.freg[9].mag + base.freg[7].mag ≤ 32 ∧
    base.freg[9].mag + base.freg[7].mag = 32 := by decide +kernel

/-- The immediate at the bound 31, and an operand whose magnitude is the immediate. -/
theorem witness_NegSubtractsFromMultipleOfPrime :
    (base.readable 5 ∧ base.freg[5].mag ≤ (31#12).toNat) ∧ (base.readable 5 ∧ base.freg[5].mag ≤ (8#12).toNat) := by
  decide +kernel

/-- The product of the magnitudes at the bound 32, and the factor 0. -/
theorem witness_MulintScalesLimbs :
    (base.readable 5 ∧ (4#12).toNat * base.freg[5].mag = 32) ∧
    (base.readable 13 ∧ (32#12).toNat * base.freg[13].mag = 32) ∧
    (base.readable 9 ∧ (0#12).toNat * base.freg[9].mag ≤ 32) := by decide +kernel

theorem witness_CopiesMoveWholeRecord : base.readable 2 ∧ base.readable 1 := by decide +kernel

/-- The magnitude of the result at the bound 32. -/
theorem witness_SubExpansionSubtracts : (0 : FieldIx) ≠ 5 ∧ base.readable 5 ∧ base.readable 3 ∧
    base.freg[3].mag ≤ (23#12).toNat ∧ base.freg[5].mag + (23#12).toNat + 1 = 32 := by decide +kernel

/-- Factors at the magnitude bound 8 with every limb at its bound. -/
theorem witness_MulMultipliesFieldValues : base.factor 5 ∧ base.freg[5].mag = 8 ∧ base.factor 8 := by decide +kernel

theorem witness_SqrIsMulByItself : base.factor 5 ∧ base.freg[5].mag = 8 := by decide +kernel

theorem witness_MulCoreFitsIn64Bits : verify base.freg[5].toFieldRec = true ∧ base.freg[5].mag ≤ 8 ∧
    verify base.freg[8].toFieldRec = true ∧ base.freg[8].mag ≤ 8 := by decide +kernel

theorem witness_MulCoreOutputBounds : verify base.freg[5].toFieldRec = true ∧ base.freg[5].mag ≤ 8 ∧
    verify base.freg[8].toFieldRec = true ∧ base.freg[8].mag ≤ 8 := by decide +kernel

theorem witness_InversesRaiseToPrimeMinusTwo : base.factor 13 ∧ base.factor 7 ∧ base.factor 5 := by decide +kernel

theorem witness_RootsRaiseToQuarterPower : base.factor 14 ∧ base.factor 8 ∧ base.factor 5 := by decide +kernel

/-- Operands that compare below and equal. -/
theorem witness_CmpvOrdersIntegers : base.readable 1 ∧ base.freg[1].norm = true ∧ base.readable 8 ∧
    base.freg[8].norm = true ∧ base.freg[1].val < base.freg[8].val := by decide +kernel

/-- 0 and p, equal as field values; 7 and 9, not. -/
theorem witness_EqualityComparesFieldValues :
    (base.readable 7 ∧ base.readable 6 ∧ base.freg[7].fv = base.freg[6].fv) ∧
    (base.readable 1 ∧ base.readable 2 ∧ base.freg[1].fv ≠ base.freg[2].fv) := by decide +kernel

theorem witness_EqAgreesWithNegAddNtz : (0 : FieldIx) ≠ 5 ∧ base.readable 5 ∧ base.readable 3 ∧
    (9#12).toNat = base.freg[3].mag ∧ base.freg[5].mag + base.freg[3].mag + 1 ≤ 32 := by decide +kernel

/-- A normalized operand; storage words of p − 1 and of p, where the clauses of FROMSTOR meet. -/
theorem witness_StoragePacksValues : (base.readable 8 ∧ base.freg[8].norm = true) ∧
    (base.sreg[4].w = true ∧ sval base.sreg[4].sw < prime) ∧
    (base.sreg[3].w = true ∧ prime ≤ sval base.sreg[3].sw) := by decide +kernel

theorem witness_StorageRoundTrip : base.readable 15 ∧ base.freg[15].norm = true := by decide +kernel

theorem witness_StorageMovesWords : base.sreg[1].w = true ∧ base.sreg[2].w = true := by decide +kernel

/-- LIMB = p with META = 1 satisfies `Verify`; with META = 0x101 it fails (VT11, VT12). -/
theorem witness_LdrawLoadsVerifiedRecord :
    verify { n := toLimbs (pPlus 0), mag := (1#32).toNat % 2 ^ 6, norm := (1#32).getLsbD 8 } = true ∧
    verify { n := toLimbs (pPlus 0), mag := (0x101#32).toNat % 2 ^ 6, norm := (0x101#32).getLsbD 8 } = false := by
  decide +kernel

/-- A register at the magnitude bound 32, and one that fails `Verify`. -/
theorem witness_StrawReadsOutRecord : (base.freg[9].w = true ∧ base.freg[9].mag ≤ 32) ∧
    (base.freg[4].w = true ∧ base.freg[4].mag ≤ 32) := by decide +kernel

/-- A register that satisfies `Verify`, and one that fails it. -/
theorem witness_VerifyReportsInvariant : (base.freg[9].w = true ∧ verify base.freg[9].toFieldRec = true) ∧
    (base.freg[4].w = true ∧ verify base.freg[4].toFieldRec = false) := by decide +kernel

/-- First and second sources, each unwritten and failing `Verify`. -/
theorem witness_SourcesCheckedInOrder :
    (fieldSources (.add 1 0 4) = [] ++ 0 :: [4] ∧ base.freg[0].w = false) ∧
    (fieldSources (.add 1 4 0) = [] ++ 4 :: [0] ∧ base.freg[4].w = true ∧ verify base.freg[4].toFieldRec = false) ∧
    (fieldSources (.add 1 9 0) = [9] ++ 0 :: [] ∧ base.readable 9 ∧ base.freg[0].w = false) ∧
    (fieldSources (.cmov 9 4 1) = [9] ++ 4 :: [] ∧ (Instr.cmov 9 4 1).wellFormed = true ∧ base.readable 9 ∧
      base.freg[4].w = true ∧ verify base.freg[4].toFieldRec = false) ∧
    (rawSource (.straw 0) = some 0 ∧ rawSource (.verify 0) = some 0 ∧ base.freg[0].w = false) ∧
    (storSources (.scmov 1 0 1) = [1] ++ 0 :: [] ∧ (Instr.scmov 1 0 1).wellFormed = true ∧ base.sreg[1].w = true ∧
      base.sreg[0].w = false) := by decide +kernel

/-- Each clause at the first value beyond its bound, or near it. -/
theorem witness_PreconditionFaults :
    (base.readable 9 ∧ base.readable 1 ∧ base.freg[9].mag + base.freg[1].mag = 33) ∧
    (base.readable 9 ∧ (31#12).toNat ≤ 31 ∧ (31#12).toNat < base.freg[9].mag) ∧
    (base.readable 3 ∧ (4#12).toNat ≤ 32 ∧ 32 < (4#12).toNat * base.freg[3].mag) ∧
    (base.readable 3 ∧ base.freg[3].mag = 9 ∧ base.readable 1 ∧ base.freg[3].norm = false) ∧
    (Instr.neg 1 1 32).wellFormed = false ∧ (Instr.mulint 1 1 33).wellFormed = false ∧
    (Instr.cmov 1 1 2).wellFormed = false ∧ (Instr.scmov 1 1 2).wellFormed = false := by decide +kernel

/-- A command that faults, and one that completes. -/
theorem witness_FaultsArePrecise :
    (∃ t, exec (.norm 1 0) base = .next t ∧ t.fault = true) ∧ ∃ t, exec (.norm 1 9) base = .next t ∧ t.fault = false :=
  ⟨⟨_, rfl, by decide +kernel⟩, _, rfl, by decide +kernel⟩

theorem witness_OnlyNamedStateIsWritten :
    ∃ t, exec (.add 0 1 2) base = .next t ∧ fieldDest (.add 0 1 2) ≠ some 1 ∧ storDest (.add 0 1 2) ≠ some 1 ∧
      writesResult (.add 0 1 2) = false :=
  ⟨_, rfl, by decide, by decide, by decide⟩

theorem witness_ReadsReturnRegisters : base.cur = none := by decide

/-- One cycle before the command in flight completes, and an offset of each clause; the bounds of the buffers among
them. -/
theorem witness_BusyReads : busyInv.cur = some 0x501D0000 ∧ { busyInv with left := 1 }.left = 0 + 1 ∧
    ∀ off ∈ [0x004, 0x000, 0x00C, 0x008, 0x010, 0x040, 0x088], legalOffset off := by decide

/-- Idle and in flight; the bounds of the reserved offsets. -/
theorem witness_ReservedAndWrongDirection : base.takesEvent ∧ busyInv.takesEvent ∧
    ∀ off ∈ [0x014, 0x03C, 0x08C, 0x0FC], reservedOffset off := by decide

theorem witness_IdleWrites : base.cur = none ∧ base.fault = false := by decide

theorem witness_DiscardWhileFaulted : faulted.cur = none ∧ faulted.fault = true ∧ legalOffset 0 ∧ legalOffset 0xFC := by
  decide

/-- FCLR while idle and while in flight; a write of CTRL without it, all other bits set; the two ways out of a fault;
the acceptance of a command word. -/
theorem witness_FaultReturn :
    (faulted.takesEvent ∧ busyInv.takesEvent ∧ (1#32).getLsbD 0 = true ∧ (0xFFFFFFFE#32).getLsbD 0 = false) ∧
    (∃ t, step { faulted with host := [.write 0x00C 4 1] } = .next t ∧ faulted.fault = true ∧ t.fault = false) ∧
    (∃ t, step { faulted with host := [.reset] } = .next t ∧ t.fault = false) ∧
    (∃ t, step { base with host := [.write 0x000 4 0x35000001] } = .next t ∧ base.cur = none ∧
      t.cur = some 0x35000001) :=
  ⟨by decide, ⟨_, rfl, rfl, rfl⟩, ⟨_, rfl, rfl⟩, _, rfl, rfl, rfl⟩

/-- With and without a fault recorded; the bounds of the locked offsets. -/
theorem witness_OverrunIsDropped : busyInv.cur = some 0x501D0000 ∧ busyInv.left = 2 + 1 ∧ busyInv.fault = false ∧
    { busyInv with fault := true, fcode := 7 }.fault = true ∧ ∀ off ∈ [0x000, 0x040, 0x088], lockedOffset off := by
  decide

/-- Accesses that begin at the bounds of the window, reach into it by one byte, or just miss it. -/
theorem witness_WindowContract_events :
    (0x10FF = 0x1000 + 255 ∧ 255 < 256) ∧ (0x0FFE < 0x1000 ∧ 0x1000 < 0x0FFE + 4) ∧
    (0x0FFC + 4 ≤ 0x1000 ∧ 0x0FFC < 0x1000) ∧ 0x1000 + 256 ≤ 0x1100 := by decide

theorem witness_WindowContract : base.takesEvent ∧ busyInv.takesEvent ∧ (255 < 256 ∧ 255 % 4 ≠ 0) ∧
    (252 < 256 ∧ 2 ≠ 4) ∧ 256 ≤ 256 := by decide

/-- A constant-time command on two states; a variable-time command on two states with the same operand value. -/
theorem witness_LatencyContract :
    (decode 0x10190000 = .command (.norm 1 9) ∧ decode 0x10320000 = .command (.norm 3 2) ∧
      opField 0x10190000 = opField 0x10320000 ∧ commandFaults (.norm 1 9) base = false ∧
      commandFaults (.norm 3 2) verified = false ∧ (Instr.norm 1 9).constantTime = true) ∧
    (decode 0x12190000 = .command (.normv 1 9) ∧ decode 0x12390000 = .command (.normv 3 9) ∧
      commandFaults (.normv 1 9) base = false ∧ commandFaults (.normv 3 9) verified = false ∧
      (fieldSources (.normv 1 9)).map (fun r => base.freg[r].toFieldRec) =
        (fieldSources (.normv 3 9)).map (fun r => verified.freg[r].toFieldRec)) := by decide +kernel

theorem witness_CommandRunsItsLatency (w : Word) :
    { base with host := [.write 0x000 4 w] }.cur = none ∧ { base with host := [.write 0x000 4 w] }.fault = false ∧
    0 < latency w { base with host := [] } := ⟨rfl, rfl, by unfold latency; omega⟩

theorem witness_CommandLineRunsToItsEnd (w : Word) :
    { base with host := [.write 0x000 4 w, .wait] }.cur = none ∧
    { base with host := [.write 0x000 4 w, .wait] }.fault = false := ⟨rfl, rfl⟩

/-- `base`, and `base` with another placeholder in the unwritten F0. -/
theorem witness_UnwrittenContentsUnobservable :
    base.sameWritten { base with
      freg := base.freg.set 0 { FieldReg.unwritten with mag := 9, n := Vector.replicate 10 1 } } ∧
    ∃ t, exec (.norm 1 9) base = .next t :=
  ⟨by decide +kernel, _, rfl⟩

/-! ## The chains, evaluated (2.5). Each takes some seconds -/

theorem test_inv : after base 0x500D0000 (·.freg[0]) =
    some (fr (limbs7 0x3FFFD75 0x2AAAA7F 0x2AAAAAA 0x2AAAAA) 1 false) := by decide +kernel -- VC1

theorem test_sqrt : after base 0x520E0000 (fun t => (t.freg[0], t.result)) = some (fr (pPlus 2) 1 false, 1) := by
  decide +kernel -- VC6

end Sys2Proof.Tests
end

section
/-! PROOFS. The state right after reset (10_state.md R52). -/

namespace Sys2Proof.Machine

/-! ### The registers and buffers right after reset -/

theorem reset_freg (i : FieldIx) : State.reset.freg[i] = FieldReg.unwritten := Vector.getElem_replicate _

theorem reset_sreg (j : StorIx) : State.reset.sreg[j] = StorReg.unwritten := Vector.getElem_replicate _

theorem reset_bufw (j : Fin 8) : State.reset.bufw[j] = 0 := Vector.getElem_replicate _

theorem reset_limb (i : Fin 10) : State.reset.limb[i] = 0 := Vector.getElem_replicate _

theorem reset_freg_w (i : FieldIx) : State.reset.freg[i].w = false := by rw [reset_freg]; rfl

theorem reset_sreg_w (j : StorIx) : State.reset.sreg[j].w = false := by rw [reset_sreg]; rfl

/-! ### The STATUS word of an idle unit -/

/-- An idle unit without a recorded fault shows STATUS = 0 (10_state.md R46). -/
theorem statusWord_eq_zero {s : State} (hcur : s.cur = none) (hfault : s.fault = false) (hcode : s.fcode = 0) :
    s.statusWord = 0 := by
  have hbusy : s.busy = false := by simp [State.busy, hcur]
  rw [State.statusWord, hbusy, hfault, hcode]
  rfl

/-- Settles O10: the table of 10_state.md R52, row by row; an unwritten register faults on every read. -/
theorem resetState : Obligations.ResetState := by
  have field : ∀ i : FieldIx, State.reset.freg[i].w = false ∧ readF State.reset i = .error .unwritten ∧
      readFRaw State.reset i = .error .unwritten := fun i =>
    ⟨reset_freg_w i, readF_of_unwritten (reset_freg_w i), readFRaw_of_unwritten (reset_freg_w i)⟩
  have storage : ∀ j : StorIx, State.reset.sreg[j].w = false ∧ readS State.reset j = .error .unwritten := fun j =>
    ⟨reset_sreg_w j, readS_of_unwritten (reset_sreg_w j)⟩
  have status : State.reset.statusWord = 0 := statusWord_eq_zero rfl rfl rfl
  exact ⟨field, storage, reset_bufw, reset_limb, rfl, rfl, status, rfl, rfl, rfl, rfl, rfl⟩

end Sys2Proof.Machine
end

section
/-! PROOFS. Reserved offsets of the host window, and accesses in the direction a register does not have
(20_memory.md R63). -/

namespace Sys2Proof.Machine

/-! ### One access as one step -/

/-- A read at a legal offset is the bus read, once the event is taken. -/
theorem readGives_busRead {s : State} {off : Nat} (rest : List HostEvent) (ht : s.takesEvent) (hoff : legalOffset off) :
    s.readGives off rest (busRead off (s.afterEvent rest)) :=
  (step_event (s := { s with host := .read off 4 :: rest }) ht rfl).trans (access_legal hoff _)

/-- A write at a legal offset is the bus write, once the event is taken. -/
theorem writeGives_busWrite {s : State} {off : Nat} (v : Word) (rest : List HostEvent) (ht : s.takesEvent)
    (hoff : legalOffset off) : s.writeGives off v rest (busWrite off v (s.afterEvent rest)) :=
  (step_event (s := { s with host := .write off 4 v :: rest }) ht rfl).trans (access_legal hoff _)

/-! ### The offsets that read 0, and those that ignore writes -/

/-- A register that always reads 0 does so in flight too: its value is not among the unspecified ones (20_memory.md
R65). -/
theorem busRead_zero {off : Nat} (h : busReg off = .reserved ∨ busReg off = .cmd ∨ busReg off = .ctrl) (s : State) :
    busRead off s = { s with rdata := 0 } := by
  rcases h with h | h | h <;> rw [busRead_specified (.inr (by rw [h]; rfl)), h] <;> rfl

/-- A register the host cannot write ignores a write in flight too: it raises no OVERRUN (20_memory.md R64). -/
theorem busWrite_ignored {off : Nat}
    (h : busReg off = .reserved ∨ busReg off = .status ∨ busReg off = .faultcmd ∨ busReg off = .result)
    (v : Word) (s : State) : busWrite off v s = s := by
  rcases h with h | h | h | h <;> rw [busWrite_accepted v (.inr (by rw [h]; rfl)), h] <;> rfl

/-- Where the window reads 0, by the register map (20_memory.md R61). -/
theorem busReg_of_readsZero {off : Nat} (h : reservedOffset off ∨ off = 0x000 ∨ off = 0x00C) :
    legalOffset off ∧ (busReg off = .reserved ∨ busReg off = .cmd ∨ busReg off = .ctrl) := by
  rcases h with h | rfl | rfl
  · exact ⟨h.1, .inl (busReg_reserved h)⟩
  · exact ⟨by decide, .inr (.inl rfl)⟩
  · exact ⟨by decide, .inr (.inr rfl)⟩

/-- Where the window ignores writes, by the register map (20_memory.md R61). -/
theorem busReg_of_ignoresWrites {off : Nat} (h : reservedOffset off ∨ off = 0x004 ∨ off = 0x008 ∨ off = 0x010) :
    legalOffset off ∧
      (busReg off = .reserved ∨ busReg off = .status ∨ busReg off = .faultcmd ∨ busReg off = .result) := by
  rcases h with h | rfl | rfl | rfl
  · exact ⟨h.1, .inl (busReg_reserved h)⟩
  · exact ⟨by decide, .inr (.inl rfl)⟩
  · exact ⟨by decide, .inr (.inr (.inl rfl))⟩
  · exact ⟨by decide, .inr (.inr (.inr rfl))⟩

/-- Settles O50: the access is one bus access after its event is taken, and at these offsets the bus read gives 0 and the
bus write does nothing, idle or in flight. -/
theorem reservedAndWrongDirection : Obligations.ReservedAndWrongDirection := by
  intro s off v rest ht
  constructor
  · intro h
    obtain ⟨hoff, hreg⟩ := busReg_of_readsZero h
    rw [← busRead_zero hreg]
    exact readGives_busRead rest ht hoff
  · intro h
    obtain ⟨hoff, hreg⟩ := busReg_of_ignoresWrites h
    have hwrite := writeGives_busWrite v rest ht hoff
    rwa [busWrite_ignored hreg] at hwrite

end Sys2Proof.Machine
end

section
/-! PROOFS. Serialization: the provenance of the limbs and the wire bytes, and the round trip over the wire
(41_serialization.md R120–R124). -/

namespace Sys2Proof.Machine

/-! ### Bit ranges -/

/-- A bit range of a field of `v` that is `w` bits wide and starts at bit `a` is a bit range of `v`. -/
theorem bits_field (v a w : Nat) {hi lo : Nat} (hw : hi < w) (hlo : lo ≤ hi) :
    bits (v / 2 ^ a % 2 ^ w) hi lo = bits v (a + hi) (a + lo) := by
  have hsplit : 2 ^ w = 2 ^ lo * 2 ^ (w - lo) := by rw [← Nat.pow_add]; congr 1; omega
  have hlen : a + hi - (a + lo) + 1 = hi - lo + 1 := by omega
  have hdvd : 2 ^ (hi - lo + 1) ∣ 2 ^ (w - lo) := Nat.pow_dvd_pow 2 (by omega)
  rw [bits, bits, hsplit, Nat.mod_mul_right_div_self, Nat.mod_mod_of_dvd _ hdvd, Nat.div_div_eq_div_mul, ← Nat.pow_add,
    hlen]

/-! ### The bytes of BUF and the limbs of its value -/

/-- BUFW[j] is digit 7 − j of the integer that BUF holds (10_state.md R42). -/
theorem toNat_bufw (b : Vector Word 8) (j : Nat) (h : j < 8) : b[j].toNat = bval b / 2 ^ (32 * (7 - j)) % 2 ^ 32 := by
  have hword : (toWire (bval b))[j] = wireWord (bval b) j := by interval_cases j <;> rfl
  rw [← toNat_wireWord _ j h, ← hword, toWire_bval]

/-- Byte b[k] of BUF is byte 31 − k of the integer that BUF holds (10_state.md R42). -/
theorem bufByte_eq (b : Vector Word 8) (k : Fin 32) : bufByte b k = bval b / 2 ^ (8 * (31 - k.val)) % 2 ^ 8 := by
  have hk := k.isLt
  have hpos : 32 * (7 - k.val / 4) + (24 - 8 * (k.val % 4)) = 8 * (31 - k.val) := by omega
  have hdvd : 2 ^ 8 ∣ 2 ^ (32 - (24 - 8 * (k.val % 4))) := Nat.pow_dvd_pow 2 (by omega)
  have hsplit : 2 ^ 32 = 2 ^ (24 - 8 * (k.val % 4)) * 2 ^ (32 - (24 - 8 * (k.val % 4))) := by
    rw [← Nat.pow_add]; congr 1; omega
  change _ % 2 ^ 8 = _
  rw [toNat_bufw b _ (by omega), hsplit, Nat.mod_mul_right_div_self, Nat.mod_mod_of_dvd _ hdvd,
    Nat.div_div_eq_div_mul, ← Nat.pow_add, hpos]

/-- Every limb of the slices of a 256-bit integer, the top one too, is a field of 26 bits. -/
theorem lim_slice26_of_lt {v : Nat} (hv : v < 2 ^ 256) (i : Nat) (hi : i < 10) :
    lim (slice26 v) i = v / 2 ^ (26 * i) % 2 ^ 26 := by
  rcases Nat.lt_succ_iff_lt_or_eq.1 hi with h | rfl
  · exact lim_slice26 v i h
  · rw [lim_slice26_top, Nat.mod_eq_of_lt (by omega)]

/-- The slices of a 256-bit integer fit in the words of a register. -/
theorem nats_toLimbs_slice26 {v : Nat} (hv : v < 2 ^ 256) : nats (toLimbs (slice26 v)) = slice26 v := by
  refine nats_toLimbs (length_slice26 v) fun i hi => ?_
  rw [lim_slice26_of_lt hv i hi]; omega

/-! ### One integer as limbs and as wire bytes -/

/-- The limbs `n` and the wire bytes `b` hold the same 256-bit integer `v`: limb i is its bits from 26i on, byte k its
bits from 8(31 − k) on (41_serialization.md R120, R122). -/
structure LimbsAndBytes (v : Nat) (n : List Nat) (b : Fin 32 → Nat) : Prop where
  lt : v < 2 ^ 256
  limb : ∀ i < 10, lim n i = v / 2 ^ (26 * i) % 2 ^ 26
  byte : ∀ k : Fin 32, b k = v / 2 ^ (8 * (31 - k.val)) % 2 ^ 8

/-- A buffer and the slices of its value hold one integer. -/
theorem limbsAndBytes_slice26 (b : Vector Word 8) : LimbsAndBytes (bval b) (slice26 (bval b)) (bufByte b) :=
  ⟨bval_lt b, lim_slice26_of_lt (bval_lt b), bufByte_eq b⟩

/-- Limbs within their widths and the encoding of their value hold one integer. -/
theorem limbsAndBytes_toWire {n : List Nat} (hlen : n.length = 10) (hn : ∀ i < 9, lim n i ≤ M26) (h9 : lim n 9 ≤ M22) :
    LimbsAndBytes (val n) n (bufByte (toWire (val n))) := by
  have h := limbsAndBytes_slice26 (toWire (val n))
  rwa [bval_toWire (val_lt_of_bounds hlen hn h9), slice26_val hlen hn] at h

namespace LimbsAndBytes

variable {v : Nat} {n : List Nat} {b : Fin 32 → Nat}

/-- The bit rows of R121 and R123: bits [h:l] of limb i are bits [h':l'] of byte k where both are the same bits of the
integer. -/
theorem bits_limb_eq (hs : LimbsAndBytes v n b) {i h l h' l' : Nat} {k : Fin 32}
    (hlimb : i < 10 ∧ l ≤ h ∧ h < 26) (hbyte : l' ≤ h' ∧ h' < 8)
    (hpos : 26 * i + h = 8 * (31 - k.val) + h' ∧ 26 * i + l = 8 * (31 - k.val) + l') :
    bits (lim n i) h l = bits (b k) h' l' := by
  obtain ⟨hi, hlh, hh⟩ := hlimb
  obtain ⟨hlh', hh'⟩ := hbyte
  rw [hs.limb i hi, hs.byte k, bits_field _ _ _ hh hlh, bits_field _ _ _ hh' hlh', hpos.1, hpos.2]

theorem byte_lt (hs : LimbsAndBytes v n b) (k : Fin 32) : b k < 2 ^ 8 := by
  rw [hs.byte k]; exact Nat.mod_lt _ (by norm_num)

/-- A mask of eight ones leaves a byte as it is. -/
theorem byte_and (hs : LimbsAndBytes v n b) (k : Fin 32) : b k &&& 0xFF = b k :=
  Nat.and_two_pow_sub_one_of_lt_two_pow (hs.byte_lt k)

/-- Byte k − j lies j bytes above byte k. -/
theorem byte_above (hs : LimbsAndBytes v n b) {k k' : Fin 32} (j : Nat) (h : k'.val + j = k.val) :
    b k' = v / 2 ^ (8 * (31 - k.val)) / 2 ^ (8 * j) % 2 ^ 8 := by
  have hpos : 8 * (31 - k.val) + 8 * j = 8 * (31 - k'.val) := by have := k.isLt; omega
  rw [hs.byte k', Nat.div_div_eq_div_mul, ← Nat.pow_add, hpos]

/-- A limb that starts at bit r of byte `k0` is put together from that byte and the ones above it. -/
theorem limb_eq_from_byte (hs : LimbsAndBytes v n b) {i r : Nat} {k0 : Fin 32} (hi : i < 10)
    (hpos : 26 * i = 8 * (31 - k0.val) + r) : lim n i = v / 2 ^ (8 * (31 - k0.val)) / 2 ^ r % 2 ^ 26 := by
  rw [hs.limb i hi, hpos, Nat.pow_add, Nat.div_div_eq_div_mul]

/-- The formula rows of R121 but the last: the limb that starts at bit r of byte `k0` is the rest of that byte, the two
bytes above it, and the low r + 2 bits of the third. -/
theorem limb_eq_four_bytes (hs : LimbsAndBytes v n b) {i : Nat} (r : Nat) (k0 k1 k2 k3 : Fin 32)
    (hi : i < 10 ∧ r ≤ 6 ∧ 26 * i = 8 * (31 - k0.val) + r)
    (hk : k1.val + 1 = k0.val ∧ k2.val + 2 = k0.val ∧ k3.val + 3 = k0.val) :
    lim n i = ((b k0 >>> r) &&& (2 ^ (8 - r) - 1)) + (b k1 <<< (8 - r)) + (b k2 <<< (16 - r))
      + ((b k3 &&& (2 ^ (r + 2) - 1)) <<< (24 - r)) := by
  obtain ⟨hi, hr, hpos⟩ := hi
  obtain ⟨h1, h2, h3⟩ := hk
  rw [hs.limb_eq_from_byte hi hpos, hs.byte k0, hs.byte_above 1 h1, hs.byte_above 2 h2, hs.byte_above 3 h3]
  generalize v / 2 ^ (8 * (31 - k0.val)) = y
  simp only [Nat.and_two_pow_sub_one_eq_mod, Nat.shiftRight_eq_div_pow, Nat.shiftLeft_eq]
  interval_cases r <;> omega

/-- The last formula row of R121: the top limb ends with byte 0. -/
theorem top_limb_eq_three_bytes (hs : LimbsAndBytes v n b) :
    lim n 9 = ((b 2 >>> 2) &&& 0x3F) + (b 1 <<< 6) + (b 0 <<< 14) := by
  have hmask : (0x3F : Nat) = 2 ^ 6 - 1 := rfl
  have hv := hs.lt
  rw [hs.limb 9 (by norm_num), hs.byte 2, hs.byte 1, hs.byte 0, hmask, Nat.and_two_pow_sub_one_eq_mod,
    Nat.shiftRight_eq_div_pow, Nat.shiftLeft_eq, Nat.shiftLeft_eq]
  norm_num only [Fin.val_zero, Fin.val_one, Fin.val_two]
  omega

/-- Limbs and bytes of one integer stand in the table of R121. -/
theorem setbTable (hs : LimbsAndBytes v n b) : setbTable b n := by
  have formula0 := hs.limb_eq_four_bytes (i := 0) 0 31 30 29 28 (by decide) (by decide)
  have formula1 := hs.limb_eq_four_bytes (i := 1) 2 28 27 26 25 (by decide) (by decide)
  have formula2 := hs.limb_eq_four_bytes (i := 2) 4 25 24 23 22 (by decide) (by decide)
  have formula3 := hs.limb_eq_four_bytes (i := 3) 6 22 21 20 19 (by decide) (by decide)
  have formula4 := hs.limb_eq_four_bytes (i := 4) 0 18 17 16 15 (by decide) (by decide)
  have formula5 := hs.limb_eq_four_bytes (i := 5) 2 15 14 13 12 (by decide) (by decide)
  have formula6 := hs.limb_eq_four_bytes (i := 6) 4 12 11 10 9 (by decide) (by decide)
  have formula7 := hs.limb_eq_four_bytes (i := 7) 6 9 8 7 6 (by decide) (by decide)
  have formula8 := hs.limb_eq_four_bytes (i := 8) 0 5 4 3 2 (by decide) (by decide)
  simp only [Nat.shiftRight_zero, Nat.reduceSub, Nat.reduceAdd, Nat.reducePow, hs.byte_and]
    at formula0 formula3 formula4 formula7 formula8
  refine ⟨formula0, ?_, ?_, ?_, ?_, formula1, ?_, ?_, ?_, ?_, formula2, ?_, ?_, ?_, ?_, formula3, ?_, ?_, ?_, ?_,
    formula4, ?_, ?_, ?_, ?_, formula5, ?_, ?_, ?_, ?_, formula6, ?_, ?_, ?_, ?_, formula7, ?_, ?_, ?_, ?_,
    formula8, ?_, ?_, ?_, ?_, hs.top_limb_eq_three_bytes, ?_, ?_, ?_⟩
  all_goals exact hs.bits_limb_eq (by decide) (by decide) (by decide)

/-- Limbs and bytes of one integer stand in the table of R123. -/
theorem getbTable (hs : LimbsAndBytes v n b) : getbTable n b := by
  unfold Machine.getbTable
  and_intros
  all_goals exact (hs.bits_limb_eq (by decide) (by decide) (by decide)).symm

end LimbsAndBytes

/-! ### What SETB32 and GETB32 do -/

/-- The limb test on the slices of a 256-bit integer compares it with p. -/
theorem geP_slice26 {v : Nat} (hv : v < 2 ^ 256) : geP (slice26 v) = true ↔ prime ≤ v := by
  rw [geP_iff (length_slice26 v) (slice26_le v) (slice26_top v hv), val_slice26]

/-- SETB32 of a value below p writes its canonical record and RESULT = 1 (41_serialization.md R120). -/
theorem exec_setb32_accepts (rd : FieldIx) {s : State} (h : bval s.bufw < prime) :
    exec (.setb32 rd) s = .next ((s.writeF rd (.ofLimbs (slice26 (bval s.bufw)) 1 true)).writeResult 1) := by
  have hge : geP (slice26 (bval s.bufw)) = false := by
    rw [Bool.eq_false_iff, ne_eq, geP_slice26 (bval_lt _)]; omega
  simp only [exec, execSetb32, hge]
  rfl

/-- SETB32 of a value of at least p writes its limbs alone and RESULT = 0 (41_serialization.md R120). -/
theorem exec_setb32_rejects (rd : FieldIx) {s : State} (h : prime ≤ bval s.bufw) :
    exec (.setb32 rd) s = .next ((s.writeLimbs rd (toLimbs (slice26 (bval s.bufw)))).writeResult 0) := by
  have hge : geP (slice26 (bval s.bufw)) = true := (geP_slice26 (bval_lt _)).2 h
  simp only [exec, execSetb32, hge]
  rfl

/-- Accepted or rejected, SETB32 leaves the slices of BUF's value in the limbs (41_serialization.md R120). -/
theorem exec_setb32_limbs (rd : FieldIx) (s : State) :
    ∃ t, exec (.setb32 rd) s = .next t ∧ t.freg[rd].limbs = slice26 (bval s.bufw) := by
  rcases Nat.lt_or_ge (bval s.bufw) prime with h | h
  · refine ⟨_, exec_setb32_accepts rd h, ?_⟩
    rw [State.writeResult_freg, State.writeF_freg_get, if_pos rfl]
    exact nats_toLimbs_slice26 (bval_lt _)
  · refine ⟨_, exec_setb32_rejects rd h, ?_⟩
    rw [State.writeResult_freg, State.writeLimbs_freg_get, if_pos rfl]
    exact nats_toLimbs_slice26 (bval_lt _)

/-- After SETB32 of a value below p the register is a source operand with that value, normalized, and RESULT = 1
(41_serialization.md R120). -/
theorem exec_setb32_loads (rd : FieldIx) {s : State} (h : bval s.bufw < prime) :
    ∃ t, exec (.setb32 rd) s = .next t ∧ t.result = 1 ∧ t.readable rd ∧ t.freg[rd].norm = true ∧
      t.freg[rd].val = bval s.bufw := by
  obtain ⟨hcanonical, -, hval⟩ := canonical_slice26 h
  refine ⟨_, exec_setb32_accepts rd h, rfl, ?_⟩
  rw [State.readable, State.writeResult_freg, State.writeF_freg_get, if_pos rfl]
  exact ⟨⟨rfl, verify_of_canonical hcanonical⟩, rfl, hval⟩

/-- GETB32 of a normalized operand writes the encoding of its value to BUF (41_serialization.md R122). -/
theorem exec_getb32_writes {ra : FieldIx} {s : State} (hr : s.readable ra) (hn : s.freg[ra].norm = true) :
    exec (.getb32 ra) s = .next (s.writeBuf (toWire s.freg[ra].val)) := by
  simp only [exec, execGetb32, readNormalized_eq_ok.2 ⟨hr, hn, rfl⟩, ok_bind, runCommand_pure]

/-! ### The obligations -/

/-- Settles O17: the limbs SETB32 leaves and the bytes of BUF hold one integer, whether it is below p or not. -/
theorem setbBitProvenance : Obligations.SetbBitProvenance := by
  intro rd s
  obtain ⟨t, ht, hlimbs⟩ := exec_setb32_limbs rd s
  exact ⟨t, ht, hlimbs ▸ (limbsAndBytes_slice26 s.bufw).setbTable⟩

/-- Settles O19: the limbs of a normalized operand are within their widths, so they and the bytes of the encoding hold
one integer. -/
theorem getbByteProvenance : Obligations.GetbByteProvenance := by
  intro ra s hr hn
  obtain ⟨hle, htop, -⟩ := canonical_of_norm hr.2 hn
  exact ⟨_, exec_getb32_writes hr hn, (limbsAndBytes_toWire (length_limbs _) hle htop).getbTable⟩

/-- Settles O20: the register that SETB32 leaves holds BUF's value, GETB32 writes the encoding of that value, and the
encoding of BUF's value is BUF. -/
theorem wireRoundTrip : Obligations.WireRoundTrip := by
  intro rd s hlt
  obtain ⟨t, hset, hresult, hreadable, hnorm, hval⟩ := exec_setb32_loads rd hlt
  refine ⟨t, _, hset, hresult, exec_getb32_writes hreadable hnorm, hresult, ?_⟩
  calc toWire t.freg[rd].val = toWire (bval s.bufw) := by rw [hval]
    _ = s.bufw := toWire_bval s.bufw

end Sys2Proof.Machine
end

section
/-! PROOFS. A recorded fault at the host window: accesses while it stands, the return from it, and what puts a command in
flight (60_exceptions.md R224, R225). -/

namespace Sys2Proof.Machine

/-! ### Accesses to an idle unit -/

theorem busy_of_idle {s : State} (hc : s.cur = none) : s.busy = false := by rw [State.busy, hc]; rfl

/-- An idle unit takes an event and counts nothing. -/
theorem afterEvent_of_idle {s : State} (rest : List HostEvent) (hc : s.cur = none) :
    s.afterEvent rest = { s with host := rest } := by rw [State.afterEvent, if_pos hc]

/-- No register shows which accesses are still to come. -/
theorem readReg_host (s : State) (rest : List HostEvent) (r : BusReg) :
    readReg { s with host := rest } r = readReg s r := by
  cases r <;> rfl

/-- A read of an idle unit returns the register (20_memory.md R64). -/
theorem readGives_of_idle {s : State} {off : Nat} (rest : List HostEvent) (hc : s.cur = none) (hoff : legalOffset off) :
    s.readGives off rest { s with host := rest, rdata := readReg s (busReg off) } := by
  have hbusy : State.busy { s with host := rest } = false := busy_of_idle hc
  have hread := readGives_busRead rest (.inl hc) hoff
  rwa [afterEvent_of_idle rest hc, busRead_specified (.inl hbusy), readReg_host] at hread

/-- A write to an idle unit reaches the register (20_memory.md R64). -/
theorem writeGives_of_idle {s : State} {off : Nat} {r : BusReg} (v : Word) (rest : List HostEvent) (hc : s.cur = none)
    (hoff : legalOffset off) (hreg : busReg off = r) :
    s.writeGives off v rest (writeReg r v { s with host := rest }) := by
  have hbusy : State.busy { s with host := rest } = false := busy_of_idle hc
  have hwrite := writeGives_busWrite v rest (.inl hc) hoff
  rwa [afterEvent_of_idle rest hc, busWrite_accepted v (.inl hbusy), hreg] at hwrite

/-! ### The registers CMD and CTRL -/

/-- A write of CMD while FAULT = 1 is discarded (60_exceptions.md R224). -/
theorem writeReg_cmd_of_fault {s : State} (v : Word) (h : s.fault = true) : writeReg .cmd v s = s := if_pos h

/-- A write of CTRL acts in flight too: it is not locked (60_exceptions.md R225). -/
theorem busWrite_ctrl (v : Word) (s : State) : busWrite 0x00C v s = if v.getLsbD 0 then clearFault s else s :=
  busWrite_accepted v (.inr rfl)

/-- A write of CTRL looks at bit 0 alone (10_state.md R48, 60_exceptions.md R225). -/
theorem writeGives_ctrl {s : State} (v : Word) (rest : List HostEvent) (ht : s.takesEvent) :
    s.writeGives 0x00C v rest (if v.getLsbD 0 then clearFault (s.afterEvent rest) else s.afterEvent rest) := by
  rw [← busWrite_ctrl]
  exact writeGives_busWrite v rest ht (by decide)

/-- CMD stands at one offset alone (20_memory.md R61). -/
theorem offset_of_busReg_cmd {off : Nat} (h : busReg off = .cmd) : off = 0x000 := by
  by_contra hoff
  rw [busReg, if_neg hoff] at h
  repeat' split at h
  all_goals cases h

/-- CTRL stands at one offset alone (20_memory.md R61). -/
theorem offset_of_busReg_ctrl {off : Nat} (h : busReg off = .ctrl) : off = 0x00C := by
  by_contra hoff
  simp only [busReg, if_neg hoff] at h
  repeat' split at h
  all_goals cases h

/-! ### What takes FAULT from 1 to 0 -/

/-- A rule's writes leave FAULT as it is. -/
theorem ruleWrites_fault {i : Instr} {s t : State} (h : ruleWrites i s t) : t.fault = s.fault := by
  obtain ⟨_, _, _, rfl⟩ | ⟨_, _, _, _, _, rfl⟩ | ⟨_, _, _, _, rfl⟩ | ⟨_, _, rfl⟩ | ⟨_, _, _, rfl⟩ | ⟨_, _, _, rfl⟩ |
    ⟨_, _, _, rfl⟩ | ⟨_, _, _, _, rfl⟩ := ruleWrites_shape h <;> rfl

/-- No command takes FAULT from 1 to 0: it completes, or enters a fault (60_exceptions.md R226). -/
theorem execute_keeps_fault {w : Word} {s t : State} (h : execute w s = .next t) (hs : s.fault = true) :
    t.fault = true := by
  cases hw : decode w with
  | command i =>
    rw [execute_command hw] at h
    rcases exec_cases h with hwrites | ⟨e, -, rfl⟩
    · rw [ruleWrites_fault hwrites, hs]
    · exact takeFault_fault e s
  | illegalOp =>
    rw [execute_illegalOp hw] at h
    cases h
    exact takeFault_fault _ s
  | illegalField =>
    rw [execute_illegalField hw] at h
    cases h
    exact takeFault_fault _ s

/-- Of the registers a write can reach, only CTRL with bit 0 = 1 ends a fault. -/
theorem writeReg_ends_fault {r : BusReg} {v : Word} {s : State} (hs : s.fault = true)
    (ht : (writeReg r v s).fault = false) : r = .ctrl ∧ v.getLsbD 0 = true := by
  cases r
  case ctrl =>
    refine ⟨rfl, ?_⟩
    by_contra hv
    rw [writeReg, if_neg hv, hs] at ht
    cases ht
  case cmd => rw [writeReg_cmd_of_fault v hs, hs] at ht; cases ht
  all_goals exact absurd (hs.symm.trans ht) (by decide)

/-- A bus write that ends a fault is one of CTRL with bit 0 = 1; an overrun is none (60_exceptions.md R225, R227). -/
theorem busWrite_ends_fault {off : Nat} {v : Word} {s : State} (hs : s.fault = true)
    (ht : (busWrite off v s).fault = false) : off = 0x00C ∧ v.getLsbD 0 = true := by
  unfold busWrite at ht
  split at ht
  · rw [takeFault_fault] at ht; cases ht
  · obtain ⟨hreg, hv⟩ := writeReg_ends_fault hs ht
    exact ⟨offset_of_busReg_ctrl hreg, hv⟩

/-- A poll of STATUS leaves FAULT and the latch as they are (30_encoding.md R88). -/
theorem hostEvent_wait_frame {s t : State} (h : hostEvent .wait s = .next t) : t.fault = s.fault ∧ t.cur = s.cur := by
  cases h
  split <;> exact ⟨busRead_fault _ s, busRead_cur _ s⟩

/-- An event that ends a fault is the reset event or a write of CTRL with bit 0 = 1 (60_exceptions.md R225,
70_reset_and_hazards.md R250). -/
theorem hostEvent_ends_fault {e : HostEvent} {s t : State} (h : hostEvent e s = .next t) (hs : s.fault = true)
    (ht : t.fault = false) : e = .reset ∨ ∃ v : Word, v.getLsbD 0 = true ∧ e = .write 0x00C 4 v := by
  have changed : t.fault ≠ s.fault := by rw [hs, ht]; decide
  obtain ⟨rfl, rfl⟩ | ⟨off, rfl, -, rfl⟩ | ⟨off, v, rfl, -, rfl⟩ | ⟨rfl, -⟩ | ⟨rfl, -⟩ := hostEvent_next h
  · exact absurd rfl changed
  · exact absurd (busRead_fault off s) changed
  · obtain ⟨rfl, hv⟩ := busWrite_ends_fault hs ht
    exact .inr ⟨v, hv, rfl⟩
  · exact absurd (hostEvent_wait_frame h).1 changed
  · exact .inl rfl

/-- A step that ends a fault takes the reset event or a write of CTRL with bit 0 = 1 (60_exceptions.md R225). -/
theorem step_ends_fault {s t : State} (h : step s = .next t) (hs : s.fault = true) (ht : t.fault = false) :
    ∃ rest, s.host = .reset :: rest ∨ ∃ v : Word, v.getLsbD 0 = true ∧ s.host = .write 0x00C 4 v :: rest := by
  obtain ⟨w, u, -, -, hexec, rfl⟩ | ⟨-, -, rfl⟩ | ⟨-, e, rest, hhost, hevent⟩ := step_cases h
  · exact absurd ((execute_keeps_fault hexec hs).symm.trans ht) (by decide)
  · exact absurd (hs.symm.trans ht) (by decide)
  · obtain rfl | ⟨v, hv, rfl⟩ := hostEvent_ends_fault hevent hs ht
    · exact ⟨rest, .inl hhost⟩
    · exact ⟨rest, .inr ⟨v, hv, hhost⟩⟩

/-! ### What puts a command in flight -/

/-- Of the registers a write can reach, only CMD with FAULT = 0 fills the latch, with the word written. -/
theorem writeReg_issues {r : BusReg} {v w : Word} {s : State} (hc : s.cur = none) (ht : (writeReg r v s).cur = some w) :
    r = .cmd ∧ w = v ∧ s.fault = false := by
  have unchanged : s.cur ≠ some w := by rw [hc]; nofun
  cases r
  case cmd =>
    cases hf : s.fault with
    | true => rw [writeReg_cmd_of_fault v hf] at ht; exact absurd ht unchanged
    | false =>
      rw [writeReg, hf] at ht
      exact ⟨rfl, (Option.some.inj ht).symm, rfl⟩
  case ctrl =>
    rw [writeReg] at ht
    split at ht <;> exact absurd ht unchanged
  all_goals exact absurd ht unchanged

/-- An event that puts a command in flight is a write of its word to CMD with FAULT = 0 (60_exceptions.md R220, R225). -/
theorem hostEvent_issues {e : HostEvent} {s t : State} {w : Word} (h : hostEvent e s = .next t) (hc : s.cur = none)
    (ht : t.cur = some w) : s.fault = false ∧ e = .write 0x000 4 w := by
  have changed : t.cur ≠ s.cur := by rw [hc, ht]; nofun
  obtain ⟨rfl, rfl⟩ | ⟨off, rfl, -, rfl⟩ | ⟨off, v, rfl, -, rfl⟩ | ⟨rfl, -⟩ | ⟨rfl, rfl⟩ := hostEvent_next h
  · exact absurd rfl changed
  · exact absurd (busRead_cur off s) changed
  · rw [busWrite_accepted v (.inl (busy_of_idle hc))] at ht
    obtain ⟨hreg, rfl, hfault⟩ := writeReg_issues hc ht
    obtain rfl := offset_of_busReg_cmd hreg
    exact ⟨hfault, rfl⟩
  · exact absurd (hostEvent_wait_frame h).2 changed
  · cases ht

/-- A step that puts a command in flight takes a write of its word to CMD with FAULT = 0 (60_exceptions.md R225). -/
theorem step_issues {s t : State} {w : Word} (h : step s = .next t) (hc : s.cur = none) (ht : t.cur = some w) :
    s.fault = false ∧ ∃ rest, s.host = .write 0x000 4 w :: rest := by
  obtain ⟨w', u, -, -, -, rfl⟩ | ⟨-, -, rfl⟩ | ⟨-, e, rest, hhost, hevent⟩ := step_cases h
  · cases ht
  · exact absurd (hc.symm.trans ht) nofun
  · obtain ⟨hfault, rfl⟩ := hostEvent_issues hevent hc ht
    exact ⟨hfault, rest, hhost⟩

/-! ### The obligations -/

/-- Settles O53: a write of CTRL is the bus write of CTRL once the event is taken; the two only-by clauses follow the
cases of a step, where the completion of a command keeps a recorded fault and leaves the latch empty. -/
theorem faultReturn : Obligations.FaultReturn := by
  refine ⟨fun s v rest ht hv => ?_, fun s v rest ht hv => ?_, fun _ _ => step_ends_fault, fun _ _ _ => step_issues⟩
  · have hwrite := writeGives_ctrl v rest ht
    rwa [if_pos hv] at hwrite
  · have hwrite := writeGives_ctrl v rest ht
    rwa [if_neg (ne_true_of_eq_false hv)] at hwrite

/-- Settles O52: in an idle unit each access reaches its register, and only CMD looks at FAULT. -/
theorem discardWhileFaulted : Obligations.DiscardWhileFaulted := by
  intro s v rest hc hfault
  refine ⟨?cmd, fun j => ?bufw, fun i => ?limb, ?metaw, fun off hoff => readGives_of_idle rest hc hoff⟩
  case cmd =>
    have hwrite := writeGives_of_idle (off := 0x000) (r := .cmd) v rest hc (by decide) rfl
    rwa [writeReg_cmd_of_fault (s := { s with host := rest }) v hfault] at hwrite
  case bufw => exact writeGives_of_idle v rest hc ⟨by omega, by omega⟩ (busReg_bufw j)
  case limb => exact writeGives_of_idle v rest hc ⟨by omega, by omega⟩ (busReg_limb i)
  case metaw => exact writeGives_of_idle (r := .metaw) v rest hc (by decide) rfl

end Sys2Proof.Machine
end

section
/-! PROOFS. Every command: it answers a next state, its writes are those of its rule, and its faults are precise
(60_exceptions.md R220, R221, R226). -/

namespace Sys2Proof.Machine

/-! ### A command answers -/

/-- Every arm of the opcode map runs a rule, and running a rule answers a next state. -/
theorem exec_next (i : Instr) (s : State) : ∃ t, exec i s = .next t := by
  cases i
  case setint rd imm | clear rd | ldstor sd => exact ⟨_, rfl⟩
  all_goals exact runCommand_next s _

/-- The converse of `exec_cases`: where the checks of a rule hold, the command makes the rule's writes. -/
theorem exec_of_ruleWrites {i : Instr} {s t : State} (h : ruleWrites i s t) : exec i s = .next t := by
  cases i
  case setint rd imm | clear rd | ldstor sd => cases h; rfl
  case norm rd ra | normw rd ra | normv rd ra | mov rd ra =>
    obtain ⟨hr, rfl⟩ := h
    simp only [exec, execNorm, execNormw, execNormv, execMov, readF_of_readable hr, ok_bind, runCommand_pure]
  case ntz ra | ntzv ra =>
    obtain ⟨hr, rfl⟩ := h
    simp only [exec, execNtz, execNtzv, readF_of_readable hr, ok_bind, runCommand_pure]
  case setb32 rd =>
    cases h
    simp only [exec, execSetb32]
    cases geP (slice26 (bval s.bufw)) <;> rfl
  case getb32 ra =>
    obtain ⟨⟨hr, hn⟩, rfl⟩ := h
    exact exec_getb32_writes hr hn
  case tostor sd fa =>
    obtain ⟨⟨hr, hn⟩, rfl⟩ := h
    simp only [exec, execTostor, readNormalized_eq_ok.2 ⟨hr, hn, rfl⟩, ok_bind, runCommand_pure]
  case sqr rd ra | inv rd ra | invv rd ra | sqrt rd ra | isqv ra =>
    obtain ⟨hf, rfl⟩ := h
    simp only [exec, execSqr, execInv, execInvv, execSqrt, execIsqv, readFactor_eq_ok.2 ⟨hf, rfl⟩, ok_bind,
      runCommand_pure]
  case straw fa | verify fa =>
    obtain ⟨hw, rfl⟩ := h
    simp only [exec, execStraw, execVerify, readFRaw_of_written hw, ok_bind, runCommand_pure]
  case ststor sa =>
    obtain ⟨hw, rfl⟩ := h
    simp only [exec, execStstor, readS_of_written hw, ok_bind, runCommand_pure]
  case fromstor fd sa =>
    obtain ⟨⟨hw, hlt⟩, rfl⟩ := h
    simp only [exec, execFromstor, readS_of_written hw, hlt, decide_true, require_true, ok_bind, runCommand_pure]
  case ldraw fd =>
    obtain ⟨hv, rfl⟩ := h
    simp only [exec, execLdraw, hv, require_true, ok_bind, runCommand_pure]
  case neg rd ra m =>
    obtain ⟨⟨hm, hr, hle⟩, rfl⟩ := h
    simp only [exec, execNeg, requireImm, hm, readF_of_readable hr, hle, decide_true, require_true, ok_bind,
      runCommand_pure]
  case mulint rd ra a =>
    obtain ⟨⟨hm, hr, hle⟩, rfl⟩ := h
    simp only [exec, execMulint, requireImm, hm, readF_of_readable hr, hle, decide_true, require_true, ok_bind,
      runCommand_pure]
  case cmov rd ra flag =>
    obtain ⟨⟨hm, hd, hr⟩, rfl⟩ := h
    simp only [exec, execCmov, requireImm, hm, readF_of_readable hd, readF_of_readable hr, decide_true, require_true,
      ok_bind, runCommand_pure]
  case scmov sd sa flag =>
    obtain ⟨⟨hm, hd, hr⟩, rfl⟩ := h
    simp only [exec, execScmov, requireImm, hm, readS_of_written hd, readS_of_written hr, decide_true, require_true,
      ok_bind, runCommand_pure]
  case add rd ra rb =>
    obtain ⟨⟨ha, hb, hle⟩, rfl⟩ := h
    simp only [exec, execAdd, readF_of_readable ha, readF_of_readable hb, hle, decide_true, require_true, ok_bind,
      runCommand_pure]
  case mul rd ra rb =>
    obtain ⟨⟨⟨ha, hma⟩, hb, hmb⟩, rfl⟩ := h
    simp only [exec, execMul, readF_of_readable ha, readF_of_readable hb, hma, hmb, decide_true, Bool.and_self,
      require_true, ok_bind, runCommand_pure]
  case cmpv ra rb =>
    obtain ⟨⟨ha, hb, hna, hnb⟩, rfl⟩ := h
    simp only [exec, execCmpv, readF_of_readable ha, readF_of_readable hb, hna, hnb, Bool.and_self, require_true,
      ok_bind, runCommand_pure]
  case eq ra rb | eqv ra rb =>
    obtain ⟨⟨ha, hb⟩, rfl⟩ := h
    simp only [exec, execEq, execEqv, readF_of_readable ha, readF_of_readable hb, ok_bind, runCommand_pure]

/-! ### What a command leaves as it is -/

theorem freg_writeF_ne (s : State) {i j : FieldIx} (r : FieldRec) (h : i ≠ j) : (s.writeF i r).freg[j] = s.freg[j] := by
  rw [State.writeF_freg_get, if_neg h]

theorem freg_writeLimbs_ne (s : State) {i j : FieldIx} (n : Vector Word 10) (h : i ≠ j) :
    (s.writeLimbs i n).freg[j] = s.freg[j] := by
  rw [State.writeLimbs_freg_get, if_neg h]

theorem sreg_writeS_ne (s : State) {i j : StorIx} (sw : Vector Word 8) (h : i ≠ j) :
    (s.writeS i sw).sreg[j] = s.sreg[j] := by
  rw [State.writeS_sreg_get, if_neg h]

/-- What the rule of the command `i` leaves as it is, place by place. -/
structure RuleFrame (i : Instr) (s t : State) : Prop where
  freg : ∀ j : FieldIx, fieldDest i ≠ some j → t.freg[j] = s.freg[j]
  sreg : ∀ j : StorIx, storDest i ≠ some j → t.sreg[j] = s.sreg[j]
  result : writesResult i = false → t.result = s.result
  bufw : (∀ ra, i ≠ .getb32 ra) → t.bufw = s.bufw
  limb : (∀ sa, i ≠ .ststor sa) → (∀ fa, i ≠ .straw fa) → t.limb = s.limb
  metaw : (∀ fa, i ≠ .straw fa) → t.metaw = s.metaw
  fault : t.fault = s.fault
  fcode : t.fcode = s.fcode
  faultcmd : t.faultcmd = s.faultcmd
  cur : t.cur = s.cur
  left : t.left = s.left
  host : t.host = s.host
  rdata : t.rdata = s.rdata
  draws : t.draws = s.draws

/-- The frame of a rule, by the shapes of its writes. -/
theorem ruleWrites_frame {i : Instr} {s t : State} (h : ruleWrites i s t) : RuleFrame i s t := by
  obtain ⟨rd, r, hd, rfl⟩ | ⟨rd, r, v, hd, hv, rfl⟩ | ⟨rd, n, v, rfl, rfl⟩ | ⟨v, hv, rfl⟩ | ⟨sd, sw, hd, rfl⟩ |
    ⟨ra, b, rfl, rfl⟩ | ⟨sa, sw, rfl, rfl⟩ | ⟨fa, l, m, rfl, rfl⟩ := ruleWrites_shape h
  · constructor
    case freg => exact fun j hj => freg_writeF_ne s r fun e => hj (e ▸ hd)
    all_goals intros; rfl
  · constructor
    case freg => exact fun j hj => freg_writeF_ne s r fun e => hj (e ▸ hd)
    case result => exact fun hi => absurd (hi.symm.trans hv) (by decide)
    all_goals intros; rfl
  · constructor
    case freg => exact fun j hj => freg_writeLimbs_ne s n fun e => hj (e ▸ rfl)
    case result => exact fun hi => absurd (show true = false from hi) (by decide)
    all_goals intros; rfl
  · constructor
    case result => exact fun hi => absurd (hi.symm.trans hv) (by decide)
    all_goals intros; rfl
  · constructor
    case sreg => exact fun j hj => sreg_writeS_ne s sw fun e => hj (e ▸ hd)
    all_goals intros; rfl
  · constructor
    case bufw => exact fun hi => absurd rfl (hi ra)
    all_goals intros; rfl
  · constructor
    case limb => exact fun hi _ => absurd rfl (hi sa)
    all_goals intros; rfl
  · constructor
    case limb => exact fun _ hi => absurd rfl (hi fa)
    case metaw => exact fun hi => absurd rfl (hi fa)
    all_goals intros; rfl

/-! ### The obligations -/

/-- Settles O45. -/
theorem everyCommandAnswers : Obligations.EveryCommandAnswers := exec_next

/-- Settles O46: a command makes its rule's writes, none of them to STATUS or FAULTCMD, or enters a fault of its rule. -/
theorem faultsArePrecise : Obligations.FaultsArePrecise := by
  intro i s t h
  rcases exec_cases h with hwrites | ⟨e, he, rfl⟩
  · have frame := ruleWrites_frame hwrites
    exact .inr ⟨frame.fault, frame.fcode, frame.faultcmd⟩
  · obtain ⟨hlow, hhigh⟩ := FaultCode.ofRule_code he
    exact .inl ⟨e.code, hlow, hhigh, takeFault_eq_afterFault e s⟩

/-- Settles O47: a rule's frame; fault entry writes none of these fields. -/
theorem onlyNamedStateIsWritten : Obligations.OnlyNamedStateIsWritten := by
  intro i s t h
  rcases exec_cases h with hwrites | ⟨e, -, rfl⟩
  · have frame := ruleWrites_frame hwrites
    exact ⟨frame.freg, frame.sreg, frame.result, frame.bufw, frame.limb, frame.metaw,
      frame.cur, frame.left, frame.host, frame.rdata, frame.draws⟩
  · simp

end Sys2Proof.Machine
end

section
/-! PROOFS. The decoder and the encoder undo each other, and what makes a word illegal (30_encoding.md R80–R87). -/

namespace Sys2Proof

/-! ### The shape decoders on a packed word (R81, R83) -/

section

variable {op : BitVec 8} {rd ra rb : Fin 16} {imm : BitVec 12} {max : Nat}

theorem decodeD_packWord (mk : Fin 16 → Instr) : decodeD (packWord op rd 0 0 0) mk = .command (mk rd) := by
  simp [decodeD, checkFields]

theorem decodeDI_packWord (mk : Fin 16 → BitVec 12 → Instr) (h : imm.toNat ≤ max) :
    decodeDI (packWord op rd 0 0 imm) max mk = .command (mk rd imm) := by
  simp [decodeDI, checkFields, h]

theorem decodeA_packWord (mk : Fin 16 → Instr) : decodeA (packWord op 0 ra 0 0) mk = .command (mk ra) := by
  simp [decodeA, checkFields]

theorem decodeDA_packWord (mk : Fin 16 → Fin 16 → Instr) :
    decodeDA (packWord op rd ra 0 0) mk = .command (mk rd ra) := by
  simp [decodeDA, checkFields]

theorem decodeDAI_packWord (mk : Fin 16 → Fin 16 → BitVec 12 → Instr) (h : imm.toNat ≤ max) :
    decodeDAI (packWord op rd ra 0 imm) max mk = .command (mk rd ra imm) := by
  simp [decodeDAI, checkFields, h]

theorem decodeDAB_packWord (mk : Fin 16 → Fin 16 → Fin 16 → Instr) :
    decodeDAB (packWord op rd ra rb 0) mk = .command (mk rd ra rb) := by
  simp [decodeDAB, checkFields]

theorem decodeAB_packWord (mk : Fin 16 → Fin 16 → Instr) :
    decodeAB (packWord op 0 ra rb 0) mk = .command (mk ra rb) := by
  simp [decodeAB, checkFields]

end

/-! ### The words a shape decoder answers with a command (R82, R83) -/

section

variable {w : Word} {op : BitVec 8} {i : Instr} {max : Nat}

theorem decodeD_eq_command {mk : Fin 16 → Instr} (hop : opField w = op) (h : decodeD w mk = .command i) :
    i = mk (rdField w) ∧ packWord op (rdField w) 0 0 0 = w := by
  simp only [decodeD, checkFields_eq_command, Bool.and_eq_true, beq_iff_eq] at h
  obtain ⟨⟨⟨ha, hb⟩, himm⟩, -, rfl⟩ := h
  have hw := packWord_fields w
  rw [hop, ha, hb, himm] at hw
  exact ⟨rfl, hw⟩

theorem decodeDI_eq_command {mk : Fin 16 → BitVec 12 → Instr} (hop : opField w = op)
    (h : decodeDI w max mk = .command i) :
    i = mk (rdField w) (immField w) ∧ packWord op (rdField w) 0 0 (immField w) = w := by
  simp only [decodeDI, checkFields_eq_command, Bool.and_eq_true, beq_iff_eq] at h
  obtain ⟨⟨ha, hb⟩, -, rfl⟩ := h
  have hw := packWord_fields w
  rw [hop, ha, hb] at hw
  exact ⟨rfl, hw⟩

theorem decodeA_eq_command {mk : Fin 16 → Instr} (hop : opField w = op) (h : decodeA w mk = .command i) :
    i = mk (raField w) ∧ packWord op 0 (raField w) 0 0 = w := by
  simp only [decodeA, checkFields_eq_command, Bool.and_eq_true, beq_iff_eq] at h
  obtain ⟨⟨⟨hd, hb⟩, himm⟩, -, rfl⟩ := h
  have hw := packWord_fields w
  rw [hop, hd, hb, himm] at hw
  exact ⟨rfl, hw⟩

theorem decodeDA_eq_command {mk : Fin 16 → Fin 16 → Instr} (hop : opField w = op) (h : decodeDA w mk = .command i) :
    i = mk (rdField w) (raField w) ∧ packWord op (rdField w) (raField w) 0 0 = w := by
  simp only [decodeDA, checkFields_eq_command, Bool.and_eq_true, beq_iff_eq] at h
  obtain ⟨⟨hb, himm⟩, -, rfl⟩ := h
  have hw := packWord_fields w
  rw [hop, hb, himm] at hw
  exact ⟨rfl, hw⟩

theorem decodeDAI_eq_command {mk : Fin 16 → Fin 16 → BitVec 12 → Instr} (hop : opField w = op)
    (h : decodeDAI w max mk = .command i) :
    i = mk (rdField w) (raField w) (immField w) ∧ packWord op (rdField w) (raField w) 0 (immField w) = w ∧
      decide ((immField w).toNat ≤ max) = true := by
  simp only [decodeDAI, checkFields_eq_command, beq_iff_eq] at h
  obtain ⟨hb, hrange, rfl⟩ := h
  have hw := packWord_fields w
  rw [hop, hb] at hw
  exact ⟨rfl, hw, hrange⟩

theorem decodeDAB_eq_command {mk : Fin 16 → Fin 16 → Fin 16 → Instr} (hop : opField w = op)
    (h : decodeDAB w mk = .command i) :
    i = mk (rdField w) (raField w) (rbField w) ∧ packWord op (rdField w) (raField w) (rbField w) 0 = w := by
  simp only [decodeDAB, checkFields_eq_command, beq_iff_eq] at h
  obtain ⟨himm, -, rfl⟩ := h
  have hw := packWord_fields w
  rw [hop, himm] at hw
  exact ⟨rfl, hw⟩

theorem decodeAB_eq_command {mk : Fin 16 → Fin 16 → Instr} (hop : opField w = op) (h : decodeAB w mk = .command i) :
    i = mk (raField w) (rbField w) ∧ packWord op 0 (raField w) (rbField w) 0 = w := by
  simp only [decodeAB, checkFields_eq_command, Bool.and_eq_true, beq_iff_eq] at h
  obtain ⟨⟨hd, himm⟩, -, rfl⟩ := h
  have hw := packWord_fields w
  rw [hop, hd, himm] at hw
  exact ⟨rfl, hw⟩

end

/-! ### The decoder and the encoder -/

/-- Every well-formed command is read back from its encoding, shape by shape. -/
theorem decode_encode {i : Instr} (h : i.wellFormed = true) : decode (encode i) = .command i := by
  cases i
  case norm rd ra | normw rd ra | normv rd ra | mov rd ra | sqr rd ra | inv rd ra | invv rd ra | sqrt rd ra
      | tostor rd ra | fromstor rd ra =>
    simp only [encode, decode, opField_packWord]
    exact decodeDA_packWord _
  case ntz ra | ntzv ra | getb32 ra | isqv ra | ststor ra | straw ra | verify ra =>
    simp only [encode, decode, opField_packWord]
    exact decodeA_packWord _
  case setb32 rd | clear rd | ldstor rd | ldraw rd =>
    simp only [encode, decode, opField_packWord]
    exact decodeD_packWord _
  case add rd ra rb | mul rd ra rb =>
    simp only [encode, decode, opField_packWord]
    exact decodeDAB_packWord _
  case cmpv ra rb | eq ra rb | eqv ra rb =>
    simp only [encode, decode, opField_packWord]
    exact decodeAB_packWord _
  case neg rd ra m | mulint rd ra m | cmov rd ra m | scmov rd ra m =>
    simp only [encode, decode, opField_packWord]
    exact decodeDAI_packWord _ (of_decide_eq_true h)
  case setint rd imm =>
    simp only [encode, decode, opField_packWord]
    exact decodeDI_packWord _ (by omega)

/-- A word that decodes to a command is its encoding: OP names the row, and the fields the row's shape does not use are
0. -/
theorem encode_of_decode {w : Word} {i : Instr} (h : decode w = .command i) : encode i = w ∧ i.wellFormed = true := by
  unfold decode at h
  split at h
  case h_1 hop | h_2 hop | h_3 hop | h_12 hop | h_16 hop | h_17 hop | h_18 hop | h_19 hop | h_24 hop | h_25 hop =>
    obtain ⟨rfl, hw⟩ := decodeDA_eq_command hop h
    exact ⟨hw, rfl⟩
  case h_4 hop | h_5 hop | h_7 hop | h_20 hop | h_28 hop | h_30 hop | h_31 hop =>
    obtain ⟨rfl, hw⟩ := decodeA_eq_command hop h
    exact ⟨hw, rfl⟩
  case h_6 hop | h_14 hop | h_27 hop | h_29 hop =>
    obtain ⟨rfl, hw⟩ := decodeD_eq_command hop h
    exact ⟨hw, rfl⟩
  case h_8 hop | h_15 hop =>
    obtain ⟨rfl, hw⟩ := decodeDAB_eq_command hop h
    exact ⟨hw, rfl⟩
  case h_21 hop | h_22 hop | h_23 hop =>
    obtain ⟨rfl, hw⟩ := decodeAB_eq_command hop h
    exact ⟨hw, rfl⟩
  case h_9 hop | h_10 hop | h_11 hop | h_26 hop =>
    obtain ⟨rfl, hw, hrange⟩ := decodeDAI_eq_command hop h
    exact ⟨hw, hrange⟩
  case h_13 hop =>
    obtain ⟨rfl, hw⟩ := decodeDI_eq_command hop h
    exact ⟨hw, rfl⟩
  case h_32 => cases h

/-- A word whose OP some command has is not ILLEGAL_OP: its shape's checks answer. -/
theorem decode_ne_illegalOp {w : Word} {i : Instr} (h : opField (encode i) = opField w) : decode w ≠ .illegalOp := by
  cases i <;>
    · simp only [encode, opField_packWord] at h
      simp only [decode, ← h]
      exact checkFields_ne_illegalOp _ _ _

/-- A word that is not ILLEGAL_OP has the OP of the row it was looked up in. -/
theorem opField_of_decode_ne {w : Word} (h : decode w ≠ .illegalOp) : ∃ i : Instr, opField (encode i) = opField w := by
  unfold decode at h
  split at h
  case h_1 hop => exact ⟨.norm 0 0, hop.symm⟩
  case h_2 hop => exact ⟨.normw 0 0, hop.symm⟩
  case h_3 hop => exact ⟨.normv 0 0, hop.symm⟩
  case h_4 hop => exact ⟨.ntz 0, hop.symm⟩
  case h_5 hop => exact ⟨.ntzv 0, hop.symm⟩
  case h_6 hop => exact ⟨.setb32 0, hop.symm⟩
  case h_7 hop => exact ⟨.getb32 0, hop.symm⟩
  case h_8 hop => exact ⟨.add 0 0 0, hop.symm⟩
  case h_9 hop => exact ⟨.neg 0 0 0, hop.symm⟩
  case h_10 hop => exact ⟨.mulint 0 0 0, hop.symm⟩
  case h_11 hop => exact ⟨.cmov 0 0 0, hop.symm⟩
  case h_12 hop => exact ⟨.mov 0 0, hop.symm⟩
  case h_13 hop => exact ⟨.setint 0 0, hop.symm⟩
  case h_14 hop => exact ⟨.clear 0, hop.symm⟩
  case h_15 hop => exact ⟨.mul 0 0 0, hop.symm⟩
  case h_16 hop => exact ⟨.sqr 0 0, hop.symm⟩
  case h_17 hop => exact ⟨.inv 0 0, hop.symm⟩
  case h_18 hop => exact ⟨.invv 0 0, hop.symm⟩
  case h_19 hop => exact ⟨.sqrt 0 0, hop.symm⟩
  case h_20 hop => exact ⟨.isqv 0, hop.symm⟩
  case h_21 hop => exact ⟨.cmpv 0 0, hop.symm⟩
  case h_22 hop => exact ⟨.eq 0 0, hop.symm⟩
  case h_23 hop => exact ⟨.eqv 0 0, hop.symm⟩
  case h_24 hop => exact ⟨.tostor 0 0, hop.symm⟩
  case h_25 hop => exact ⟨.fromstor 0 0, hop.symm⟩
  case h_26 hop => exact ⟨.scmov 0 0 0, hop.symm⟩
  case h_27 hop => exact ⟨.ldstor 0, hop.symm⟩
  case h_28 hop => exact ⟨.ststor 0, hop.symm⟩
  case h_29 hop => exact ⟨.ldraw 0, hop.symm⟩
  case h_30 hop => exact ⟨.straw 0, hop.symm⟩
  case h_31 hop => exact ⟨.verify 0, hop.symm⟩
  case h_32 => exact absurd rfl h

/-- ILLEGAL_OP is told by OP alone (R85). -/
theorem decode_eq_illegalOp_iff (w : Word) :
    decode w = .illegalOp ↔ ∀ i : Instr, opField (encode i) ≠ opField w := by
  refine ⟨fun h i hop => decode_ne_illegalOp hop h, fun h => ?_⟩
  by_contra hne
  obtain ⟨i, hop⟩ := opField_of_decode_ne hne
  exact h i hop

/-! ### The obligations -/

/-- Settles O1. -/
theorem decodeOfEncode : Obligations.DecodeOfEncode := fun _ => decode_encode

/-- Settles O2. -/
theorem decodedWordIsEncoding : Obligations.DecodedWordIsEncoding := fun _ _ => encode_of_decode

/-- Settles O3: ILLEGAL_OP is told by OP; ILLEGAL_FIELD is what is left when no command is decoded, and a command is
decoded exactly from its encoding. -/
theorem illegalWordsClassified : Obligations.IllegalWordsClassified := by
  refine fun w => ⟨decode_eq_illegalOp_iff w, fun h => ⟨?_, fun i hi hw => ?_⟩, fun ⟨⟨i, hop⟩, hnone⟩ => ?_⟩
  · exact opField_of_decode_ne (by rw [h]; decide)
  · have hcommand := decode_encode hi
    rw [hw, h] at hcommand
    cases hcommand
  · cases hd : decode w with
    | command j =>
      obtain ⟨hw, hj⟩ := encode_of_decode hd
      exact absurd hw (hnone j hj)
    | illegalOp => exact absurd hd (decode_ne_illegalOp hop)
    | illegalField => rfl

/-- All but the 31 OPs of the opcode map are reserved (R85). -/
theorem reservedOps_count :
    ((List.range 256).filter fun op => decode (BitVec.ofNat 32 (op * 2 ^ 24)) = .illegalOp).length = 225 := by
  decide +kernel

/-- Settles O4: the decoder evaluated on each word. -/
theorem sampleWordsDecode : Obligations.SampleWordsDecode :=
  ⟨by decide, by decide, by decide, by decide, by decide, by decide, by decide, by decide, reservedOps_count, by decide,
    by decide, by decide⟩

end Sys2Proof
end

section
/-! PROOFS. One cycle: the completion of the word in the latch, and the reset event (60_exceptions.md R220,
70_reset_and_hazards.md R250). -/

namespace Sys2Proof.Machine

/-- The completion of a command word: the command's effect, and the latch emptied. -/
theorem step_of_command {s : State} {w : Word} {i : Instr} (hc : s.cur = some w) (hl : s.left = 0)
    (hd : decode w = .command i) : ∃ t, exec i s = .next t ∧ step s = .next (complete t) := by
  obtain ⟨t, ht⟩ := exec_next i s
  refine ⟨t, ht, ?_⟩
  rw [step_completes hc hl, executeAndComplete, execute_command hd, ht]

/-- The completion of a word whose execution is fault entry. -/
theorem step_of_fault {s : State} {w : Word} {c : FaultCode} (hc : s.cur = some w) (hl : s.left = 0)
    (hx : execute w s = .next (takeFault c s)) : step s = .next (complete (takeFault c s)) := by
  rw [step_completes hc hl, executeAndComplete, hx]

/-- Fault entry with the word `w` in the latch (60_exceptions.md R221, R226). -/
theorem takeFault_of_cur {s : State} {w : Word} (c : FaultCode) (hc : s.cur = some w) :
    takeFault c s = if s.fault then s else { s with fault := true, fcode := c.code, faultcmd := w } := by
  rw [takeFault, hc]; rfl

/-- Fault entry at the completion of the word `w`: with a fault recorded it leaves the latch alone empty, with none it
records `w` (60_exceptions.md R221, R226). -/
theorem complete_takeFault {s : State} {w : Word} (c : FaultCode) (hc : s.cur = some w) :
    complete (takeFault c s) = if s.fault then { s with cur := none, left := 0 }
      else { s with fault := true, fcode := c.code, faultcmd := w, cur := none, left := 0 } := by
  rw [takeFault_of_cur c hc, apply_ite complete]; rfl

/-- Settles O5: the two clauses are the completion of a command word, the second with the word `withFetchWord` puts in
the latch. -/
theorem stepRunsDecodedCommand : Obligations.StepRunsDecodedCommand := by
  refine ⟨fun s w i hc hl hd => step_of_command hc hl hd, fun s nbits w i hd => ?_⟩
  have hdecode : decode (tableWord nbits w) = .command i := by
    unfold decodeTableWord at hd
    split at hd
    · next hj => rw [hj, Option.some.inj hd]
    · cases hd
    · cases hd
  exact step_of_command (s.withFetchWord_cur nbits w) (s.withFetchWord_left nbits w) hdecode

/-- Settles O6: an illegal word's execution is fault entry with the code of its kind. -/
theorem illegalWordsFault : Obligations.IllegalWordsFault := by
  refine fun s w hc hl => ⟨fun hd => ?_, fun hd => ?_⟩
  · rw [step_of_fault hc hl (execute_illegalOp hd s), complete_takeFault _ hc]; rfl
  · rw [step_of_fault hc hl (execute_illegalField hd s), complete_takeFault _ hc]; rfl

/-- Settles O11: the reset event is the event of that cycle, and it forgets the latch and its cycles. -/
theorem resetEventAbandonsCommand : Obligations.ResetEventAbandonsCommand := fun s rest ht =>
  step_event (s := { s with host := .reset :: rest }) ht rfl

end Sys2Proof.Machine
end

section
/-! PROOFS. The host register window: reads and writes idle and in flight, and the accesses that get no step
(20_memory.md R60–R65, 60_exceptions.md R227). -/

namespace Sys2Proof.Machine

/-! ### The STATUS word (10_state.md R46) -/

/-- STATUS as a number: BUSY has the weight 1, FAULT the weight 2, FCODE stands at bit 8. -/
theorem toNat_statusWord (s : State) :
    s.statusWord.toNat = (if s.busy then 1 else 0) + (if s.fault then 2 else 0) + 2 ^ 8 * s.fcode.toNat := by
  have fields : ∀ (code : BitVec 4) (fault busy : Bool),
      ((0 : BitVec 20) ++ code ++ (0 : BitVec 6) ++ BitVec.ofBool fault ++ BitVec.ofBool busy).toNat =
        (if busy then 1 else 0) + (if fault then 2 else 0) + 2 ^ 8 * code.toNat := by decide
  exact fields s.fcode s.fault s.busy

/-- STATUS bit 0 is BUSY. -/
theorem statusWord_bit_zero (s : State) : s.statusWord.getLsbD 0 = s.busy := by
  have fields : ∀ (code : BitVec 4) (fault busy : Bool),
      ((0 : BitVec 20) ++ code ++ (0 : BitVec 6) ++ BitVec.ofBool fault ++ BitVec.ofBool busy).getLsbD 0 = busy := by
    decide
  exact fields s.fcode s.fault s.busy

/-! ### Accesses to a unit with a command in flight -/

section

variable {s : State} {w : Word} {k off : Nat}

theorem takesEvent_in_flight (hl : s.left = k + 1) : s.takesEvent := .inr (by omega)

/-- A unit in flight takes an event and counts a cycle. -/
theorem afterEvent_in_flight (rest : List HostEvent) (hc : s.cur = some w) (hl : s.left = k + 1) :
    s.afterEvent rest = { s with host := rest, left := k } := by
  have hne : s.cur ≠ none := by rw [hc]; nofun
  rw [State.afterEvent, if_neg hne, hl]
  rfl

theorem busy_in_flight (hc : s.cur = some w) : s.busy = true := by rw [State.busy, hc]; rfl

/-- A read in flight of a register that stays readable (20_memory.md R65). -/
theorem readGives_in_flight (rest : List HostEvent) (hc : s.cur = some w) (hl : s.left = k + 1)
    (hoff : legalOffset off) (hreg : (busReg off).hiddenWhileBusy = false) :
    s.readGives off rest
      { s with host := rest, left := k, rdata := readReg { s with host := rest, left := k } (busReg off) } := by
  have hread := readGives_busRead rest (takesEvent_in_flight hl) hoff
  rwa [afterEvent_in_flight rest hc hl, busRead_specified (.inr hreg)] at hread

/-- A read in flight of a register whose value is unspecified then (20_memory.md R65). -/
theorem readGives_hidden (rest : List HostEvent) (hc : s.cur = some w) (hl : s.left = k + 1)
    (hoff : legalOffset off) (hreg : (busReg off).hiddenWhileBusy = true) :
    s.readGives off rest
      { s with host := rest, left := k, rdata := Config.busyRead off s.draws, draws := s.draws + 1 } := by
  have hread := readGives_busRead rest (takesEvent_in_flight hl) hoff
  have hbusy : State.busy { s with host := rest, left := k } = true := busy_in_flight hc
  rwa [afterEvent_in_flight rest hc hl, busRead_unspecified hbusy hreg] at hread

/-- The registers whose reads in flight are unspecified, by offset (20_memory.md R61, R65). -/
theorem hiddenWhileBusy_of_offset (hoff : legalOffset off) (h : off = 0x008 ∨ off = 0x010 ∨ 0x040 ≤ off ∧ off ≤ 0x088) :
    (busReg off).hiddenWhileBusy = true := by
  obtain ⟨-, halign⟩ := hoff
  unfold busReg
  split_ifs
  · omega
  · omega
  · rfl
  · omega
  · rfl
  · rfl
  · rfl
  · rfl
  · omega

end

/-! ### Accesses that get no step -/

/-- An access to the window that is not an aligned 32-bit one (20_memory.md R62). -/
theorem access_outside_contract {off width : Nat} (t : State) (hoff : off < 256) (h : width ≠ 4 ∨ off % 4 ≠ 0) :
    access off width t = .refused .accessOutsideContract := by
  have hbad : ¬(width = 4 ∧ off % 4 = 0) := by omega
  rw [access, if_neg (by omega), if_neg hbad]

/-- An access at an offset the unit does not have (20_memory.md R60). -/
theorem access_outside_window {off : Nat} (width : Nat) (t : State) (hoff : 256 ≤ off) :
    access off width t = .fault .outsideWindow := by rw [access, if_pos hoff]

/-- An address lies in the window exactly at an offset below 256 from its base. -/
theorem windowOffset_eq_some_iff {base addr off : Nat} :
    windowOffset base addr = some off ↔ addr = base + off ∧ off < 256 := by
  unfold windowOffset
  split
  · rw [Option.some.injEq]; omega
  · simp only [reduceCtorEq, false_iff]; omega

/-! ### The obligations -/

/-- Settles O48: a read of an idle unit returns the register at its offset. -/
theorem readsReturnRegisters : Obligations.ReadsReturnRegisters := by
  intro s rest hc
  have reads : ∀ off, legalOffset off →
      s.readGives off rest { s with host := rest, rdata := readReg s (busReg off) } :=
    fun _ => readGives_of_idle rest hc
  refine ⟨reads 0x000 (by decide), ⟨s.statusWord, reads 0x004 (by decide), ?_⟩, reads 0x008 (by decide),
    reads 0x00C (by decide), reads 0x010 (by decide), fun j => ?_, fun i => ?_, reads 0x088 (by decide)⟩
  · rw [toNat_statusWord, busy_of_idle hc]
    simp
  · have hread := reads (0x040 + 4 * j.val) ⟨by omega, by omega⟩
    rwa [busReg_bufw] at hread
  · have hread := reads (0x060 + 4 * i.val) ⟨by omega, by omega⟩
    rwa [busReg_limb] at hread

/-- Settles O49: STATUS, CMD and CTRL stay readable in flight, and each other register named is hidden. -/
theorem busyReads : Obligations.BusyReads := by
  intro s w k off rest hc hl hoff
  refine ⟨?status, ?zero, fun h => readGives_hidden rest hc hl hoff (hiddenWhileBusy_of_offset hoff h)⟩
  case status =>
    rintro rfl
    refine ⟨_, readGives_in_flight rest hc hl hoff rfl, ?_⟩
    change (State.statusWord { s with host := rest, left := k }).toNat = _
    have hbusy : State.busy { s with host := rest, left := k } = true := busy_in_flight hc
    rw [toNat_statusWord, if_pos hbusy]
  case zero => rintro (rfl | rfl) <;> exact readGives_in_flight rest hc hl hoff rfl

/-- The bits of META that a write of META stores (10_state.md R44). -/
theorem getLsbD_metaMask (v : Word) (i : Fin 32) :
    (v &&& 0x13F).getLsbD i = (v.getLsbD i && decide (i.val < 6 ∨ i.val = 8)) := by
  have mask : ∀ i : Fin 32, (0x13F : Word).getLsbD i = decide (i.val < 6 ∨ i.val = 8) := by decide
  rw [BitVec.getLsbD_and, mask]

/-- Settles O51: a write to an idle unit reaches its register. -/
theorem idleWrites : Obligations.IdleWrites := by
  intro s v rest hc
  refine ⟨fun hfault => ⟨_, ?_, rfl, ?cmd⟩, fun j => ?bufw, fun i => ?limb, _, ?metaw, getLsbD_metaMask v⟩
  · exact Nat.le_add_right 1 _
  case cmd =>
    have hwrite := writeGives_of_idle (off := 0x000) (r := .cmd) v rest hc (by decide) rfl
    rwa [writeReg, if_neg (ne_true_of_eq_false hfault)] at hwrite
  case bufw => exact writeGives_of_idle v rest hc ⟨by omega, by omega⟩ (busReg_bufw j)
  case limb => exact writeGives_of_idle v rest hc ⟨by omega, by omega⟩ (busReg_limb i)
  case metaw => exact writeGives_of_idle (r := .metaw) v rest hc (by decide) rfl

/-- Settles O54: a write to a locked register in flight is an overrun, and fault entry changes nothing else. -/
theorem overrunIsDropped : Obligations.OverrunIsDropped := by
  intro s w v k off rest hc hl hoff
  have hbusy : State.busy { s with host := rest, left := k } = true := busy_in_flight hc
  have hwrite := writeGives_busWrite v rest (takesEvent_in_flight hl) hoff.1
  rw [afterEvent_in_flight rest hc hl, busWrite_overrun v hbusy (lockedWhileBusy_of_locked hoff),
    takeFault_of_cur (s := { s with host := rest, left := k }) _ hc] at hwrite
  exact hwrite

/-- Settles O55: the window by the cases of what the unit sees; an access outside the contract gets no step. -/
theorem windowContract : Obligations.WindowContract := by
  refine ⟨Nat.mul_mod_right 256 _, fun _ _ _ => windowOffset_eq_some_iff, fun _ _ _ => rfl,
    fun base addr width mk => ⟨?inside, ?across, ?beside⟩, fun s off width v rest ht => ⟨?contract, ?beyond, ?_, ?_⟩⟩
  case inside =>
    intro off hoff haddr
    rw [windowEvent, windowOffset_eq_some_iff.2 ⟨haddr, hoff⟩]
  case across =>
    intro hlow hhigh
    obtain ⟨off, hoff, haddr, -⟩ | ⟨-, -, hseen⟩ | ⟨hout, -⟩ := windowEvent_cases base addr width mk
    · omega
    · exact hseen
    · omega
  case beside =>
    intro hout
    obtain ⟨off, hoff, haddr, -⟩ | ⟨hlow, hhigh, -⟩ | ⟨-, hseen⟩ := windowEvent_cases base addr width mk
    · omega
    · omega
    · exact hseen
  case contract =>
    intro hoff h
    exact ⟨(step_event (s := { s with host := .read off width :: rest }) ht rfl).trans
        (access_outside_contract _ hoff h),
      (step_event (s := { s with host := .write off width v :: rest }) ht rfl).trans
        (access_outside_contract _ hoff h)⟩
  case beyond =>
    intro hoff
    exact ⟨(step_event (s := { s with host := .read off width :: rest }) ht rfl).trans
        (access_outside_window _ _ hoff),
      (step_event (s := { s with host := .write off width v :: rest }) ht rfl).trans
        (access_outside_window _ _ hoff)⟩
  · exact step_event (s := { s with host := .accessFromBelow :: rest }) ht rfl
  · exact step_event (s := { s with host := .accessInReset :: rest }) ht rfl

end Sys2Proof.Machine
end

section
/-! PROOFS. Normalization and serialization: NORM, NORMW, NORMV, NTZ, NTZV, SETB32, GETB32 (40_normalize.md,
41_serialization.md). -/

namespace Sys2Proof.Machine

/-! ### The words RESULT takes -/

/-- A Boolean result as the number 0 or 1 (10_state.md R45). -/
theorem boolWord_decide (p : Prop) [Decidable p] : boolWord (decide p) = if p then 1 else 0 := by
  by_cases h : p <;> simp [boolWord, h]

/-! ### The records normalization writes -/

/-- Limbs within 26 bits whose value is below p make a canonical record of magnitude 1 and keep their value
(10_state.md R32). -/
theorem canonical_ofLimbs {l : List Nat} (hl : l.length = 10) (hb : ∀ i < 9, lim l i ≤ M26)
    (hv : val l < prime) : (FieldRec.ofLimbs l 1 true).canonical ∧ (FieldRec.ofLimbs l 1 true).limbs = l := by
  have h := canonical_slice26 hv
  rw [slice26_val hl hb] at h
  exact ⟨h.1, h.2.1⟩

/-- NORM's record is the canonical one of the operand's field value (40_normalize.md R103). -/
theorem canonical_normLimbs {a : FieldRec} (h : verify a = true) :
    (FieldRec.ofLimbs (normLimbs a.limbs) 1 true).canonical ∧
      (FieldRec.ofLimbs (normLimbs a.limbs) 1 true).val = a.fv := by
  obtain ⟨hlen, hle, -, hval⟩ := normLimbs_spec (length_limbs a) (limbsBounded_of_verify h)
  have hlt : val (normLimbs a.limbs) < prime := hval ▸ Nat.mod_lt _ prime_pos
  obtain ⟨hcanonical, hlimbs⟩ := canonical_ofLimbs hlen hle hlt
  exact ⟨hcanonical, by rw [FieldRec.val, hlimbs, hval]; rfl⟩

/-- NORM and NORMV write the same record for an operand that satisfies `Verify` (40_normalize.md R105). -/
theorem normvLimbs_of_verify {a : FieldRec} (h : verify a = true) : normvLimbs a.limbs = normLimbs a.limbs :=
  normvLimbs_eq (limbsBounded_of_verify h)

/-- The fold changes nothing of limbs within their widths (40_normalize.md R104). -/
theorem weakFold_eq_self {l : List Nat} (hl : l.length = 10) (hb : ∀ i < 9, lim l i ≤ M26) (h9 : lim l 9 ≤ M22) :
    weakFold l = l := by
  have hlen := length_weakFold l
  have hcarry : lim l 9 >>> 22 = 0 := by
    rw [Nat.shiftRight_eq_div_pow, Nat.div_eq_of_lt (by simp only [M22] at h9; omega)]
  have hval := val_weakFold_add hl
  rw [hcarry, Nat.zero_mul, Nat.add_zero] at hval
  exact eq_of_val_eq hlen hl (lim_weakFold_le l) hb hval

/-- NORMW's record keeps its limbs, and satisfies `Verify` with the operand's normalized flag (40_normalize.md R104). -/
theorem verify_weakFold {a : FieldRec} (h : verify a = true) :
    verify (.ofLimbs (weakFold a.limbs) 1 a.norm) = true ∧
      (FieldRec.ofLimbs (weakFold a.limbs) 1 a.norm).limbs = weakFold a.limbs := by
  have hlen := length_weakFold a.limbs
  cases hn : a.norm with
  | true =>
    obtain ⟨hle, htop, hlt⟩ := canonical_of_norm h hn
    rw [weakFold_eq_self (length_limbs a) hle htop]
    obtain ⟨hcanonical, hlimbs⟩ := canonical_ofLimbs (length_limbs a) hle hlt
    exact ⟨verify_of_canonical hcanonical, hlimbs⟩
  | false =>
    refine verify_of_bounds hlen (by norm_num) (fun i hi => (lim_weakFold_le _ i hi).trans ?_)
      ((lim_weakFold_top (limbsBounded_of_verify h)).trans (by decide))
    exact Nat.le_mul_of_pos_right _ (by norm_num)

/-! ### The obligations on normalization -/

/-- Settles O12. -/
theorem normGivesCanonical : Obligations.NormGivesCanonical := fun _ _ _ h =>
  ⟨_, exec_of_ruleWrites ⟨h, rfl⟩, canonical_normLimbs h.2⟩

/-- NORMV and NORM read the same operand, and write the same limbs when it answers (40_normalize.md R105). -/
theorem exec_normv (rd ra : FieldIx) (s : State) : exec (.normv rd ra) s = exec (.norm rd ra) s := by
  rcases readF_cases s ra with ⟨hr, he⟩ | ⟨e, -, he⟩
  · simp only [exec, execNormv, execNorm, he, ok_bind, normvLimbs_of_verify hr.2]
  · simp only [exec, execNormv, execNorm, he, error_bind]

/-- Settles O13. -/
theorem normvAgreesWithNorm : Obligations.NormvAgreesWithNorm := by
  refine fun rd ra s => ⟨exec_normv rd ra s, fun h => ?_⟩
  rw [exec_normv]
  exact normGivesCanonical rd ra s h

/-- Settles O14: the fold takes off a multiple of p, and leaves limbs within their widths as they are. -/
theorem normwFoldsWeakly : Obligations.NormwFoldsWeakly := by
  intro rd ra s h
  obtain ⟨hverify, hlimbs⟩ := verify_weakFold h.2
  refine ⟨_, exec_of_ruleWrites ⟨h, rfl⟩, hlimbs, rfl, rfl, ?fv, ?val, hverify, fun hn => ?_⟩
  case fv => rw [FieldRec.fv, hlimbs, fv_weakFold (length_limbs _)]; rfl
  case val => rw [FieldRec.val, hlimbs]; exact val_weakFold_lt (limbsBounded_of_verify h.2)
  · obtain ⟨hle, htop, -⟩ := canonical_of_norm h.2 hn
    change toLimbs (weakFold s.freg[ra].limbs) = _
    rw [weakFold_eq_self (length_limbs _) hle htop, toLimbs_limbs]

/-- Settles O15: both tests say whether the field value is 0. -/
theorem zeroTestsAgreeWithValue : Obligations.ZeroTestsAgreeWithValue := by
  intro ra s h
  have hbounded := limbsBounded_of_verify h.2
  have htest : boolWord (ntzLimbs s.freg[ra].limbs) = if s.freg[ra].fv = 0 then 1 else 0 := by
    rw [ntzLimbs_eq (length_limbs _) hbounded, boolWord_decide]; rfl
  constructor
  · rw [← htest]
    exact exec_of_ruleWrites ⟨h, rfl⟩
  · rw [← htest, ← ntzvLimbs_eq (length_limbs _) hbounded]
    exact exec_of_ruleWrites ⟨h, rfl⟩

/-! ### The obligations on serialization -/

/-- Settles O16: the slices of BUF's value are the limbs, loaded or rejected. -/
theorem setbLoadsOrRejects : Obligations.SetbLoadsOrRejects := by
  refine fun rd s => ⟨fun hlt => ?_, fun hge => ?_⟩
  · obtain ⟨hcanonical, -, hval⟩ := canonical_slice26 hlt
    exact ⟨_, exec_setb32_accepts rd hlt, hcanonical, hval⟩
  · refine ⟨_, exec_setb32_rejects rd hge, ?_⟩
    rw [nats_toLimbs_slice26 (bval_lt _)]
    exact ⟨slice26_le _, slice26_top _ (bval_lt _), val_slice26 _⟩

/-- Settles O18: the buffer written holds the operand's value, and so its bytes are those of the value. -/
theorem getbWritesEncoding : Obligations.GetbWritesEncoding := by
  intro ra s hr hn
  obtain ⟨hle, htop, -⟩ := canonical_of_norm hr.2 hn
  have hval : bval (toWire s.freg[ra].val) = s.freg[ra].val :=
    bval_toWire (val_lt_of_bounds (length_limbs _) hle htop)
  exact ⟨_, exec_getb32_writes hr hn, hval, fun k => by rw [bufByte_eq, hval]; rfl⟩

end Sys2Proof.Machine
end

section
/-! PROOFS. Linear operators and constructors: ADD, NEG, MULINT, CMOV, MOV, SETINT, CLEAR, and the expansion of SUB
(42_linear.md, 30_encoding.md R89). -/

namespace Sys2Proof.Machine

/-! ### A register after a write -/

theorem readable_writeF_same {s : State} {i : FieldIx} {r : FieldRec} (h : verify r = true) : (s.writeF i r).readable i := by
  rw [State.readable, State.writeF_freg_get, if_pos rfl]
  exact ⟨rfl, h⟩

theorem toFieldRec_writeF_same (s : State) (i : FieldIx) (r : FieldRec) :
    (s.writeF i r).freg[i].toFieldRec = r := by
  rw [State.writeF_freg_get, if_pos rfl]

/-- The later of two writes to a register stands. -/
theorem writeF_writeF (s : State) (i : FieldIx) (r r' : FieldRec) : (s.writeF i r).writeF i r' = s.writeF i r' := by
  simp [State.writeF]

/-! ### The records the linear operators write -/

/-- ADD's record satisfies `Verify` and keeps its limbs (42_linear.md R130). -/
theorem verify_addLimbs {a b : FieldRec} (ha : verify a = true) (hb : verify b = true) (hm : a.mag + b.mag ≤ 32) :
    verify (.ofLimbs (addLimbs a.limbs b.limbs) (a.mag + b.mag) false) = true ∧
      (FieldRec.ofLimbs (addLimbs a.limbs b.limbs) (a.mag + b.mag) false).limbs = addLimbs a.limbs b.limbs := by
  obtain ⟨-, hale, hatop⟩ := verify_bounds ha
  obtain ⟨-, hble, hbtop⟩ := verify_bounds hb
  have hla := length_limbs a
  have hlb := length_limbs b
  refine verify_of_bounds (length_addLimbs hla hlb) hm (fun i hi => ?_) ?_
  · rw [lim_addLimbs hla hlb (by omega), Nat.mul_add, Nat.mul_add]
    exact Nat.add_le_add (hale i hi) (hble i hi)
  · rw [lim_addLimbs hla hlb (by norm_num), Nat.mul_add, Nat.mul_add]
    exact Nat.add_le_add hatop hbtop

/-- The limbs of an operand of magnitude at most `m` are within 2m times their nominal bound. -/
theorem bounds_of_mag_le {a : FieldRec} {m : Nat} (h : verify a = true) (hle : a.mag ≤ m) :
    (∀ i < 9, lim a.limbs i ≤ M26 * (2 * m)) ∧ lim a.limbs 9 ≤ M22 * (2 * m) := by
  obtain ⟨-, hb, htop⟩ := verify_bounds h
  have hm : 2 * a.mag ≤ 2 * m := by omega
  exact ⟨fun i hi => (hb i hi).trans (Nat.mul_le_mul_left _ hm), htop.trans (Nat.mul_le_mul_left _ hm)⟩

theorem lim_pLimb_le : (∀ i < 9, lim pLimb i ≤ M26) ∧ lim pLimb 9 ≤ M22 := by decide

/-- NEG's record satisfies `Verify` and keeps its limbs (42_linear.md R131). -/
theorem verify_negLimbs {a : FieldRec} {m : Nat} (h : verify a = true) (hm : m ≤ 31) (hle : a.mag ≤ m) :
    verify (.ofLimbs (negLimbs m a.limbs) (m + 1) false) = true ∧
      (FieldRec.ofLimbs (negLimbs m a.limbs) (m + 1) false).limbs = negLimbs m a.limbs := by
  obtain ⟨hb, htop⟩ := bounds_of_mag_le h hle
  have hsum := fun i hi => lim_negLimbs_add hm (length_limbs a) hb htop (i := i) hi
  refine verify_of_bounds (length_negLimbs m (length_limbs a)) (by omega) (fun i hi => ?_) ?_
  · calc lim (negLimbs m a.limbs) i ≤ 2 * (m + 1) * lim pLimb i := by have := hsum i (by omega); omega
      _ ≤ 2 * (m + 1) * M26 := Nat.mul_le_mul_left _ (lim_pLimb_le.1 i hi)
      _ = M26 * (2 * (m + 1)) := Nat.mul_comm _ _
  · calc lim (negLimbs m a.limbs) 9 ≤ 2 * (m + 1) * lim pLimb 9 := by have := hsum 9 (by omega); omega
      _ ≤ 2 * (m + 1) * M22 := Nat.mul_le_mul_left _ lim_pLimb_le.2
      _ = M22 * (2 * (m + 1)) := Nat.mul_comm _ _

/-- The value of NEG's record and the operand's are a multiple of p together (42_linear.md R131). -/
theorem val_negLimbs {a : FieldRec} {m : Nat} (h : verify a = true) (hm : m ≤ 31) (hle : a.mag ≤ m) :
    (FieldRec.ofLimbs (negLimbs m a.limbs) (m + 1) false).val + a.val = 2 * (m + 1) * prime := by
  obtain ⟨hb, htop⟩ := bounds_of_mag_le h hle
  rw [FieldRec.val, (verify_negLimbs h hm hle).2]
  exact val_negLimbs_add hm (length_limbs a) hb htop

/-- MULINT's record satisfies `Verify` and keeps its limbs (42_linear.md R132). -/
theorem verify_scaleLimbs {a : FieldRec} {k : Nat} (h : verify a = true) (hm : k * a.mag ≤ 32) :
    verify (.ofLimbs (scaleLimbs k a.limbs) (a.mag * k) false) = true ∧
      (FieldRec.ofLimbs (scaleLimbs k a.limbs) (a.mag * k) false).limbs = scaleLimbs k a.limbs := by
  obtain ⟨-, hb, htop⟩ := verify_bounds h
  have hl := length_limbs a
  refine verify_of_bounds (length_scaleLimbs k hl) (by rwa [Nat.mul_comm]) (fun i hi => ?_) ?_
  · rw [lim_scaleLimbs k hl (by omega), ← Nat.mul_assoc 2, ← Nat.mul_assoc M26]
    exact Nat.mul_le_mul_right k (hb i hi)
  · rw [lim_scaleLimbs k hl (by norm_num), ← Nat.mul_assoc 2, ← Nat.mul_assoc M22]
    exact Nat.mul_le_mul_right k htop

/-- SETINT's record is canonical and keeps its limbs (42_linear.md R135). -/
theorem canonical_setint (imm : BitVec 12) :
    (FieldRec.ofLimbs [imm.toNat, 0, 0, 0, 0, 0, 0, 0, 0, 0] 1 true).canonical ∧
      (FieldRec.ofLimbs [imm.toNat, 0, 0, 0, 0, 0, 0, 0, 0, 0] 1 true).limbs =
        [imm.toNat, 0, 0, 0, 0, 0, 0, 0, 0, 0] := by
  have hlt := imm.isLt
  refine canonical_ofLimbs rfl (fun i hi => ?_) ?_
  · rcases Nat.eq_zero_or_pos i with rfl | hpos
    · change imm.toNat ≤ M26; simp only [M26]; omega
    · interval_cases i <;> exact Nat.zero_le _
  · have hval : val [imm.toNat, 0, 0, 0, 0, 0, 0, 0, 0, 0] = imm.toNat := by simp [val]
    rw [hval, prime_eq]; omega

/-! ### The obligations -/

/-- Settles O21. -/
theorem addAddsLimbs : Obligations.AddAddsLimbs := by
  intro rd ra rb s ha hb hm
  obtain ⟨hverify, hlimbs⟩ := verify_addLimbs ha.2 hb.2 hm
  refine ⟨_, exec_of_ruleWrites ⟨⟨ha, hb, hm⟩, rfl⟩, fun i hi => ?_, rfl, rfl, ?_, hverify⟩
  · rw [hlimbs, lim_addLimbs (length_limbs _) (length_limbs _) hi]
  · rw [FieldRec.val, hlimbs, val_addLimbs (length_limbs _) (length_limbs _)]; rfl

/-- Settles O22. -/
theorem negSubtractsFromMultipleOfPrime : Obligations.NegSubtractsFromMultipleOfPrime := by
  intro rd ra m s hm h hle
  obtain ⟨hb, htop⟩ := bounds_of_mag_le h.2 hle
  obtain ⟨hverify, hlimbs⟩ := verify_negLimbs h.2 hm hle
  refine ⟨_, exec_of_ruleWrites ⟨⟨hm, h, hle⟩, rfl⟩, fun i hi => ?_, rfl, rfl, val_negLimbs h.2 hm hle, hverify⟩
  rw [hlimbs]
  exact lim_negLimbs_add hm (length_limbs _) hb htop hi

/-- Settles O23. -/
theorem mulintScalesLimbs : Obligations.MulintScalesLimbs := by
  intro rd ra a s ha h hm
  obtain ⟨hverify, hlimbs⟩ := verify_scaleLimbs h.2 hm
  refine ⟨_, exec_of_ruleWrites ⟨⟨ha, h, hm⟩, rfl⟩, fun i hi => ?_, rfl, rfl, ?_, hverify⟩
  · rw [hlimbs, lim_scaleLimbs _ (length_limbs _) hi]
  · rw [FieldRec.val, hlimbs, val_scaleLimbs]; rfl

/-- Settles O24: CMOV writes back the record of `rd` when the flag is 0. -/
theorem copiesMoveWholeRecord : Obligations.CopiesMoveWholeRecord := by
  refine fun rd ra s h => ⟨exec_of_ruleWrites ⟨h, rfl⟩, fun hd => ⟨exec_of_ruleWrites ⟨⟨?_, hd, h⟩, rfl⟩, ?_⟩⟩
  · decide
  · exact exec_of_ruleWrites ⟨⟨by decide, hd, h⟩, (s.writeF_self rd hd.1).symm⟩

/-- Settles O25. -/
theorem constructorsWriteConstants : Obligations.ConstructorsWriteConstants := fun _ imm _ =>
  ⟨⟨_, exec_of_ruleWrites rfl, (canonical_setint imm).2, rfl, rfl⟩, exec_of_ruleWrites rfl⟩

/-- NEG of `fb` into `fd` and then ADD of `fa` and `fd` (30_encoding.md R89): the record the two leave in `fd`, whose
value and that of `fb` are the value of `fa` and a multiple of p. -/
theorem exec_neg_add {fd fa fb : FieldIx} {m : BitVec 12} {s : State} (hm : m.toNat ≤ 31) (hne : fd ≠ fa)
    (ha : s.readable fa) (hb : s.readable fb) (hle : s.freg[fb].mag ≤ m.toNat)
    (hmag : s.freg[fa].mag + m.toNat + 1 ≤ 32) :
    ∃ (t : State) (r : FieldRec), exec (.neg fd fb m) s = .next t ∧ exec (.add fd fa fd) t = .next (s.writeF fd r) ∧
      r.val + s.freg[fb].val = s.freg[fa].val + 2 * (m.toNat + 1) * prime ∧
      r.mag = s.freg[fa].mag + m.toNat + 1 ∧ verify r = true := by
  obtain ⟨n, hneg, -, hnmag, -, hnval, hnverify⟩ := negSubtractsFromMultipleOfPrime fd fb m s hm hb hle
  have hfa : (s.writeF fd n).freg[fa] = s.freg[fa] := freg_writeF_ne s n hne
  have hfd : (s.writeF fd n).freg[fd].toFieldRec = n := toFieldRec_writeF_same s fd n
  have ha' : (s.writeF fd n).readable fa := by rw [State.readable, hfa]; exact ha
  obtain ⟨r, hadd, -, hrmag, -, hrval, hrverify⟩ := addAddsLimbs fd fa fd (s.writeF fd n) ha'
    (readable_writeF_same hnverify) (by rw [hfa, hfd, hnmag]; omega)
  rw [hfa, hfd] at hrmag hrval
  refine ⟨s.writeF fd n, r, hneg, ?_, by rw [hrval, ← hnval, Nat.add_assoc], by rw [hrmag, hnmag, Nat.add_assoc], hrverify⟩
  rw [hadd, ← writeF_writeF s fd n r]
  rfl

/-- Settles O26: modulo p the multiple of p in the value falls away. -/
theorem subExpansionSubtracts : Obligations.SubExpansionSubtracts := by
  intro fd fa fb m s hm hne ha hb hle hmag
  obtain ⟨t, r, hneg, hadd, hval, hrmag, hverify⟩ := exec_neg_add hm hne ha hb hle hmag
  refine ⟨t, r, hneg, hadd, ?_, hrmag, hverify⟩
  calc (r.fv + s.freg[fb].fv) % prime = (r.val + s.freg[fb].val) % prime := (Nat.add_mod _ _ _).symm
    _ = (s.freg[fa].val + 2 * (m.toNat + 1) * prime) % prime := by rw [hval]
    _ = s.freg[fa].fv := Nat.add_mul_mod_self_right _ _ _

end Sys2Proof.Machine
end

section
/-! PROOFS. Multiplication: MUL, SQR, the 64-bit datapath, the bounds and the symmetry of `MulCore` (43_multiply.md,
44_chains.md R170). -/

namespace Sys2Proof.Machine

/-! ### The commands MUL and SQR -/

/-- A factor's limbs are within 16 times their nominal bound (43_multiply.md R155). -/
theorem factorBounded_of_factor {s : State} {i : FieldIx} (h : s.factor i) : factorBounded s.freg[i].limbs := by
  obtain ⟨⟨-, hverify⟩, hmag⟩ := h
  exact factorBounded_of_verify hverify hmag

/-- SQR makes one read and one magnitude check where MUL makes two of the same register (43_multiply.md R154). -/
theorem exec_sqr (rd ra : FieldIx) (s : State) : exec (.sqr rd ra) s = exec (.mul rd ra ra) s := by
  rcases readF_cases s ra with ⟨-, he⟩ | ⟨e, -, he⟩
  · simp only [exec, execSqr, execMul, readFactor, he, ok_bind, Bool.and_self]
    rcases require_cases (s.freg[ra].mag ≤ 8) .magnitude with ⟨-, hq⟩ | hq <;> rw [hq] <;> rfl
  · simp only [exec, execSqr, execMul, readFactor, he, error_bind]

/-! ### The 64-bit datapath (R155) -/

/-- An accumulator of 64 bits holds a value below 2^64 as it is. -/
abbrev trunc64 (v : Nat) : Nat := v % 2 ^ 64

theorem trunc64_of_lt {v : Nat} (h : v < 2 ^ 64) : trunc64 v = v := Nat.mod_eq_of_lt h

/-- Every column of two factors is at most the largest of them, column 8 (R155). -/
theorem column_le_max {a b : List Nat} (ha : factorBounded a) (hb : factorBounded b) {x : Nat} (hx : x ≤ 18) :
    column a b x ≤ 10376293232223979776 := by
  have h := column_le ha hb
  interval_cases x <;> omega

/-- Between two steps both accumulators are far below their width: each was just shifted right by 26 bits. -/
abbrev MulAcc.small (s : MulAcc) : Prop := s.c < 2 ^ 40 ∧ s.d < 2 ^ 40

/-- A step of the 64-bit datapath from small accumulators truncates nothing, and leaves them small (R155). -/
theorem mulStep_trunc64 {a b : List Nat} (ha : factorBounded a) (hb : factorBounded b) {s : MulAcc} (hs : s.small)
    {k : Nat} (hk : k ≤ 8) :
    mulStep trunc64 a b s k = mulStep (fun v => v) a b s k ∧ (mulStep (fun v => v) a b s k).small := by
  have hp := column_le_max ha hb (x := k) (by omega)
  have hq := column_le_max ha hb (x := k + 10) (by omega)
  obtain ⟨hc, hd⟩ := hs
  simp only [mulStep, MulAcc.small, and_M26, Nat.shiftRight_eq_div_pow, foldR0, foldR1]
  constructor
  · simp (disch := omega) only [trunc64_of_lt]
  · omega

/-- Steps of the 64-bit datapath, one after the other. -/
theorem foldl_mulStep_trunc64 {a b : List Nat} (ha : factorBounded a) (hb : factorBounded b) (ks : List Nat)
    (hks : ∀ k ∈ ks, k ≤ 8) {s : MulAcc} (hs : s.small) :
    ks.foldl (mulStep trunc64 a b) s = ks.foldl (mulStep (fun v => v) a b) s ∧
      (ks.foldl (mulStep (fun v => v) a b) s).small := by
  induction ks generalizing s with
  | nil => exact ⟨rfl, hs⟩
  | cons k ks ih =>
    obtain ⟨heq, hsmall⟩ := mulStep_trunc64 ha hb hs (hks k (by simp))
    rw [List.foldl_cons, List.foldl_cons, heq]
    exact ih (fun k' hk' => hks k' (by simp [hk'])) hsmall

/-- The loop of the 64-bit datapath truncates nothing. -/
theorem mulLoop_trunc64 {a b : List Nat} (ha : factorBounded a) (hb : factorBounded b) :
    mulLoop trunc64 a b = mulLoop (fun v => v) a b ∧ (mulLoop (fun v => v) a b).small := by
  have hp := column_le_max ha hb (x := 9) (by norm_num)
  have hstart : MulAcc.small { c := 0, d := column a b 9 / 2 ^ 26, ts := [] } := ⟨by norm_num, by dsimp only; omega⟩
  simp only [mulLoop, Nat.shiftRight_eq_div_pow]
  simp (disch := omega) only [trunc64_of_lt]
  exact foldl_mulStep_trunc64 ha hb _ (by decide) hstart

/-- The limbs that leave the loop are within 26 bits (R152). -/
theorem lim_mulLoop_le (a b : List Nat) {i : Nat} (hi : i < 8) : lim (mulLoop (fun v => v) a b).ts i ≤ M26 := by
  obtain ⟨t0, t1, t2, t3, t4, t5, t6, t7, -, -, -, -, -, -, -, -, hts, -, ⟨b0, b1, b2, b3, b4, b5, b6, b7⟩, -⟩ :=
    mulLoop_spec a b
  rw [hts]
  interval_cases i <;> assumption

/-- The tail of the 64-bit datapath truncates nothing: the last shifts leave `c` below 2^53 (R155). -/
theorem mulTail_trunc64 {p8 p18 t9 : Nat} {s : MulAcc} (hs : s.small) (h8 : p8 ≤ 10376293232223979776)
    (h18 : p18 ≤ 10376293232223979776) (h9 : t9 ≤ M26) (hts : ∀ i < 8, lim s.ts i ≤ M26) :
    mulTail trunc64 p8 p18 t9 s = mulTail (fun v => v) p8 p18 t9 s := by
  have e9 : M26 >>> 4 = M22 := by decide
  have h7 := hts 7 (by norm_num)
  have h6 := hts 6 (by norm_num)
  have h5 := hts 5 (by norm_num)
  obtain ⟨hc, hd⟩ := hs
  simp only [mulTail, foldR0, foldR1, e9, and_M26, and_M22, Nat.shiftRight_eq_div_pow, Nat.shiftLeft_eq]
  simp only [M26] at h5 h6 h7 h9
  simp (disch := omega) only [trunc64_of_lt]

/-- The 64-bit datapath gives the limbs of the exact one on two factors (R155). -/
theorem mulCore64_eq {a b : List Nat} (ha : factorBounded a) (hb : factorBounded b) : mulCore64 a b = mulCore a b := by
  obtain ⟨hloop, hsmall⟩ := mulLoop_trunc64 ha hb
  have h9 := column_le_max ha hb (x := 9) (by norm_num)
  change mulTail trunc64 (column a b 8) (column a b 18) (trunc64 (column a b 9) &&& M26) (mulLoop trunc64 a b) = _
  rw [hloop, trunc64_of_lt (v := column a b 9) (by omega),
    mulTail_trunc64 hsmall (column_le_max ha hb (by norm_num)) (column_le_max ha hb (by norm_num)) Nat.and_le_right
      (fun _ => lim_mulLoop_le a b)]
  rfl

/-! ### Symmetry (44_chains.md R170) -/

/-- Each column is symmetric in the two operands. -/
theorem column_comm (a b : List Nat) {x : Nat} (hx : x ≤ 18) : column a b x = column b a x := by
  interval_cases x <;>
    simp only [column_0, column_1, column_2, column_3, column_4, column_5, column_6, column_7, column_8, column_9,
      column_10, column_11, column_12, column_13, column_14, column_15, column_16, column_17, column_18] <;> ring

/-- A step sees its operands through their columns alone. -/
theorem mulStep_comm (trunc : Nat → Nat) (a b : List Nat) (s : MulAcc) {k : Nat} (hk : k ≤ 8) :
    mulStep trunc a b s k = mulStep trunc b a s k := by
  rw [mulStep, mulStep, column_comm a b (x := k) (by omega), column_comm a b (x := k + 10) (by omega)]

theorem mulLoop_comm (trunc : Nat → Nat) (a b : List Nat) : mulLoop trunc a b = mulLoop trunc b a := by
  rw [mulLoop, mulLoop, column_comm a b (x := 9) (by norm_num)]
  refine List.foldl_ext _ _ _ fun s k hk => mulStep_comm trunc a b s ?_
  have key : ∀ k ∈ [0, 1, 2, 3, 4, 5, 6, 7], k ≤ 8 := by decide
  exact key k hk

/-- The datapath is symmetric in its operands, whatever the width of its accumulators. -/
theorem mulCoreWith_comm (trunc : Nat → Nat) (a b : List Nat) : mulCoreWith trunc a b = mulCoreWith trunc b a := by
  rw [mulCoreWith, mulCoreWith, mulLoop_comm trunc a b, column_comm a b (x := 8) (by norm_num),
    column_comm a b (x := 9) (by norm_num), column_comm a b (x := 18) (by norm_num)]

/-! ### The obligations -/

/-- Settles O27. -/
theorem mulMultipliesFieldValues : Obligations.MulMultipliesFieldValues := by
  intro rd ra rb s ha hb
  obtain ⟨hverify, hlimbs⟩ := verify_mulCore (factorBounded_of_factor ha) (factorBounded_of_factor hb)
  refine ⟨_, exec_of_ruleWrites ⟨⟨ha, hb⟩, rfl⟩, hlimbs, ?_, rfl, rfl, hverify⟩
  rw [FieldRec.fv, hlimbs, fv_mulCore (length_limbs _) (length_limbs _)]; rfl

/-- Settles O28: SQR is MUL of its operand with itself. -/
theorem sqrIsMulByItself : Obligations.SqrIsMulByItself := by
  refine fun rd ra s => ⟨exec_sqr rd ra s, fun h => ?_⟩
  rw [exec_sqr]
  exact mulMultipliesFieldValues rd ra ra s h h

/-- Settles O29. -/
theorem mulCoreFitsIn64Bits : Obligations.MulCoreFitsIn64Bits := fun _ _ ha hb hma hmb =>
  mulCore64_eq (factorBounded_of_verify ha hma) (factorBounded_of_verify hb hmb)

/-- The input with every limb at the bound of magnitude 8 drives limb 2 to its bound (43_multiply.md R156). -/
theorem mulCore_maximal :
    lim (mulCore (List.replicate 9 (16 * M26) ++ [16 * M22]) (List.replicate 9 (16 * M26) ++ [16 * M22])) 2 =
      0x4100000 := by decide

/-- Settles O30. -/
theorem mulCoreOutputBounds : Obligations.MulCoreOutputBounds := by
  refine ⟨fun a b ha hb hma hmb => ?_, mulCore_maximal⟩
  have hfa := factorBounded_of_verify ha hma
  have hfb := factorBounded_of_verify hb hmb
  obtain ⟨hle, htwo, htop⟩ := mulCore_bounds hfa hfb
  exact ⟨hle, htop, htwo, by decide, (verify_mulCore hfa hfb).1, by norm_num⟩

/-- Settles O31. -/
theorem mulCoreCommutes : Obligations.MulCoreCommutes := mulCoreWith_comm fun v => v

end Sys2Proof.Machine
end

section
/-! PROOFS. The fixed-exponent chains: INV, INVV, SQRT, ISQV (44_chains.md R171–R174). -/

namespace Sys2Proof.Machine

/-- The flag of SQRT and ISQV compares the square of the root's field value with the operand's (R173). -/
theorem sqrtOk_eq (a : List Nat) :
    sqrtOk a = decide (fv (sqrtLimbs a) * fv (sqrtLimbs a) % prime = fv a) := by
  rw [sqrtOk, fv_mulCore (length_sqrtLimbs a) (length_sqrtLimbs a), beq_eq_decide]

/-- Settles O32: INV and INVV write the limbs of one chain. -/
theorem inversesRaiseToPrimeMinusTwo : Obligations.InversesRaiseToPrimeMinusTwo := by
  intro rd ra s h
  obtain ⟨hverify, hlimbs⟩ := verify_invLimbs (factorBounded_of_factor h)
  refine ⟨_, exec_of_ruleWrites ⟨h, rfl⟩, exec_of_ruleWrites ⟨h, rfl⟩, ?_, rfl, rfl, hverify⟩
  rw [FieldRec.fv, hlimbs, fv_invLimbs (length_limbs _)]; rfl

/-- Settles O33: SQRT and ISQV evaluate one chain and one flag. -/
theorem rootsRaiseToQuarterPower : Obligations.RootsRaiseToQuarterPower := by
  intro rd ra s h
  obtain ⟨hverify, hlimbs⟩ := verify_sqrtLimbs (factorBounded_of_factor h)
  have hfv : (FieldRec.ofLimbs (sqrtLimbs s.freg[ra].limbs) 1 false).fv = fv (sqrtLimbs s.freg[ra].limbs) := by
    rw [FieldRec.fv, hlimbs]
  have hresult : boolWord (sqrtOk s.freg[ra].limbs) =
      if fv (sqrtLimbs s.freg[ra].limbs) * fv (sqrtLimbs s.freg[ra].limbs) % prime = s.freg[ra].fv then 1 else 0 := by
    rw [sqrtOk_eq, boolWord_decide]; rfl
  refine ⟨.ofLimbs (sqrtLimbs s.freg[ra].limbs) 1 false, ?_, ?_, ?_, rfl, rfl, hverify⟩
  · rw [hfv, ← hresult]
    exact exec_of_ruleWrites ⟨h, rfl⟩
  · rw [hfv, ← hresult]
    exact exec_of_ruleWrites ⟨h, rfl⟩
  · rw [hfv, fv_sqrtLimbs (length_limbs _)]; rfl

end Sys2Proof.Machine
end

section
/-! PROOFS. Comparison and equality: CMPV, EQ, EQV (45_compare.md). -/

namespace Sys2Proof.Machine

/-- The word of an order of two integers (45_compare.md R190). -/
theorem orderWord_compare (m n : Nat) :
    orderWord (compare m n) = if m < n then 0xFFFFFFFF else if m = n then 0 else 1 := by
  rcases Nat.lt_trichotomy m n with h | h | h
  · rw [Nat.compare_eq_lt.2 h, if_pos h]; rfl
  · rw [Nat.compare_eq_eq.2 h, if_neg (by omega), if_pos h]; rfl
  · rw [Nat.compare_eq_gt.2 h, if_neg (by omega), if_neg (by omega)]; rfl

/-- The limbs of a normalized operand are below the radix. -/
theorem limbs_lt_of_norm {a : FieldRec} (h : verify a = true) (hn : a.norm = true) : ∀ x ∈ a.limbs, x < 2 ^ 26 := by
  obtain ⟨hle, htop, -⟩ := canonical_of_norm h hn
  intro x hx
  obtain ⟨i, hi, rfl⟩ := List.mem_iff_getElem.1 hx
  have hi10 : i < 10 := length_limbs a ▸ hi
  have hlim : a.limbs[i] = lim a.limbs i := (List.getD_eq_getElem _ _ hi).symm
  rw [hlim]
  by_cases h9 : i = 9
  · subst h9; simp only [M22] at htop; omega
  · have := hle i (by omega); simp only [M26] at this; omega

/-- Settles O34: the first differing limb from the top decides the order of the values. -/
theorem cmpvOrdersIntegers : Obligations.CmpvOrdersIntegers := by
  intro ra rb s ha hb hna hnb
  have horder := compareLimbs_eq ((length_limbs s.freg[ra].toFieldRec).trans (length_limbs s.freg[rb].toFieldRec).symm)
    (limbs_lt_of_norm ha.2 hna) (limbs_lt_of_norm hb.2 hnb)
  have hresult := orderWord_compare s.freg[ra].val s.freg[rb].val
  rw [← hresult]
  change exec (.cmpv ra rb) s =
    .next (s.writeResult (orderWord (compare (val s.freg[ra].limbs) (val s.freg[rb].limbs))))
  rw [← horder]
  exact exec_of_ruleWrites ⟨⟨ha, hb, hna, hnb⟩, rfl⟩

/-- EQ and EQV compare field values (45_compare.md R191). -/
theorem boolWord_sameValue (a b : FieldRec) :
    boolWord (sameValue a.limbs b.limbs) = if a.fv = b.fv then 1 else 0 := by
  rw [sameValue, beq_eq_decide, boolWord_decide]; rfl

/-- Settles O35. -/
theorem equalityComparesFieldValues : Obligations.EqualityComparesFieldValues := by
  intro ra rb s ha hb
  rw [← boolWord_sameValue]
  exact ⟨exec_of_ruleWrites ⟨⟨ha, hb⟩, rfl⟩, exec_of_ruleWrites ⟨⟨ha, hb⟩, rfl⟩⟩

/-- A number that makes b into a, up to a multiple of p, is 0 modulo p exactly when a and b agree modulo p. -/
theorem mod_eq_zero_iff_of_add {r a b k : Nat} (h : r + b = a + k * prime) :
    r % prime = 0 ↔ a % prime = b % prime := by
  have hmod : (r + b) % prime = a % prime := by rw [h, Nat.add_mul_mod_self_right]
  rw [← hmod]
  constructor
  · intro hr
    rw [Nat.add_mod, hr, Nat.zero_add, Nat.mod_mod]
  · intro hab
    have hdvd : r + b ≡ 0 + b [MOD prime] := by rw [Nat.zero_add]; exact hab
    exact Nat.ModEq.add_right_cancel' b hdvd

/-- Settles O36: what NEG and ADD leave in `rt` is 0 modulo p exactly when the two field values agree. -/
theorem eqAgreesWithNegAddNtz : Obligations.EqAgreesWithNegAddNtz := by
  intro rt ra rb m s hne ha hb hm hmag
  obtain ⟨t, r, hneg, hadd, hval, -, hverify⟩ :=
    exec_neg_add (m := m) (by omega) hne ha hb (by omega) (by omega)
  obtain ⟨hntz, -⟩ := zeroTestsAgreeWithValue rt (s.writeF rt r) (readable_writeF_same hverify)
  obtain ⟨heq, -⟩ := equalityComparesFieldValues ra rb s ha hb
  refine ⟨t, _, _, _, hneg, hadd, hntz, heq, ?_⟩
  have hiff : r.fv = 0 ↔ s.freg[ra].fv = s.freg[rb].fv := mod_eq_zero_iff_of_add hval
  rw [toFieldRec_writeF_same]
  simp only [hiff]

end Sys2Proof.Machine
end

section
/-! PROOFS. FieldStorage packing, raw access and the invariant check: TOSTOR, FROMSTOR, SCMOV, LDSTOR, STSTOR, LDRAW,
STRAW, VERIFY (46_storage_raw.md). -/

namespace Sys2Proof.Machine

/-! ### Storage registers -/

/-- The value of a readable normalized register fits in the eight words of a storage register (46_storage_raw.md R200). -/
theorem sval_toStor_of_norm {a : FieldRec} (h : verify a = true) (hn : a.norm = true) : sval (toStor a.val) = a.val := by
  obtain ⟨hle, htop, -⟩ := canonical_of_norm h hn
  exact sval_toStor (val_lt_of_bounds (length_limbs a) hle htop)

/-- FROMSTOR of a value below p writes its slices (46_storage_raw.md R201). -/
theorem exec_fromstor_loads (fd : FieldIx) {sa : StorIx} {s : State} (hw : s.sreg[sa].w = true)
    (hlt : sval s.sreg[sa].sw < prime) :
    exec (.fromstor fd sa) s = .next (s.writeF fd (.ofLimbs (slice26 (sval s.sreg[sa].sw)) 1 true)) :=
  exec_of_ruleWrites ⟨⟨hw, hlt⟩, rfl⟩

/-- FROMSTOR of a value of at least p faults INVARIANT (46_storage_raw.md R201). -/
theorem exec_fromstor_faults (fd : FieldIx) {sa : StorIx} {s : State} (hw : s.sreg[sa].w = true)
    (hge : prime ≤ sval s.sreg[sa].sw) : exec (.fromstor fd sa) s = .next (takeFault .invariant s) := by
  have hlt : ¬ sval s.sreg[sa].sw < prime := by omega
  simp only [exec, execFromstor, readS_of_written hw, hlt, decide_false, require_false, ok_bind, error_bind,
    runCommand_error]

/-- Settles O37. -/
theorem storagePacksValues : Obligations.StoragePacksValues := by
  refine ⟨fun sd fa s hr hn => ⟨_, exec_of_ruleWrites ⟨⟨hr, hn⟩, rfl⟩, sval_toStor_of_norm hr.2 hn⟩,
    fun fd sa s hw => ⟨fun hlt => ?_, exec_fromstor_faults fd hw⟩⟩
  obtain ⟨hcanonical, -, hval⟩ := canonical_slice26 hlt
  exact ⟨_, exec_fromstor_loads fd hw hlt, hcanonical, hval⟩

/-- Settles O38: TOSTOR's words hold the operand's value, which is below p, and the slices of the value are the
operand's limbs. -/
theorem storageRoundTrip : Obligations.StorageRoundTrip := by
  intro fd fa sd s hr hn
  obtain ⟨hle, -, hlt⟩ := canonical_of_norm hr.2 hn
  have hstored : (s.writeS sd (toStor s.freg[fa].val)).sreg[sd] = { sw := toStor s.freg[fa].val, w := true } := by
    rw [State.writeS_sreg_get, if_pos rfl]
  have hsval : sval (s.writeS sd (toStor s.freg[fa].val)).sreg[sd].sw = s.freg[fa].val := by
    rw [hstored]; exact sval_toStor_of_norm hr.2 hn
  have hlimbs : toLimbs (slice26 s.freg[fa].val) = s.freg[fa].n := by
    rw [FieldRec.val, slice26_val (length_limbs _) hle, toLimbs_limbs]
  refine ⟨s.writeS sd (toStor s.freg[fa].val), exec_of_ruleWrites ⟨⟨hr, hn⟩, rfl⟩, ?_⟩
  rw [exec_fromstor_loads fd (by rw [hstored]) (by rw [hsval]; exact hlt), hsval, FieldRec.ofLimbs, hlimbs]
  rfl

/-- Settles O39: SCMOV writes back the words of `sd` when the flag is 0. -/
theorem storageMovesWords : Obligations.StorageMovesWords := by
  refine ⟨fun sd sa s hd ha => ⟨exec_of_ruleWrites ⟨⟨by decide, hd, ha⟩, rfl⟩, ?_⟩,
    fun sd s => ⟨s.limbLow, exec_of_ruleWrites rfl, ?_⟩, fun sa s hw => ?_⟩
  · exact exec_of_ruleWrites ⟨⟨by decide, hd, ha⟩, (s.writeS_self sd hd).symm⟩
  · rintro ⟨j, hj⟩
    interval_cases j <;> rfl
  · refine ⟨(s.writeLimbLow s.sreg[sa].sw).limb, exec_of_ruleWrites ⟨hw, rfl⟩, ?_, rfl, rfl⟩
    rintro ⟨j, hj⟩
    interval_cases j <;> rfl

/-! ### Raw access -/

/-- META.MAG as a number (10_state.md R44). -/
theorem metaMag_eq (s : State) : s.metaMag = s.metaw.toNat % 2 ^ 6 := by
  simp [State.metaMag, BitVec.extractLsb'_toNat]

/-- LDRAW of a record that fails `Verify` faults INVARIANT (46_storage_raw.md R205). -/
theorem exec_ldraw_faults (fd : FieldIx) {s : State} (h : verify s.rawRecord = false) :
    exec (.ldraw fd) s = .next (takeFault .invariant s) := by
  simp only [exec, execLdraw, h, require_false, error_bind, runCommand_error]

/-- Settles O40. -/
theorem ldrawLoadsVerifiedRecord : Obligations.LdrawLoadsVerifiedRecord := fun fd s =>
  ⟨s.rawRecord, rfl, metaMag_eq s, rfl, fun h => exec_of_ruleWrites ⟨h, rfl⟩, exec_ldraw_faults fd⟩

/-- The word META takes for a record of magnitude at most 32: MAG and NORM stand apart, and META holds both
(46_storage_raw.md R206, 10_state.md R44). -/
theorem toNat_metaWord_masked {r : FieldRec} (h : r.mag ≤ 32) :
    (r.metaWord &&& 0x13F).toNat = r.mag + if r.norm then 2 ^ 8 else 0 := by
  have key : ∀ mag ≤ 32, ∀ norm : Bool,
      (BitVec.ofNat 32 (mag ||| (if norm then 1 <<< 8 else 0)) &&& 0x13F).toNat =
        mag + if norm then 2 ^ 8 else 0 := by decide
  exact key r.mag h r.norm

/-- Settles O41. -/
theorem strawReadsOutRecord : Obligations.StrawReadsOutRecord := fun _ _ hw hm =>
  ⟨_, exec_of_ruleWrites ⟨hw, rfl⟩, toNat_metaWord_masked hm⟩

/-- Settles O42: RESULT is the outcome of `Verify`, whose conjuncts are those of 10_state.md R34. -/
theorem verifyReportsInvariant : Obligations.VerifyReportsInvariant := by
  intro fa s hw
  refine ⟨_, boolWord (verify s.freg[fa].toFieldRec), rfl, exec_of_ruleWrites ⟨hw, rfl⟩, ?_, ?_⟩
  · cases verify s.freg[fa].toFieldRec
    · exact .inl rfl
    · exact .inr rfl
  · have htrue : boolWord (verify s.freg[fa].toFieldRec) = 1 ↔ verify s.freg[fa].toFieldRec = true := by
      cases verify s.freg[fa].toFieldRec <;> decide
    have hlimbs : (∀ i < 9, lim s.freg[fa].limbs i ≤ M26 * s.freg[fa].bound) ↔
        ∀ i : Fin 9, s.freg[fa].n[i.val].toNat ≤ M26 * s.freg[fa].bound := by
      refine ⟨fun h i => ?_, fun h i hi => ?_⟩
      · rw [← lim_limbs _ i.val (by omega)]; exact h i.val i.isLt
      · rw [lim_limbs _ i (by omega)]; exact h ⟨i, hi⟩
    rw [htrue, verify_iff, hlimbs, lim_limbs _ 9 (by norm_num)]
    rfl

end Sys2Proof.Machine
end

section
/-! PROOFS. What every step keeps: the invariant of the architecture, and written field registers within `Verify`
(10_state.md R34, R44, R46, R47, R53). -/

namespace Sys2Proof.Machine

/-! ### Field registers under a rule's writes -/

theorem verify_writeF {s : State} {i : FieldIx} {r : FieldRec} (h : verify r = true) :
    verify (s.writeF i r).freg[i].toFieldRec = true := (readable_writeF_same h).2

/-- What a rule leaves in its destination: a record within `Verify` or, when SETB32 rejects its value, other limbs alone
(10_state.md R53). -/
theorem ruleWrites_dest_cases {i : Instr} {s t : State} (h : ruleWrites i s t) {j : FieldIx}
    (hd : fieldDest i = some j) :
    verify t.freg[j].toFieldRec = true ∨
      (i = .setb32 j ∧ prime ≤ bval s.bufw ∧ ∃ n, t.freg[j] = { s.freg[j] with n := n }) := by
  cases i
  case setb32 rd =>
    cases hd
    simp only [ruleWrites, geP_slice26 (bval_lt s.bufw)] at h
    split at h
    · next hge =>
      subst h
      refine .inr ⟨rfl, hge, toLimbs (slice26 (bval s.bufw)), ?_⟩
      rw [State.writeResult_freg, State.writeLimbs_freg_get, if_pos rfl]
    · next hge =>
      subst h
      exact .inl (verify_writeF (verify_of_canonical (canonical_slice26 (Nat.lt_of_not_le hge)).1))
  case norm rd ra =>
    cases hd
    obtain ⟨hr, rfl⟩ := h
    exact .inl (verify_writeF (verify_of_canonical (canonical_normLimbs hr.2).1))
  case normv rd ra =>
    cases hd
    obtain ⟨hr, rfl⟩ := h
    rw [normvLimbs_of_verify hr.2]
    exact .inl (verify_writeF (verify_of_canonical (canonical_normLimbs hr.2).1))
  case normw rd ra =>
    cases hd
    obtain ⟨hr, rfl⟩ := h
    exact .inl (verify_writeF (verify_weakFold hr.2).1)
  case add rd ra rb =>
    cases hd
    obtain ⟨⟨ha, hb, hm⟩, rfl⟩ := h
    exact .inl (verify_writeF (verify_addLimbs ha.2 hb.2 hm).1)
  case neg rd ra m =>
    cases hd
    obtain ⟨⟨hm, hr, hle⟩, rfl⟩ := h
    exact .inl (verify_writeF (verify_negLimbs hr.2 hm hle).1)
  case mulint rd ra a =>
    cases hd
    obtain ⟨⟨-, hr, hm⟩, rfl⟩ := h
    exact .inl (verify_writeF (verify_scaleLimbs hr.2 hm).1)
  case cmov rd ra flag =>
    cases hd
    obtain ⟨⟨-, hrd, hra⟩, rfl⟩ := h
    refine .inl (verify_writeF ?_)
    split
    · exact hra.2
    · exact hrd.2
  case mov rd ra =>
    cases hd
    obtain ⟨hr, rfl⟩ := h
    exact .inl (verify_writeF hr.2)
  case setint rd imm =>
    cases hd
    cases h
    exact .inl (verify_writeF (verify_of_canonical (canonical_setint imm).1))
  case clear rd =>
    cases hd
    cases h
    exact .inl (verify_writeF (by decide))
  case mul rd ra rb =>
    cases hd
    obtain ⟨⟨ha, hb⟩, rfl⟩ := h
    exact .inl (verify_writeF (verify_mulCore (factorBounded_of_factor ha) (factorBounded_of_factor hb)).1)
  case sqr rd ra =>
    cases hd
    obtain ⟨ha, rfl⟩ := h
    exact .inl (verify_writeF (verify_mulCore (factorBounded_of_factor ha) (factorBounded_of_factor ha)).1)
  case inv rd ra | invv rd ra =>
    cases hd
    obtain ⟨ha, rfl⟩ := h
    exact .inl (verify_writeF (verify_invLimbs (factorBounded_of_factor ha)).1)
  case sqrt rd ra =>
    cases hd
    obtain ⟨ha, rfl⟩ := h
    rw [State.writeResult_freg]
    exact .inl (verify_writeF (verify_sqrtLimbs (factorBounded_of_factor ha)).1)
  case fromstor fd sa =>
    cases hd
    obtain ⟨⟨-, hlt⟩, rfl⟩ := h
    exact .inl (verify_writeF (verify_of_canonical (canonical_slice26 hlt).1))
  case ldraw fd =>
    cases hd
    obtain ⟨hv, rfl⟩ := h
    exact .inl (verify_writeF hv)
  all_goals cases hd

/-- What a rule leaves in a field register: what was there, a record within `Verify`, or other limbs alone. -/
theorem ruleWrites_freg_cases {i : Instr} {s t : State} (h : ruleWrites i s t) (j : FieldIx) :
    t.freg[j] = s.freg[j] ∨ verify t.freg[j].toFieldRec = true ∨
      (i = .setb32 j ∧ prime ≤ bval s.bufw ∧ ∃ n, t.freg[j] = { s.freg[j] with n := n }) := by
  by_cases hd : fieldDest i = some j
  · exact .inr (ruleWrites_dest_cases h hd)
  · exact .inl ((ruleWrites_frame h).freg j hd)

/-- The magnitude clause of the invariant is part of `Verify` (10_state.md R34). -/
theorem mag_of_verify {r : FieldRec} (h : verify r = true) : r.mag ≤ 32 ∧ (r.norm = true → r.mag ≤ 1) := by
  obtain ⟨-, -, hmag, hnorm⟩ := (verify_iff r).1 h
  exact ⟨hmag, fun hn => (hnorm hn).1⟩

theorem ruleWrites_keeps_magnitudes {i : Instr} {s t : State} (h : ruleWrites i s t) (hs : s.magnitudesOk) :
    t.magnitudesOk := by
  intro j
  obtain heq | hverify | ⟨-, -, n, heq⟩ := ruleWrites_freg_cases h j
  · rw [heq]; exact hs j
  · exact mag_of_verify hverify
  · rw [heq]; exact hs j

/-! ### The invariant under execution -/

/-- META holds the bits of MAG and NORM alone, whatever is written to it (10_state.md R44). -/
theorem writeMeta_metaOk (s : State) (v : Word) : (s.writeMeta v).metaOk := by
  change v &&& 0x13F &&& 0x13F = v &&& 0x13F
  rw [BitVec.and_assoc, BitVec.and_self]

theorem ruleWrites_keeps_meta {i : Instr} {s t : State} (h : ruleWrites i s t) (hs : s.metaOk) : t.metaOk := by
  by_cases hi : ∃ fa, i = .straw fa
  · obtain ⟨fa, rfl⟩ := hi
    obtain ⟨-, rfl⟩ := h
    exact writeMeta_metaOk _ _
  · have hmeta : t.metaw = s.metaw := (ruleWrites_frame h).metaw fun fa hfa => hi ⟨fa, hfa⟩
    rwa [State.metaOk, hmeta]

theorem ruleWrites_keeps_inv {i : Instr} {s t : State} (h : ruleWrites i s t) (hs : s.inv) : t.inv := by
  obtain ⟨hstatus, hmeta, hmag, hlatch⟩ := hs
  have frame := ruleWrites_frame h
  refine ⟨?_, ruleWrites_keeps_meta h hmeta, ruleWrites_keeps_magnitudes h hmag, ?_⟩
  · rwa [State.statusOk, frame.fault, frame.fcode, frame.faultcmd]
  · rwa [State.latchOk, frame.cur, frame.left]

/-- Fault entry records a code of 1 to 7, and touches nothing else the invariant speaks of (60_exceptions.md R221,
R222). -/
theorem takeFault_keeps_inv (c : FaultCode) {s : State} (hs : s.inv) : (takeFault c s).inv := by
  by_cases hf : s.fault = true
  · rwa [takeFault_of_fault c s hf]
  · rw [takeFault_of_no_fault c s (Bool.eq_false_iff.2 hf)]
    obtain ⟨-, hmeta, hmag, hlatch⟩ := hs
    exact ⟨⟨nofun, fun _ => c.code_range⟩, hmeta, hmag, hlatch⟩

theorem execute_keeps_inv {w : Word} {s t : State} (h : execute w s = .next t) (hs : s.inv) : t.inv := by
  cases hw : decode w with
  | command i =>
    rw [execute_command hw] at h
    rcases exec_cases h with hwrites | ⟨e, -, rfl⟩
    · exact ruleWrites_keeps_inv hwrites hs
    · exact takeFault_keeps_inv e hs
  | illegalOp =>
    rw [execute_illegalOp hw] at h
    cases h
    exact takeFault_keeps_inv _ hs
  | illegalField =>
    rw [execute_illegalField hw] at h
    cases h
    exact takeFault_keeps_inv _ hs

theorem complete_keeps_inv {s : State} (hs : s.inv) : (complete s).inv := by
  obtain ⟨hstatus, hmeta, hmag, -⟩ := hs
  exact ⟨hstatus, hmeta, hmag, fun _ => rfl⟩

/-! ### The invariant under the host's events -/

theorem afterEvent_keeps_inv (rest : List HostEvent) {s : State} (hs : s.inv) : (s.afterEvent rest).inv := by
  obtain ⟨hstatus, hmeta, hmag, hlatch⟩ := hs
  refine ⟨hstatus, hmeta, hmag, fun hc => ?_⟩
  exact (if_pos hc).trans (hlatch hc)

theorem busRead_keeps_inv (off : Nat) {s : State} (hs : s.inv) : (busRead off s).inv := by
  rw [busRead_frame]; exact hs

theorem writeReg_keeps_inv (r : BusReg) (v : Word) {s : State} (hs : s.inv) : (writeReg r v s).inv := by
  obtain ⟨hstatus, hmeta, hmag, hlatch⟩ := hs
  cases r
  case cmd =>
    rw [writeReg]
    split
    · exact ⟨hstatus, hmeta, hmag, hlatch⟩
    · exact ⟨hstatus, hmeta, hmag, nofun⟩
  case ctrl =>
    rw [writeReg]
    split
    · exact ⟨⟨fun _ => ⟨rfl, rfl⟩, nofun⟩, hmeta, hmag, hlatch⟩
    · exact ⟨hstatus, hmeta, hmag, hlatch⟩
  case metaw => exact ⟨hstatus, writeMeta_metaOk s v, hmag, hlatch⟩
  all_goals exact ⟨hstatus, hmeta, hmag, hlatch⟩

theorem busWrite_keeps_inv (off : Nat) (v : Word) {s : State} (hs : s.inv) : (busWrite off v s).inv := by
  unfold busWrite
  split
  · exact takeFault_keeps_inv _ hs
  · exact writeReg_keeps_inv _ v hs

/-- The state after reset meets the invariant (10_state.md R52). -/
theorem reset_inv : State.reset.inv := by
  refine ⟨⟨fun _ => ⟨rfl, rfl⟩, nofun⟩, rfl, fun i => ?_, fun _ => rfl⟩
  rw [reset_freg]
  exact ⟨Nat.zero_le _, nofun⟩

theorem hostEvent_keeps_inv {e : HostEvent} {s t : State} (h : hostEvent e s = .next t) (hs : s.inv) : t.inv := by
  obtain ⟨-, rfl⟩ | ⟨off, -, -, rfl⟩ | ⟨off, v, -, -, rfl⟩ | ⟨-, rfl⟩ | ⟨-, rfl⟩ := hostEvent_next h
  · exact hs
  · exact busRead_keeps_inv off hs
  · exact busWrite_keeps_inv off v hs
  · have hread := busRead_keeps_inv 0x004 hs
    split <;> exact hread
  · exact reset_inv

/-- Settles O7: a step completes a command, passes, or takes an event, and each keeps the invariant. -/
theorem stepKeepsInvariant : Obligations.StepKeepsInvariant := by
  intro s t hs h
  obtain ⟨w, u, -, -, hexec, rfl⟩ | ⟨-, -, rfl⟩ | ⟨-, e, rest, -, hevent⟩ := step_cases h
  · exact complete_keeps_inv (execute_keeps_inv hexec hs)
  · exact afterEvent_keeps_inv [] hs
  · exact hostEvent_keeps_inv hevent (afterEvent_keeps_inv rest hs)

/-! ### Written registers within `Verify` (R53) -/

/-- No register is written after reset. -/
theorem reset_registersVerified : State.reset.registersVerified := fun i hw =>
  absurd ((reset_freg_w i).symm.trans hw) (by decide)

/-- Settles O8. -/
theorem resetMeetsInvariants : Obligations.ResetMeetsInvariants := ⟨reset_inv, reset_registersVerified⟩

theorem registersVerified_of_freg {s t : State} (h : t.freg = s.freg) (hs : s.registersVerified) :
    t.registersVerified := by
  rwa [State.registersVerified, h]

theorem ruleWrites_keeps_verified {i : Instr} {s t : State} (h : ruleWrites i s t) (hs : s.registersVerified)
    (hi : ¬(prime ≤ bval s.bufw ∧ ∃ rd, i = .setb32 rd)) : t.registersVerified := by
  intro j hw
  obtain heq | hverify | ⟨rfl, hge, -⟩ := ruleWrites_freg_cases h j
  · rw [heq] at hw ⊢; exact hs j hw
  · exact hverify
  · exact absurd ⟨hge, j, rfl⟩ hi

/-- Execution keeps written registers within `Verify`, unless the word is that of a SETB32 which rejects its value. -/
theorem execute_keeps_verified {w : Word} {s t : State} (h : execute w s = .next t) (hs : s.registersVerified)
    (hw : ¬(prime ≤ bval s.bufw ∧ ∃ rd, w = encode (.setb32 rd))) : t.registersVerified := by
  cases hd : decode w with
  | command i =>
    rw [execute_command hd] at h
    rcases exec_cases h with hwrites | ⟨e, -, rfl⟩
    · refine ruleWrites_keeps_verified hwrites hs ?_
      rintro ⟨hge, rd, rfl⟩
      exact hw ⟨hge, rd, (encode_of_decode hd).1.symm⟩
    · exact registersVerified_of_freg (takeFault_freg e s) hs
  | illegalOp =>
    rw [execute_illegalOp hd] at h
    cases h
    exact registersVerified_of_freg (takeFault_freg _ s) hs
  | illegalField =>
    rw [execute_illegalField hd] at h
    cases h
    exact registersVerified_of_freg (takeFault_freg _ s) hs

/-- No host write reaches a field register. -/
theorem writeReg_freg (r : BusReg) (v : Word) (s : State) : (writeReg r v s).freg = s.freg := by
  cases r
  case cmd | ctrl => rw [writeReg]; split <;> rfl
  all_goals rfl

theorem busWrite_freg (off : Nat) (v : Word) (s : State) : (busWrite off v s).freg = s.freg := by
  unfold busWrite
  split
  · exact takeFault_freg _ s
  · exact writeReg_freg _ v s

theorem hostEvent_keeps_verified {e : HostEvent} {s t : State} (h : hostEvent e s = .next t)
    (hs : s.registersVerified) : t.registersVerified := by
  obtain ⟨-, rfl⟩ | ⟨off, -, -, rfl⟩ | ⟨off, v, -, -, rfl⟩ | ⟨-, rfl⟩ | ⟨-, rfl⟩ := hostEvent_next h
  · exact hs
  · exact registersVerified_of_freg (busRead_freg off s) hs
  · exact registersVerified_of_freg (busWrite_freg off v s) hs
  · have hread : (busRead 0x004 s).registersVerified := registersVerified_of_freg (busRead_freg 0x004 s) hs
    split <;> exact hread
  · exact reset_registersVerified

/-- Settles O9: a step writes field registers at the completion of a command alone, and every command but a SETB32 that
rejects its value writes a record within `Verify`. -/
theorem stepKeepsRegistersVerified : Obligations.StepKeepsRegistersVerified := by
  intro s t hs hreject h
  obtain ⟨w, u, hcur, hleft, hexec, rfl⟩ | ⟨-, -, rfl⟩ | ⟨-, e, rest, -, hevent⟩ := step_cases h
  · have hverified : u.registersVerified := by
      refine execute_keeps_verified hexec hs ?_
      rintro ⟨hge, rd, rfl⟩
      exact hreject ⟨hleft, hge, rd, hcur⟩
    exact hverified
  · exact hs
  · exact hostEvent_keeps_verified hevent hs

end Sys2Proof.Machine
end

section
/-! PROOFS. The faults of a command's checks: immediates, then sources in order, then preconditions (60_exceptions.md
R222, R223, 10_state.md R36, R39). -/

namespace Sys2Proof.Machine

/-! ### The first source that fails its check -/

theorem of_singleton_eq_append {α : Type} {Q : α → Prop} {a r : α} {before after : List α}
    (h : [a] = before ++ r :: after) (hr : Q r) : Q a := by
  cases before with
  | nil => cases h; exact hr
  | cons b bs => simp at h

/-- Of two sources the first fails, or it passes and the second fails. -/
theorem of_pair_eq_append {α : Type} {P Q : α → Prop} {a b r : α} {before after : List α}
    (h : [a, b] = before ++ r :: after) (hp : ∀ q ∈ before, P q) (hr : Q r) : Q a ∨ P a ∧ Q b := by
  cases before with
  | nil => cases h; exact .inl hr
  | cons c cs =>
    obtain ⟨rfl, htail⟩ := List.cons.inj h
    exact .inr ⟨hp a (by simp), of_singleton_eq_append htail hr⟩

/-- The immediate of a well-formed command passes its check. -/
theorem requireImm_ok {m : BitVec 12} {k : Nat} (h : m.toNat ≤ k) : requireImm m k = .ok () := by
  rw [requireImm, decide_eq_true h, require_true]

theorem requireImm_fails {m : BitVec 12} {k : Nat} (h : ¬ m.toNat ≤ k) : requireImm m k = .error .illegalField := by
  rw [requireImm, decide_eq_false h, require_false]

/-- A command raises the fault of its first field source that fails its checks (60_exceptions.md R223). -/
theorem exec_of_field_source_fails {i : Instr} {s : State} {before after : List FieldIx} {r : FieldIx} {e : FaultCode}
    (hw : i.wellFormed = true) (h : fieldSources i = before ++ r :: after) (hb : ∀ q ∈ before, s.readable q)
    (he : readF s r = .error e) : exec i s = .next (takeFault e s) := by
  cases i
  case norm rd ra | normw rd ra | normv rd ra | mov rd ra | ntz ra | ntzv ra =>
    have hra := of_singleton_eq_append (Q := fun q => readF s q = .error e) h he
    simp only [exec, execNorm, execNormw, execNormv, execMov, execNtz, execNtzv, hra, error_bind, runCommand_error]
  case getb32 ra | tostor sd ra =>
    have hra := of_singleton_eq_append (Q := fun q => readF s q = .error e) h he
    simp only [exec, execGetb32, execTostor, readNormalized, hra, error_bind, runCommand_error]
  case sqr rd ra | inv rd ra | invv rd ra | sqrt rd ra | isqv ra =>
    have hra := of_singleton_eq_append (Q := fun q => readF s q = .error e) h he
    simp only [exec, execSqr, execInv, execInvv, execSqrt, execIsqv, readFactor, hra, error_bind, runCommand_error]
  case neg rd ra m | mulint rd ra m =>
    have hra := of_singleton_eq_append (Q := fun q => readF s q = .error e) h he
    simp only [exec, execNeg, execMulint, requireImm_ok (of_decide_eq_true hw), hra, ok_bind, error_bind,
      runCommand_error]
  case cmov rd ra flag =>
    simp only [exec, execCmov, requireImm_ok (of_decide_eq_true hw), ok_bind]
    rcases of_pair_eq_append (Q := fun q => readF s q = .error e) h hb he with hrd | ⟨hrd, hra⟩
    · simp only [hrd, error_bind, runCommand_error]
    · simp only [readF_of_readable hrd, hra, ok_bind, error_bind, runCommand_error]
  case add rd ra rb | mul rd ra rb | cmpv ra rb | eq ra rb | eqv ra rb =>
    simp only [exec, execAdd, execMul, execCmpv, execEq, execEqv]
    rcases of_pair_eq_append (Q := fun q => readF s q = .error e) h hb he with hra | ⟨hra, hrb⟩
    · simp only [hra, error_bind, runCommand_error]
    · simp only [readF_of_readable hra, hrb, ok_bind, error_bind, runCommand_error]
  all_goals simp [fieldSources] at h

/-- A command raises UNWRITTEN at its first storage source that is not written (10_state.md R39). -/
theorem exec_of_stor_source_unwritten {i : Instr} {s : State} {before after : List StorIx} {r : StorIx}
    (hw : i.wellFormed = true) (h : storSources i = before ++ r :: after) (hb : ∀ q ∈ before, s.sreg[q].w = true)
    (hr : s.sreg[r].w = false) : exec i s = .next (takeFault .unwritten s) := by
  cases i
  case fromstor fd sa | ststor sa =>
    have hsa := of_singleton_eq_append (Q := fun q => s.sreg[q].w = false) h hr
    simp only [exec, execFromstor, execStstor, readS_of_unwritten hsa, error_bind, runCommand_error]
  case scmov sd sa flag =>
    simp only [exec, execScmov, requireImm_ok (of_decide_eq_true hw), ok_bind]
    rcases of_pair_eq_append (Q := fun q => s.sreg[q].w = false) h hb hr with hsd | ⟨hsd, hsa⟩
    · simp only [readS_of_unwritten hsd, error_bind, runCommand_error]
    · simp only [readS_of_written hsd, readS_of_unwritten hsa, ok_bind, error_bind, runCommand_error]
  all_goals simp [storSources] at h

/-- STRAW and VERIFY raise UNWRITTEN on a register that is not written (46_storage_raw.md R206, R207). -/
theorem exec_of_raw_source_unwritten {i : Instr} {s : State} {r : FieldIx} (h : rawSource i = some r)
    (hr : s.freg[r].w = false) : exec i s = .next (takeFault .unwritten s) := by
  cases i
  case straw fa | verify fa =>
    cases h
    simp only [exec, execStraw, execVerify, readFRaw_of_unwritten hr, error_bind, runCommand_error]
  all_goals cases h

/-- Settles O43. -/
theorem sourcesCheckedInOrder : Obligations.SourcesCheckedInOrder :=
  ⟨fun _ _ _ _ _ hw h hb =>
      ⟨fun hr => exec_of_field_source_fails hw h hb (readF_of_unwritten hr),
        fun hr hv => exec_of_field_source_fails hw h hb (readF_of_broken hr hv)⟩,
    fun _ _ _ h hr => exec_of_raw_source_unwritten h hr,
    fun _ _ _ _ _ hw h hb hr => exec_of_stor_source_unwritten hw h hb hr⟩

/-! ### Preconditions -/

/-- A factor of magnitude above 8 raises MAGNITUDE (43_multiply.md R154, 44_chains.md). -/
theorem readFactor_of_magnitude {s : State} {i : FieldIx} (h : s.readable i) (hm : 8 < s.freg[i].mag) :
    readFactor s i = .error .magnitude := by
  have hle : ¬ s.freg[i].mag ≤ 8 := by omega
  simp only [readFactor, readF_of_readable h, hle, decide_false, require_false, ok_bind, error_bind]

/-- An operand that must be normalized and is not raises NOT_NORMALIZED (41_serialization.md R122, 46_storage_raw.md
R200). -/
theorem readNormalized_of_not_norm {s : State} {i : FieldIx} (h : s.readable i) (hn : s.freg[i].norm = false) :
    readNormalized s i = .error .notNormalized := by
  simp only [readNormalized, readF_of_readable h, hn, require_false, ok_bind, error_bind]

section

variable {s : State} {rd ra rb : FieldIx} {k : BitVec 12}

theorem exec_add_magnitude (ha : s.readable ra) (hb : s.readable rb) (h : 32 < s.freg[ra].mag + s.freg[rb].mag) :
    exec (.add rd ra rb) s = .next (takeFault .magnitude s) := by
  have hle : ¬ s.freg[ra].mag + s.freg[rb].mag ≤ 32 := by omega
  simp only [exec, execAdd, readF_of_readable ha, readF_of_readable hb, hle, decide_false, require_false, ok_bind,
    error_bind, runCommand_error]

theorem exec_neg_magnitude (ha : s.readable ra) (hk : k.toNat ≤ 31) (h : k.toNat < s.freg[ra].mag) :
    exec (.neg rd ra k) s = .next (takeFault .magnitude s) := by
  have hle : ¬ s.freg[ra].mag ≤ k.toNat := by omega
  simp only [exec, execNeg, requireImm_ok hk, readF_of_readable ha, hle, decide_false, require_false, ok_bind,
    error_bind, runCommand_error]

theorem exec_mulint_magnitude (ha : s.readable ra) (hk : k.toNat ≤ 32) (h : 32 < k.toNat * s.freg[ra].mag) :
    exec (.mulint rd ra k) s = .next (takeFault .magnitude s) := by
  have hle : ¬ k.toNat * s.freg[ra].mag ≤ 32 := by omega
  simp only [exec, execMulint, requireImm_ok hk, readF_of_readable ha, hle, decide_false, require_false, ok_bind,
    error_bind, runCommand_error]

theorem exec_mul_magnitude (ha : s.readable ra) (hb : s.readable rb) (h : 8 < s.freg[ra].mag ∨ 8 < s.freg[rb].mag) :
    exec (.mul rd ra rb) s = .next (takeFault .magnitude s) := by
  have hle : (decide (s.freg[ra].mag ≤ 8) && decide (s.freg[rb].mag ≤ 8)) = false := by
    rw [← Bool.decide_and, decide_eq_false_iff_not]; omega
  simp only [exec, execMul, readF_of_readable ha, readF_of_readable hb, hle, require_false, ok_bind, error_bind,
    runCommand_error]

/-- The commands that read one factor (43_multiply.md R154, 44_chains.md R171–R174). -/
theorem exec_factor_magnitude (ha : s.readable ra) (h : 8 < s.freg[ra].mag) :
    ∀ i ∈ [Instr.sqr rd ra, .inv rd ra, .invv rd ra, .sqrt rd ra, .isqv ra],
      exec i s = .next (takeFault .magnitude s) := by
  simp only [List.forall_mem_cons, exec, execSqr, execInv, execInvv, execSqrt, execIsqv, readFactor_of_magnitude ha h,
    error_bind, runCommand_error, List.not_mem_nil, false_implies, implies_true, and_self]

theorem exec_not_normalized {sd : StorIx} (ha : s.readable ra) (h : s.freg[ra].norm = false) :
    ∀ i ∈ [Instr.getb32 ra, .tostor sd ra], exec i s = .next (takeFault .notNormalized s) := by
  simp only [List.forall_mem_cons, exec, execGetb32, execTostor, readNormalized_of_not_norm ha h, error_bind,
    runCommand_error, List.not_mem_nil, false_implies, implies_true, and_self]

theorem exec_cmpv_not_normalized (ha : s.readable ra) (hb : s.readable rb)
    (h : s.freg[ra].norm = false ∨ s.freg[rb].norm = false) :
    exec (.cmpv ra rb) s = .next (takeFault .notNormalized s) := by
  have hand : (s.freg[ra].norm && s.freg[rb].norm) = false := Bool.and_eq_false_iff.2 h
  simp only [exec, execCmpv, readF_of_readable ha, readF_of_readable hb, hand, require_false, ok_bind, error_bind,
    runCommand_error]

end

/-- An immediate out of range raises ILLEGAL_FIELD before any source is read (log 11). -/
theorem exec_of_not_wellFormed {i : Instr} (s : State) (h : i.wellFormed = false) :
    exec i s = .next (takeFault .illegalField s) := by
  cases i
  case neg rd ra m | mulint rd ra m | cmov rd ra m | scmov sd sa m =>
    simp only [exec, execNeg, execMulint, execCmov, execScmov, requireImm_fails (of_decide_eq_false h), error_bind,
      runCommand_error]
  all_goals cases h

/-- Settles O44: each failed check is the first to fail. -/
theorem preconditionFaults : Obligations.PreconditionFaults := fun s _ _ _ _ _ =>
  ⟨exec_add_magnitude, exec_neg_magnitude, exec_mulint_magnitude, exec_mul_magnitude, exec_factor_magnitude,
    exec_not_normalized, exec_cmpv_not_normalized, fun _ => exec_of_not_wellFormed s⟩

end Sys2Proof.Machine
end

section
/-! PROOFS. Latency, and the run of a command from its acceptance to its completion (60_exceptions.md R220,
70_reset_and_hazards.md R253, R256, R258). -/

namespace Sys2Proof.Machine

/-! ### The latency contract (R256) -/

theorem one_le_latency (w : Word) (s : State) : 1 ≤ latency w s := Nat.le_add_right 1 _

/-- The OPs of the variable-time commands (30_encoding.md R84, column "CT"). -/
def variableTimeOps : List (BitVec 8) := [0x12, 0x14, 0x51, 0x53, 0x60, 0x62]

/-- Whether a command is constant-time shows in its OP. -/
theorem constantTime_eq (i : Instr) : i.constantTime = !variableTimeOps.contains (opField (encode i)) := by
  cases i <;>
    · simp only [encode, opField_packWord]
      rfl

/-- Two words of one OP are both constant-time or both variable-time. -/
theorem constantTime_of_opField {w w' : Word} {i i' : Instr} (hd : decode w = .command i) (hd' : decode w' = .command i')
    (hop : opField w = opField w') : i.constantTime = i'.constantTime := by
  rw [constantTime_eq, constantTime_eq, (encode_of_decode hd).1, (encode_of_decode hd').1, hop]

/-- The operand values on which a variable-time command's latency may depend are those of its sources. -/
theorem variableOperands_eq {i : Instr} (h : i.constantTime = false) (s : State) :
    variableOperands i s = (fieldSources i).map fun r => s.freg[r].toFieldRec := by
  cases i
  case normv rd ra | ntzv ra | invv rd ra | isqv ra | cmpv ra rb | eqv ra rb => rfl
  all_goals cases h

theorem latency_of_constantTime {w : Word} {s : State} {i : Instr} (hd : decode w = .command i)
    (hf : commandFaults i s = false) (hct : i.constantTime = true) :
    latency w s = 1 + Config.latencyCT (opField w) := by
  simp only [latency, hd, hf, hct, if_true, Bool.false_eq_true, if_false]

theorem latency_of_variableTime {w : Word} {s : State} {i : Instr} (hd : decode w = .command i)
    (hf : commandFaults i s = false) (hct : i.constantTime = false) :
    latency w s =
      1 + Config.latencyVar (opField w) ((fieldSources i).map fun r => s.freg[r].toFieldRec) := by
  simp only [latency, hd, hf, hct, Bool.false_eq_true, if_false, variableOperands_eq hct]

/-- Settles O56: OP says which of the two kinds of latency a command has. -/
theorem latencyContract : Obligations.LatencyContract := by
  refine ⟨one_le_latency, fun w w' s s' i i' hd hd' hop hf hf' => ?_⟩
  have hkind := constantTime_of_opField hd hd' hop
  have constant : i.constantTime = true → latency w s = latency w' s' := fun hct => by
    rw [latency_of_constantTime hd hf hct, latency_of_constantTime hd' hf' (hkind ▸ hct), hop]
  refine ⟨constant, fun hoperands => ?_⟩
  cases hct : i.constantTime with
  | true => exact constant hct
  | false =>
    rw [latency_of_variableTime hd hf hct, latency_of_variableTime hd' hf' (hkind ▸ hct), hop, hoperands]

/-! ### A command in flight -/

/-- The state in which the word `w` was accepted, with `left` cycles to go and the events `host` to come. -/
abbrev State.inFlight (s : State) (w : Word) (left : Nat) (host : List HostEvent) : State :=
  { s with cur := some w, left := left, host := host }

/-- The step that takes the write of CMD puts the word in flight (60_exceptions.md R220). -/
theorem step_accepts {s : State} {w : Word} {rest : List HostEvent} (hc : s.cur = none) (hf : s.fault = false)
    (hh : s.host = .write 0x000 4 w :: rest) :
    step s = .next (s.inFlight w (latency w { s with host := rest } - 1) rest) := by
  obtain ⟨lat, -, rfl, hwrite⟩ := (idleWrites s w rest hc).1 hf
  rw [State.writeGives, ← hh] at hwrite
  exact hwrite

/-- With no access to come, each cycle counts and does nothing else. -/
theorem run_in_flight (s : State) (w : Word) (n : Nat) {k : Nat} (hk : k ≤ n) :
    core.run k (s.inFlight w n []) = .next (s.inFlight w (n - k) []) := by
  induction k generalizing n with
  | zero => rfl
  | succ k ih =>
    obtain ⟨n, rfl⟩ : ∃ m, n = m + 1 := ⟨n - 1, by omega⟩
    have hstep : step (s.inFlight w (n + 1) []) = .next (s.inFlight w n []) :=
      step_no_event (.inr (Nat.succ_pos n)) rfl
    rw [run_succ hstep, ih n (by omega), Nat.add_sub_add_right]

/-- Settles O57: the write is one step, the cycles of the latency but one pass, and the next completes the command. -/
theorem commandRunsItsLatency : Obligations.CommandRunsItsLatency := by
  intro s w hc hf hh
  have haccept := step_accepts hc hf hh
  have hlat := one_le_latency w { s with host := [] }
  have hcycles : ∀ k < latency w { s with host := [] }, core.run (k + 1) s =
      .next (s.inFlight w (latency w { s with host := [] } - 1 - k) []) := fun k hk => by
    rw [run_succ haccept, run_in_flight s w _ (by omega)]
  refine ⟨hcycles, ?_⟩
  have hlast := hcycles (latency w { s with host := [] } - 1) (by omega)
  rw [Nat.sub_add_cancel hlat, Nat.sub_self] at hlast
  rw [run_add hlast, run_one]
  exact step_completes rfl rfl

/-! ### The polling wait (30_encoding.md R88) -/

/-- While the command is in flight a poll reads STATUS and stays pending. -/
theorem step_polls (s : State) (w : Word) (n : Nat) :
    ∃ v : Word, step (s.inFlight w (n + 1) [.wait]) = .next ({ s with rdata := v }.inFlight w n [.wait]) :=
  ⟨State.statusWord (s.inFlight w n []), step_event (s := s.inFlight w (n + 1) [.wait]) (.inr (Nat.succ_pos n)) rfl⟩

/-- After `k` polls the command is `k` cycles further and the wait still pending. -/
theorem run_polls (s : State) (w : Word) (n : Nat) :
    ∃ v : Word, core.run n (s.inFlight w n [.wait]) = .next ({ s with rdata := v }.inFlight w 0 [.wait]) := by
  induction n generalizing s with
  | zero => exact ⟨s.rdata, rfl⟩
  | succ n ih =>
    obtain ⟨v, hv⟩ := step_polls s w n
    obtain ⟨v', hv'⟩ := ih { s with rdata := v }
    exact ⟨v', (run_succ hv).trans hv'⟩

/-- Execution takes none of the host's events. -/
theorem execute_host {w : Word} {s t : State} (h : execute w s = .next t) : t.host = s.host := by
  cases hw : decode w with
  | command i =>
    rw [execute_command hw] at h
    obtain ⟨-, -, -, -, -, -, -, -, hhost, -⟩ := onlyNamedStateIsWritten i s t h
    exact hhost
  | illegalOp =>
    rw [execute_illegalOp hw] at h
    cases h
    exact takeFault_host _ s
  | illegalField =>
    rw [execute_illegalField hw] at h
    cases h
    exact takeFault_host _ s

/-- Every word in the latch is executed (60_exceptions.md R220). -/
theorem execute_next (w : Word) (s : State) : ∃ t, execute w s = .next t := by
  cases hw : decode w with
  | command i => rw [execute_command hw]; exact exec_next i s
  | illegalOp => exact ⟨_, execute_illegalOp hw s⟩
  | illegalField => exact ⟨_, execute_illegalField hw s⟩

/-- The poll that finds the unit idle ends the wait, with STATUS read. -/
theorem step_ends_wait {s : State} (hc : s.cur = none) (hh : s.host = [.wait]) :
    step s = .next { s with host := [], rdata := s.statusWord } := by
  have hbusy : State.busy { s with host := [] } = false := busy_of_idle hc
  rw [step_event (.inl hc) hh, afterEvent_of_idle [] hc, hostEvent, busRead_specified (.inl hbusy),
    if_neg (ne_true_of_eq_false hbusy)]
  rfl

/-- Settles O58: acceptance, the polls in flight, completion, and the poll that ends the wait. -/
theorem commandLineRunsToItsEnd : Obligations.CommandLineRunsToItsEnd := by
  intro s w hc hf hh
  have hlat := one_le_latency w { s with host := [.wait] }
  have haccept := step_accepts hc hf hh
  obtain ⟨n, hn⟩ : ∃ n, latency w { s with host := [.wait] } = n + 1 := ⟨_, (Nat.sub_add_cancel hlat).symm⟩
  rw [hn, Nat.add_sub_cancel] at haccept
  obtain ⟨v, hpolls⟩ := run_polls s w n
  obtain ⟨u, hu⟩ := execute_next w ({ s with rdata := v }.inFlight w 0 [.wait])
  have hcomplete : step ({ s with rdata := v }.inFlight w 0 [.wait]) = .next (complete u) := by
    rw [step_completes rfl rfl, executeAndComplete, hu]
  have hend := step_ends_wait (s := complete u) rfl (execute_host hu)
  refine ⟨{ complete u with host := [], rdata := (complete u).statusWord }, ?_, rfl, rfl, rfl, ?_⟩
  · rw [hn, show n + 1 + 2 = n + (1 + 1) + 1 by omega, run_succ haccept, run_add hpolls, run_succ hcomplete, run_one]
    exact hend
  · exact (statusWord_bit_zero _).trans (busy_of_idle rfl)

end Sys2Proof.Machine
end

section
/-! PROOFS. What unwritten registers hold shows in no command (10_state.md R31, R38, 93_implementation_defined.md S4). -/

namespace Sys2Proof.Machine

/-! ### Reads see written registers alone -/

section

variable {s t : State}

theorem readFRaw_sameWritten (h : s.sameWritten t) (i : FieldIx) : readFRaw s i = readFRaw t i := by
  obtain ⟨hfreg, -, -⟩ := h
  obtain ⟨hw, hrec⟩ := hfreg i
  cases hi : s.freg[i].w with
  | true => rw [readFRaw_of_written hi, readFRaw_of_written (hw ▸ hi), hrec hi]
  | false => rw [readFRaw_of_unwritten hi, readFRaw_of_unwritten (hw ▸ hi)]

theorem readF_sameWritten (h : s.sameWritten t) (i : FieldIx) : readF s i = readF t i := by
  rw [readF, readF, readFRaw_sameWritten h]

theorem readNormalized_sameWritten (h : s.sameWritten t) (i : FieldIx) : readNormalized s i = readNormalized t i := by
  rw [readNormalized, readNormalized, readF_sameWritten h]

theorem readFactor_sameWritten (h : s.sameWritten t) (i : FieldIx) : readFactor s i = readFactor t i := by
  rw [readFactor, readFactor, readF_sameWritten h]

theorem readS_sameWritten (h : s.sameWritten t) (j : StorIx) : readS s j = readS t j := by
  obtain ⟨-, hsreg, -⟩ := h
  obtain ⟨hw, hrec⟩ := hsreg j
  cases hj : s.sreg[j].w with
  | true => rw [readS_of_written hj, readS_of_written (hw ▸ hj), hrec hj]
  | false => rw [readS_of_unwritten hj, readS_of_unwritten (hw ▸ hj)]

/-- The buffers and META are not registers: the two states agree on them. -/
theorem buffers_sameWritten (h : s.sameWritten t) : s.bufw = t.bufw ∧ s.limb = t.limb ∧ s.metaw = t.metaw := by
  obtain ⟨-, -, heq⟩ := h
  rw [heq]
  exact ⟨rfl, rfl, rfl⟩

theorem limbLow_sameWritten (h : s.sameWritten t) : s.limbLow = t.limbLow := by
  obtain ⟨-, hlimb, -⟩ := buffers_sameWritten h
  simp only [State.limbLow, hlimb]

theorem rawRecord_sameWritten (h : s.sameWritten t) : s.rawRecord = t.rawRecord := by
  obtain ⟨-, hlimb, hmeta⟩ := buffers_sameWritten h
  simp only [State.rawRecord, State.metaMag, State.metaNorm, hlimb, hmeta]

/-! ### Equal writes keep the states apart in unwritten registers alone -/

theorem sameWritten_writeF (h : s.sameWritten t) (i : FieldIx) (r : FieldRec) :
    (s.writeF i r).sameWritten (t.writeF i r) := by
  obtain ⟨hf, hs, heq⟩ := h
  refine ⟨fun j => ?_, hs, by rw [State.writeF, heq]; rfl⟩
  rw [State.writeF_freg_get, State.writeF_freg_get]
  split
  · exact ⟨rfl, fun _ => rfl⟩
  · exact hf j

/-- A rejected SETB32 into an unwritten register leaves it unwritten. -/
theorem sameWritten_writeLimbs (h : s.sameWritten t) (i : FieldIx) (n : Vector Word 10) :
    (s.writeLimbs i n).sameWritten (t.writeLimbs i n) := by
  obtain ⟨hf, hs, heq⟩ := h
  refine ⟨fun j => ?_, hs, by rw [State.writeLimbs, heq]; rfl⟩
  rw [State.writeLimbs_freg_get, State.writeLimbs_freg_get]
  split
  · obtain ⟨hw, hrec⟩ := hf i
    exact ⟨hw, fun hi => by rw [hrec hi]⟩
  · exact hf j

theorem sameWritten_writeS (h : s.sameWritten t) (i : StorIx) (sw : Vector Word 8) :
    (s.writeS i sw).sameWritten (t.writeS i sw) := by
  obtain ⟨hf, hs, heq⟩ := h
  refine ⟨hf, fun j => ?_, by rw [State.writeS, heq]; rfl⟩
  rw [State.writeS_sreg_get, State.writeS_sreg_get]
  split
  · exact ⟨rfl, fun _ => rfl⟩
  · exact hs j

theorem sameWritten_writeResult (h : s.sameWritten t) (v : Word) : (s.writeResult v).sameWritten (t.writeResult v) := by
  obtain ⟨hf, hs, heq⟩ := h
  exact ⟨hf, hs, by rw [State.writeResult, heq]; rfl⟩

theorem sameWritten_writeBuf (h : s.sameWritten t) (b : Vector Word 8) : (s.writeBuf b).sameWritten (t.writeBuf b) := by
  obtain ⟨hf, hs, heq⟩ := h
  exact ⟨hf, hs, by rw [State.writeBuf, heq]; rfl⟩

theorem sameWritten_writeLimbBuf (h : s.sameWritten t) (l : Vector Word 10) :
    (s.writeLimbBuf l).sameWritten (t.writeLimbBuf l) := by
  obtain ⟨hf, hs, heq⟩ := h
  exact ⟨hf, hs, by rw [State.writeLimbBuf, heq]; rfl⟩

theorem sameWritten_writeLimbLow (h : s.sameWritten t) (sw : Vector Word 8) :
    (s.writeLimbLow sw).sameWritten (t.writeLimbLow sw) := by
  obtain ⟨hf, hs, heq⟩ := h
  exact ⟨hf, hs, by rw [State.writeLimbLow, heq]; rfl⟩

theorem sameWritten_writeMeta (h : s.sameWritten t) (v : Word) : (s.writeMeta v).sameWritten (t.writeMeta v) := by
  obtain ⟨hf, hs, heq⟩ := h
  exact ⟨hf, hs, by rw [State.writeMeta, heq]; rfl⟩

/-- A fault is recorded alike in both states: neither FAULT nor the latch is a register. -/
theorem sameWritten_takeFault (h : s.sameWritten t) (e : FaultCode) : (takeFault e s).sameWritten (takeFault e t) := by
  obtain ⟨hf, hs, heq⟩ := h
  have hfault : t.fault = s.fault := by rw [heq]
  by_cases hs' : s.fault = true
  · rw [takeFault_of_fault e s hs', takeFault_of_fault e t (hfault.trans hs')]
    exact ⟨hf, hs, heq⟩
  · have hs' : s.fault = false := Bool.eq_false_iff.2 hs'
    rw [takeFault_of_no_fault e s hs', takeFault_of_no_fault e t (hfault.trans hs')]
    exact ⟨hf, hs, by rw [heq]⟩

end

/-! ### Rules that agree -/

/-- Two rules end in states that differ in unwritten registers alone, or raise the same fault. -/
inductive SameRule : Except FaultCode State → Except FaultCode State → Prop where
  | ok {s t : State} (h : s.sameWritten t) : SameRule (.ok s) (.ok t)
  | error (e : FaultCode) : SameRule (.error e) (.error e)

/-- A read or a check with one answer, and rules that agree on every answer. -/
theorem SameRule.bind {α : Type} (x : Except FaultCode α) {f g : α → Except FaultCode State}
    (h : ∀ a, SameRule (f a) (g a)) : SameRule (x >>= f) (x >>= g) := by
  cases x with
  | ok a => exact h a
  | error e => exact .error e

/-- Commands whose rules agree end in states that differ in unwritten registers alone. -/
theorem SameRule.runCommand {x y : Except FaultCode State} (hxy : SameRule x y) {s t s' : State} (h : s.sameWritten t)
    (hx : runCommand s x = .next s') : ∃ t', runCommand t y = .next t' ∧ s'.sameWritten t' := by
  cases hxy with
  | ok hw => cases hx; exact ⟨_, rfl, hw⟩
  | error e => cases hx; exact ⟨_, rfl, sameWritten_takeFault h e⟩

/-- The rules of a command agree on two such states: their reads give the same answers, and each writes the same. -/
theorem exec_sameRule {s t : State} (h : s.sameWritten t) (i : Instr) :
    ∃ x y, exec i s = runCommand s x ∧ exec i t = runCommand t y ∧ SameRule x y := by
  cases i
  case norm rd ra | normw rd ra | normv rd ra | mov rd ra | sqr rd ra | inv rd ra | invv rd ra =>
    refine ⟨_, _, rfl, rfl, ?_⟩
    simp only [readF_sameWritten h, readFactor_sameWritten h]
    exact .bind _ fun _ => .ok (sameWritten_writeF h rd _)
  case sqrt rd ra =>
    refine ⟨_, _, rfl, rfl, ?_⟩
    rw [readFactor_sameWritten h]
    exact .bind _ fun _ => .ok (sameWritten_writeResult (sameWritten_writeF h rd _) _)
  case ntz ra | ntzv ra | isqv ra | verify ra =>
    refine ⟨_, _, rfl, rfl, ?_⟩
    simp only [readF_sameWritten h, readFactor_sameWritten h, readFRaw_sameWritten h]
    exact .bind _ fun _ => .ok (sameWritten_writeResult h _)
  case eq ra rb | eqv ra rb =>
    refine ⟨_, _, rfl, rfl, ?_⟩
    simp only [readF_sameWritten h]
    exact .bind _ fun _ => .bind _ fun _ => .ok (sameWritten_writeResult h _)
  case cmpv ra rb =>
    refine ⟨_, _, rfl, rfl, ?_⟩
    simp only [readF_sameWritten h]
    exact .bind _ fun _ => .bind _ fun _ => .bind _ fun _ => .ok (sameWritten_writeResult h _)
  case add rd ra rb | mul rd ra rb | neg rd ra m | mulint rd ra m | cmov rd ra flag =>
    refine ⟨_, _, rfl, rfl, ?_⟩
    simp only [readF_sameWritten h]
    exact .bind _ fun _ => .bind _ fun _ => .bind _ fun _ => .ok (sameWritten_writeF h rd _)
  case setint rd imm | clear rd => exact ⟨.ok _, .ok _, rfl, rfl, .ok (sameWritten_writeF h rd _)⟩
  case setb32 rd =>
    refine ⟨_, _, rfl, rfl, ?_⟩
    obtain ⟨hbuf, -, -⟩ := buffers_sameWritten h
    dsimp only
    rw [hbuf]
    cases geP (slice26 (bval t.bufw)) with
    | false => exact .ok (sameWritten_writeResult (sameWritten_writeF h rd _) _)
    | true => exact .ok (sameWritten_writeResult (sameWritten_writeLimbs h rd _) _)
  case getb32 ra =>
    refine ⟨_, _, rfl, rfl, ?_⟩
    rw [readNormalized_sameWritten h]
    exact .bind _ fun _ => .ok (sameWritten_writeBuf h _)
  case tostor sd fa =>
    refine ⟨_, _, rfl, rfl, ?_⟩
    rw [readNormalized_sameWritten h]
    exact .bind _ fun _ => .ok (sameWritten_writeS h sd _)
  case fromstor fd sa =>
    refine ⟨_, _, rfl, rfl, ?_⟩
    rw [readS_sameWritten h]
    exact .bind _ fun _ => .bind _ fun _ => .ok (sameWritten_writeF h fd _)
  case scmov sd sa flag =>
    refine ⟨_, _, rfl, rfl, ?_⟩
    simp only [readS_sameWritten h]
    exact .bind _ fun _ => .bind _ fun _ => .bind _ fun _ => .ok (sameWritten_writeS h sd _)
  case ldstor sd =>
    refine ⟨.ok (s.writeS sd s.limbLow), .ok (t.writeS sd t.limbLow), rfl, rfl, ?_⟩
    rw [limbLow_sameWritten h]
    exact .ok (sameWritten_writeS h sd _)
  case ststor sa =>
    refine ⟨_, _, rfl, rfl, ?_⟩
    rw [readS_sameWritten h]
    exact .bind _ fun _ => .ok (sameWritten_writeLimbLow h _)
  case ldraw fd =>
    refine ⟨_, _, rfl, rfl, ?_⟩
    rw [rawRecord_sameWritten h]
    exact .bind _ fun _ => .ok (sameWritten_writeF h fd _)
  case straw fa =>
    refine ⟨_, _, rfl, rfl, ?_⟩
    rw [readFRaw_sameWritten h]
    exact .bind _ fun _ => .ok (sameWritten_writeMeta (sameWritten_writeLimbBuf h _) _)

/-- Settles O59. -/
theorem unwrittenContentsUnobservable : Obligations.UnwrittenContentsUnobservable := by
  intro i s t s' h hexec
  obtain ⟨x, y, hx, hy, hxy⟩ := exec_sameRule h i
  rw [hx] at hexec
  rw [hy]
  exact hxy.runCommand h hexec

end Sys2Proof.Machine
end
